-- ==== Sys2Proof/Word.lean ====
section
/-! DEFINITION. Word.lean: the machine's word types (spec 00_scope.md R7, R8). -/

namespace Sys2Proof

/-- One byte of a byte string (R8). -/
abbrev Byte := BitVec 8

/-- A 32-bit register or DMA address (R7: REG_WIDTH, ADDR_WIDTH, LEN_WIDTH). -/
abbrev Word := BitVec 32

/-- A 64-bit word of the SHA-512 core (R132). -/
abbrev Word64 := BitVec 64

end Sys2Proof
end

