-- ==== Sys2Proof/Machine/Bytes.lean ====
section
/-! DEFINITION. Machine/Bytes.lean: byte strings and their integers (00_scope.md R8 to R10). -/

namespace Sys2Proof.Machine

/-- LE(s): the little-endian integer of a byte string (R10). -/
def leNat : List Byte → Nat
  | [] => 0
  | b :: s => b.toNat + 256 * leNat s

/-- LEn(v): the n-byte string whose little-endian integer is v mod 256^n (R10). -/
def leBytes : Nat → Nat → List Byte
  | 0, _ => []
  | n + 1, v => BitVec.ofNat 8 v :: leBytes n (v / 256)

/-- BE(s) (R10). -/
def beNat (s : List Byte) : Nat := leNat s.reverse

/-- BEn(v) (R10). -/
def beBytes (n v : Nat) : List Byte := (leBytes n v).reverse

/-- s[i:j] (R8). -/
def slice (s : List Byte) (i j : Nat) : List Byte := (s.drop i).take (j - i)

/-- W32(s, i): the i-th little-endian 32-bit word (R10). -/
def word32At (s : List Byte) (i : Nat) : BitVec 32 := BitVec.ofNat 32 (leNat (slice s (4 * i) (4 * i + 4)))

/-- W64BE(s, i): the i-th big-endian 64-bit word (R10). -/
def word64BeAt (s : List Byte) (i : Nat) : BitVec 64 :=
  BitVec.ofNat 64 (beNat (slice s (8 * i) (8 * i + 8)))

/-- x ^ y on byte strings (R8). -/
def xorBytes (x y : List Byte) : List Byte := List.zipWith (· ^^^ ·) x y

/-- 0^n: n zero bytes (R8). -/
def zeroBytes (n : Nat) : List Byte := List.replicate n 0#8

end Sys2Proof.Machine
end

