-- ==== Sys2Proof/Config.lean ====
section
/-! DEFINITION. Config.lean: what is fixed for one machine: the constants of spec 00_scope.md R7,
its OPEN parameters, and the free values (93_implementation_defined.md I1 to I11).
An `opaque` constant has no body: no proof can see its value, so a theorem holds for every value. -/

namespace Sys2Proof.Config

/-- ID (R3, R24). -/
def ident : Word := 0x4E41434C#32

/-- VERSION (R3, R25). -/
def version : Word := 0x00000001#32

/-- MMIO_SIZE, the bytes of the register window (R7). -/
def mmioSize : Nat := 256

/-- The size of the DMA space: addresses 0 to 2^32 - 1 (R7, R45, R62). -/
def dmaSpace : Nat := 4294967296

/-- MMIO_BASE, OPEN: the platform address of the register window (R7, I1). -/
opaque mmioBase : Nat

/-- log2 of DMA_BEAT, OPEN: 0 to 12 (R7, I2). -/
opaque dmaBeatLog2 : Fin 13

/-- DMA_BEAT: a power of two from 1 to 4096 (R7, I2). -/
def dmaBeat : Nat := 2 ^ dmaBeatLog2.val

/-- FREE VALUE (notes/assumptions/3.md): "any value" for one byte (R78, R307, R342; I6, I7, I9 to
I11), the n-th that a run meets. -/
opaque freeByte : Nat → BitVec 8

/-- FREE VALUE (notes/assumptions/4.md): which of the failing bytes gives ERR_ADDR (R307; I8). -/
opaque freeIndex : Nat → Nat

/-- FREE VALUE (notes/assumptions/12.md): whether another agent's read of an active output byte returns
the final value or the value before the START (R78; I11). -/
opaque freeChoice : Nat → Bool

/-- FREE VALUE (notes/assumptions/5.md): the entropy port's answer to a read for which the input
queue holds no draw (R43; I4): 32 bytes as their little-endian number, or none for a failure. -/
opaque freeDraw : Nat → Option (BitVec 256)

end Sys2Proof.Config
end

