-- ==== Sys2Proof/Syntax.lean ====
section
/-! DEFINITION. Syntax.lean: the commands, one constructor per row of spec/opcode_table.json
(30_encoding.md R92). A command word carries no operands (R90, R91): they come from the latched
operand registers, so every constructor is a plain name. -/

namespace Sys2Proof

/-- The 28 commands of NACL-CORE (R92). -/
inductive Instr where
  | nop                -- 0x00 R121
  | zeroize            -- 0x01 R122
  | sha512             -- 0x10 R138
  | sha512Init         -- 0x11 R141
  | sha512Update       -- 0x12 R142
  | sha512Final        -- 0x13 R143
  | auth               -- 0x20 R163
  | authVerify         -- 0x21 R164
  | ctCompare          -- 0x22 R165
  | feAdd              -- 0x30 R182
  | feSub              -- 0x31 R183
  | feMul              -- 0x32 R184
  | feInv              -- 0x33 R185
  | scReduce           -- 0x38 R186
  | scMuladd           -- 0x39 R187
  | ptDecode           -- 0x40 R210
  | ptEncode           -- 0x41 R211
  | ptAdd              -- 0x42 R212
  | ptScalarmult       -- 0x43 R213
  | ptScalarmultBase   -- 0x44 R214
  | signKeypair        -- 0x50 R235
  | signPublickey      -- 0x51 R236
  | sign               -- 0x52 R237
  | signOpen           -- 0x53 R238
  | hsalsa20           -- 0x60 R267
  | salsa20Block       -- 0x61 R268
  | stream             -- 0x62 R269
  | streamXor          -- 0x63 R270
deriving DecidableEq, Repr

end Sys2Proof
end

