-- ==== Sys2Proof/Machine/State.lean ====
section
/-! DEFINITION. Machine/State.lean: the state of NACL-CORE as plain data (10_state.md), the events of
the world outside it, the reasons a step can stop, and the state after reset (R46).
A BUSY/IDLE run state is the one bit `busy` (R42). -/

namespace Sys2Proof.Machine

/-- The codes of STATUS.ERR (R300). Codes 0x0A to 0xFF are never reported and have no name. -/
inductive ErrorCode where
  | none      -- 0x00
  | opcode    -- 0x01 E_OPCODE
  | rsvd      -- 0x02 E_RSVD
  | seq       -- 0x03 E_SEQ
  | length    -- 0x04 E_LENGTH
  | range     -- 0x05 E_RANGE
  | overlap   -- 0x06 E_OVERLAP
  | bus       -- 0x07 E_BUS
  | point     -- 0x08 E_POINT
  | entropy   -- 0x09 E_ENTROPY
deriving DecidableEq, Repr

/-- The outcome Complete() takes (R117). -/
inductive CmdOutcome where
  /-- OK(k): the command wrote its k-byte output -/
  | ok (k : Nat)
  /-- VF: a verification failure -/
  | vf
  /-- ERR(code, addr) -/
  | err (code : ErrorCode) (addr : Word)
deriving DecidableEq, Repr

/-- The direction of a DMA byte access, as BUS_RESP sees it (R64, R65). -/
inductive AccessDir where
  | read
  | write
deriving DecidableEq, Repr

/-- Byte addresses `base` to `base + size - 1` at which BUS_RESP answers error in direction `dir`
(R7, R64, R65). A list of these holds any oracle on the 2^32 addresses. -/
structure BusHole where
  dir  : AccessDir
  base : Nat
  size : Nat
deriving DecidableEq, Repr

/-- The width of a host access (R60). -/
inductive AccessSize where
  | b8
  | b16
  | b32
  | b64
deriving DecidableEq, Repr

/-- The named registers of the window (R22). -/
inductive RegName where
  | id | version | ctrl | status | cmd | aAddr | aLen | bAddr | cAddr | dAddr | outLen | errAddr
deriving DecidableEq, Repr

/-- What the world outside the core does next (INVENTORY.md, Host interface). -/
inductive HostEvent where
  /-- a host store of `value` at a platform address (R60) -/
  | store (addr : Nat) (size : AccessSize) (value : Word)
  /-- a host load from a platform address (R60) -/
  | load (addr : Nat) (size : AccessSize)
  /-- the host or another agent stores one byte in the DMA space (R78) -/
  | dmaStore (addr : Word) (value : Byte)
  /-- the host or another agent reads one byte of the DMA space (R78) -/
  | dmaLoad (addr : Word)
  /-- the platform asserts the reset input (R340) -/
  | assertReset
  /-- the platform releases the reset input (R340) -/
  | releaseReset
  /-- the platform's BUS_RESP becomes this oracle (R7, D7) -/
  | setBus (holes : List BusHole)
  /-- the entropy port will answer one further read with this draw (R43, D25) -/
  | offerEntropy (draw : Option (BitVec 256))
  /-- the outside world pauses and the core takes its turn (R118, R119) -/
  | coreTurn
  /-- the host reads STATUS until BUSY reads 0 (`wait`, R99): `polls` reads of a BUSY core, then the
  core's turn, then the last read -/
  | wait (polls : Nat)
deriving DecidableEq, Repr

/-- The eight 64-bit chaining words of SHA-512 (R40, R134). -/
structure ChainWords where
  h0 : Word64
  h1 : Word64
  h2 : Word64
  h3 : Word64
  h4 : Word64
  h5 : Word64
  h6 : Word64
  h7 : Word64
deriving DecidableEq, Repr

/-- The eight chaining words all 0: what CTX_H holds when no context is valid (R40, R139). -/
def ChainWords.zero : ChainWords := ⟨0#64, 0#64, 0#64, 0#64, 0#64, 0#64, 0#64, 0#64⟩

/-- The copies taken at an accepted START (R34). -/
structure Latches where
  cmd   : Word
  aAddr : Word
  aLen  : Word
  bAddr : Word
  cAddr : Word
  dAddr : Word
deriving DecidableEq, Repr

/-- The DMA space: pairs of an address and its byte, addresses strictly rising, no entry equal to
what an unlisted address reads as. -/
abbrev Memory := List Host.Cell

/-- What an unlisted address reads as. DESIGN CHOICE, unsafe (notes/assumptions/1.md). -/
def Memory.unlisted : Byte := 0#8

/-- The canonical form of a memory: addresses of the DMA space, strictly rising, nothing listed that
an unlisted address would read as. -/
abbrev Memory.wf (m : Memory) : Prop :=
  (m.map Prod.fst).Pairwise (· < ·) ∧ ∀ c ∈ m, c.1 < Config.dmaSpace ∧ c.2 ≠ Memory.unlisted

/-- The state. The fields down to `work` are the core's own (R46); `mem` is the DMA space (R45); the
fields after it are the model's own: the world outside the core and the free-value counter. -/
structure State where
  irqEn    : Bool          -- CTRL.IRQ_EN (R26)
  busy     : Bool          -- STATUS.BUSY (R27), the run state (R42)
  done     : Bool          -- STATUS.DONE (R27)
  vfail    : Bool          -- STATUS.VFAIL (R27)
  overrun  : Bool          -- STATUS.OVERRUN (R27)
  ctxValid : Bool          -- STATUS.CTX_VALID (R27, R40)
  err      : ErrorCode     -- STATUS.ERR (R27, R300)
  cmd      : Word          -- CMD (R28)
  aAddr    : Word          -- A_ADDR (R29)
  aLen     : Word          -- A_LEN (R30)
  bAddr    : Word          -- B_ADDR (R31)
  cAddr    : Word          -- C_ADDR (R32)
  dAddr    : Word          -- D_ADDR (R33)
  outLen   : Word          -- OUT_LEN (R35)
  errAddr  : Word          -- ERR_ADDR (R36)
  lat      : Latches       -- lat[CMD] .. lat[D_ADDR] (R34)
  ctxH     : ChainWords    -- CTX_H (R40)
  ctxMlen  : BitVec 128    -- CTX_MLEN (R40)
  ctxBuf   : List Byte     -- CTX_BUF, 0 to 127 bytes (R40)
  work     : List Byte     -- working storage: the bytes it holds, empty when zero (R41)
  mem      : Memory        -- the DMA space (R45)
  inReset  : Bool          -- the reset input is asserted (R340)
  racedIn  : List Nat      -- active input bytes another agent wrote while BUSY (R78)
  racedOut : List Nat      -- active output bytes another agent wrote while BUSY (R78)
  busHoles : List BusHole  -- BUS_RESP (R7, R64, R65)
  entropy  : List (Option (BitVec 256))  -- ENTROPY: the draws to come (R43)
  inputs   : List HostEvent              -- what the outside world does next, first first
  rdata    : Word          -- the value the last host load returned (R97)
  free     : Nat           -- how many free values the run has met
deriving DecidableEq, Repr

/-- Why a step stops with a fault. -/
inductive Fault where
  /-- Raised by a host load or store event that touches the register window and is not an aligned
  32-bit access (R60, I5: "fault of the host program; the core's state does not change"). Safe. -/
  | windowAccess (addr : Nat) (size : AccessSize)
deriving DecidableEq, Repr

/-- Why a step is refused. -/
inductive Refusal where
  /-- Raised by exec for a command that has no meaning yet. Safe. No arm of exec raises it now. -/
  | notModelled (mnemonic : String)
  /-- Raised by a host access to the window while the reset input is asserted (R340, I14: "refuse:
  no host step is modelled during assertion"). Safe. -/
  | windowInReset (addr : Nat)
deriving DecidableEq, Repr

/-- Every latch 0 (R46). -/
def Latches.zero : Latches := ⟨0#32, 0#32, 0#32, 0#32, 0#32, 0#32⟩

/-- The machine right after reset (R46). The values of the model's own fields are DESIGN CHOICES
(notes/assumptions/1.md, 2.md, 5.md). -/
def State.reset : State where
  irqEn    := false
  busy     := false
  done     := false
  vfail    := false
  overrun  := false
  ctxValid := false
  err      := .none
  cmd      := 0#32
  aAddr    := 0#32
  aLen     := 0#32
  bAddr    := 0#32
  cAddr    := 0#32
  dAddr    := 0#32
  outLen   := 0#32
  errAddr  := 0#32
  lat      := Latches.zero
  ctxH     := ChainWords.zero
  ctxMlen  := 0#128
  ctxBuf   := []
  work     := []
  mem      := []
  inReset  := false
  racedIn  := []
  racedOut := []
  busHoles := []
  entropy  := []
  inputs   := []
  rdata    := 0#32
  free     := 0

end Sys2Proof.Machine
end

