-- ==== Sys2Proof/Machine/Flags.lean ====
section
/-! DEFINITION. Machine/Flags.lean: the words of the register window (10_state.md R22 to R37), the
STATUS flags (R27, R39) and the interrupt level (R38). -/

namespace Sys2Proof.Machine

/-- The byte STATUS.ERR holds for an error code (R300). -/
def errorByte : ErrorCode → BitVec 8
  | .none => 0x00#8
  | .opcode => 0x01#8
  | .rsvd => 0x02#8
  | .seq => 0x03#8
  | .length => 0x04#8
  | .range => 0x05#8
  | .overlap => 0x06#8
  | .bus => 0x07#8
  | .point => 0x08#8
  | .entropy => 0x09#8

/-- A flag as one bit. -/
def flagBit (b : Bool) : BitVec 1 := BitVec.ofBool b

/-- STATUS as the host reads it (R27): ERR in bits 15:8, CTX_VALID, OVERRUN, VFAIL, DONE and BUSY in
bits 4 to 0, reserved bits 0. -/
def statusWord (s : State) : Word :=
  (0#16) ++ errorByte s.err ++ (0#3) ++ flagBit s.ctxValid ++ flagBit s.overrun ++ flagBit s.vfail
    ++ flagBit s.done ++ flagBit s.busy

/-- CTRL as the host reads it (R26): IRQ_EN in bit 2; START, SOFT_RESET and the reserved bits read 0. -/
def ctrlWord (s : State) : Word := (0#29) ++ flagBit s.irqEn ++ (0#2)

/-- The interrupt output: IRQ = STATUS.DONE & CTRL.IRQ_EN (R38, R305). -/
def State.irq (s : State) : Bool := s.done && s.irqEn

/-- The register at a window offset; none at a reserved offset (R22, R37). -/
def regAt : Nat → Option RegName
  | 0x000 => some .id
  | 0x004 => some .version
  | 0x008 => some .ctrl
  | 0x00C => some .status
  | 0x010 => some .cmd
  | 0x014 => some .aAddr
  | 0x018 => some .aLen
  | 0x01C => some .bAddr
  | 0x020 => some .cAddr
  | 0x024 => some .dAddr
  | 0x028 => some .outLen
  | 0x02C => some .errAddr
  | _ => none

/-- The window offset of a register (R22). -/
def regOffset : RegName → Nat
  | .id => 0x000
  | .version => 0x004
  | .ctrl => 0x008
  | .status => 0x00C
  | .cmd => 0x010
  | .aAddr => 0x014
  | .aLen => 0x018
  | .bAddr => 0x01C
  | .cAddr => 0x020
  | .dAddr => 0x024
  | .outLen => 0x028
  | .errAddr => 0x02C

/-- What a read of a register returns (R23 to R36); no read has a side effect (R23). -/
def readReg (r : RegName) (s : State) : Word :=
  match r with
  | .id => Config.ident
  | .version => Config.version
  | .ctrl => ctrlWord s
  | .status => statusWord s
  | .cmd => s.cmd
  | .aAddr => s.aAddr
  | .aLen => s.aLen
  | .bAddr => s.bAddr
  | .cAddr => s.cAddr
  | .dAddr => s.dAddr
  | .outLen => s.outLen
  | .errAddr => s.errAddr

/-- What a read of a window offset returns: a register, or 0 at a reserved offset (R37). -/
def readWindow (off : Nat) (s : State) : Word :=
  match regAt off with
  | some r => readReg r s
  | none => 0#32

/-- A write of `v` to STATUS: bits 1 and 3 are W1C, every other bit is read-only or reserved (R27).
Writing 1 to bit 1 is the acknowledgement of a completion (R308), which clears DONE, deasserts IRQ
and restores nothing. -/
def writeStatus (v : Word) (s : State) : State :=
  { s with done := s.done && !v.getLsbD 1, overrun := s.overrun && !v.getLsbD 3 }

end Sys2Proof.Machine
end

