-- ==== Sys2Proof/Decode.lean ====
section
/-! DEFINITION. Decode.lean: the decoder of command words, total on every word and every byte string,
and after it the encoder (30_encoding.md R90 to R96). -/

namespace Sys2Proof

/-- What decoding answers: a command, or a rejection by name (R93). -/
inductive Decoded where
  /-- the word selects this command -/
  | command (i : Instr)
  /-- the OPCODE field is unassigned: E_OPCODE (R93, R95) -/
  | badOpcode (op : BitVec 8)
  /-- the opcode is assigned and RSVD is not 0: E_RSVD (R93, R95) -/
  | badRsvd (bits : BitVec 24)
  /-- fewer than the four bytes of a command word (R90, R96: no shorter form exists) -/
  | truncated
deriving DecidableEq, Repr

/-- Bits [7:0] of a command word (R90). -/
def opcodeField (w : Word) : BitVec 8 := w.extractLsb' 0 8

/-- Bits [31:8] of a command word (R90). -/
def rsvdField (w : Word) : BitVec 24 := w.extractLsb' 8 24

/-- The opcode map of R92, families 0x0 to 0x3: control, hash, MAC, field and scalar. -/
def opcodeRowsLow : List (BitVec 8 × Instr) :=
  [(0x00#8, .nop), (0x01#8, .zeroize),
   (0x10#8, .sha512), (0x11#8, .sha512Init), (0x12#8, .sha512Update), (0x13#8, .sha512Final),
   (0x20#8, .auth), (0x21#8, .authVerify), (0x22#8, .ctCompare),
   (0x30#8, .feAdd), (0x31#8, .feSub), (0x32#8, .feMul), (0x33#8, .feInv),
   (0x38#8, .scReduce), (0x39#8, .scMuladd)]

/-- The opcode map of R92, families 0x4 to 0x6: point, signature, stream. -/
def opcodeRowsHigh : List (BitVec 8 × Instr) :=
  [(0x40#8, .ptDecode), (0x41#8, .ptEncode), (0x42#8, .ptAdd), (0x43#8, .ptScalarmult),
   (0x44#8, .ptScalarmultBase),
   (0x50#8, .signKeypair), (0x51#8, .signPublickey), (0x52#8, .sign), (0x53#8, .signOpen),
   (0x60#8, .hsalsa20), (0x61#8, .salsa20Block), (0x62#8, .stream), (0x63#8, .streamXor)]

/-- The opcode map of R92. -/
def opcodeRows : List (BitVec 8 × Instr) := opcodeRowsLow ++ opcodeRowsHigh

/-- The command of the first row with this opcode, if a row has it. -/
def lookupOpcode (op : BitVec 8) : List (BitVec 8 × Instr) → Option Instr
  | [] => none
  | (o, i) :: rows => if o = op then some i else lookupOpcode op rows

/-- Decoding a command word (R93): the opcode check comes first. -/
def decodeWord (w : Word) : Decoded :=
  match lookupOpcode (opcodeField w) opcodeRows with
  | none => .badOpcode (opcodeField w)
  | some i => if rsvdField w = 0#24 then .command i else .badRsvd (rsvdField w)

/-- The word of four bytes, the first the least significant (R61). -/
def wordOfLanes (b0 b1 b2 b3 : Byte) : Word := b3 ++ b2 ++ b1 ++ b0

/-- Decoding a command word from a byte string in the register's byte lanes (R61, R90), and the
bytes after it. -/
def decodeBytes : List Byte → Decoded × List Byte
  | b0 :: b1 :: b2 :: b3 :: rest => (decodeWord (wordOfLanes b0 b1 b2 b3), rest)
  | bytes => (.truncated, bytes)

/-- The four byte lanes of a word (R61). -/
def lanesOfWord (w : Word) : List Byte :=
  [w.extractLsb' 0 8, w.extractLsb' 8 8, w.extractLsb' 16 8, w.extractLsb' 24 8]

/-- The OPCODE of each command (R92), written out row by row. -/
def opcodeOf : Instr → BitVec 8
  | .nop => 0x00#8
  | .zeroize => 0x01#8
  | .sha512 => 0x10#8
  | .sha512Init => 0x11#8
  | .sha512Update => 0x12#8
  | .sha512Final => 0x13#8
  | .auth => 0x20#8
  | .authVerify => 0x21#8
  | .ctCompare => 0x22#8
  | .feAdd => 0x30#8
  | .feSub => 0x31#8
  | .feMul => 0x32#8
  | .feInv => 0x33#8
  | .scReduce => 0x38#8
  | .scMuladd => 0x39#8
  | .ptDecode => 0x40#8
  | .ptEncode => 0x41#8
  | .ptAdd => 0x42#8
  | .ptScalarmult => 0x43#8
  | .ptScalarmultBase => 0x44#8
  | .signKeypair => 0x50#8
  | .signPublickey => 0x51#8
  | .sign => 0x52#8
  | .signOpen => 0x53#8
  | .hsalsa20 => 0x60#8
  | .salsa20Block => 0x61#8
  | .stream => 0x62#8
  | .streamXor => 0x63#8

/-- The command word of a command: its OPCODE under RSVD = 0 (R90). -/
def encode (i : Instr) : Word := (0#24) ++ opcodeOf i

/-- The command word as the four bytes of its register lanes (R61). -/
def encodeBytes (i : Instr) : List Byte := lanesOfWord (encode i)

/-- What the decoder reads from a command word whose bits are `w`, numbered as
spec/opcode_table.json numbers them. Bits of `w` above `nbits` count as 0. A command word is
32 bits and has no longer form (R96), so a number that does not fit in it names none. -/
def decodeTableWord (nbits w : Nat) : Option Instr :=
  let v := w % 2 ^ nbits
  if v < 4294967296 then
    match (decodeBytes (lanesOfWord (BitVec.ofNat 32 v))).1 with
    | .command i => some i
    | _ => none
  else none

end Sys2Proof
end

