-- ==== Sys2Proof/Machine/Operands.lean ====
section
/-! DEFINITION. Machine/Operands.lean: the operand forms: the regions of every command
(30_encoding.md R91, R94), the checks over them (40_control.md R114 to R116, 20_memory.md R67), and
what BUS_RESP answers for them (R64, R65). -/

namespace Sys2Proof.Machine

/-- A region (a, n): the bytes a to a + n - 1 (R62). -/
structure Region where
  addr : Nat
  len  : Nat
deriving DecidableEq, Repr

/-- The regions of one command: the A, B and C inputs and the D output, none where R94 has "-". -/
structure Regions where
  a : Option Region
  b : Option Region
  c : Option Region
  d : Option Region
deriving DecidableEq, Repr

/-- The byte addresses of a region (R62). -/
def Region.addresses (r : Region) : List Nat := List.range' r.addr r.len

/-- In range: n = 0, or a + n <= 2^32 without wrap (R62). -/
def Region.inRange (r : Region) : Bool := r.len == 0 || decide (r.addr + r.len ≤ Config.dmaSpace)

/-- Two non-empty regions (a, n) and (b, m) overlap when a < b + m and b < a + n (R67). -/
def Region.overlaps (r q : Region) : Bool :=
  decide (0 < r.len) && decide (0 < q.len)
    && decide (r.addr < q.addr + q.len) && decide (q.addr < r.addr + r.len)

/-- The A region (lat[A_ADDR], n) with n = lat[A_LEN] (R94). -/
def aRegion (l : Latches) : Option Region := some ⟨l.aAddr.toNat, l.aLen.toNat⟩

/-- A fixed region at lat[B_ADDR] (R94). -/
def bRegion (l : Latches) (n : Nat) : Option Region := some ⟨l.bAddr.toNat, n⟩

/-- A region at lat[C_ADDR] (R94). -/
def cRegion (l : Latches) (n : Nat) : Option Region := some ⟨l.cAddr.toNat, n⟩

/-- The output region at lat[D_ADDR] (R94). -/
def dRegion (l : Latches) (n : Nat) : Option Region := some ⟨l.dAddr.toNat, n⟩

/-- The regions of each command (R94), row by row. -/
def regionsOf (i : Instr) (l : Latches) : Regions :=
  match i with
  | .nop => ⟨none, none, none, none⟩
  | .zeroize => ⟨none, none, none, none⟩
  | .sha512 => ⟨aRegion l, none, none, dRegion l 64⟩
  | .sha512Init => ⟨none, none, none, none⟩
  | .sha512Update => ⟨aRegion l, none, none, none⟩
  | .sha512Final => ⟨none, none, none, dRegion l 64⟩
  | .auth => ⟨aRegion l, bRegion l 32, none, dRegion l 32⟩
  | .authVerify => ⟨aRegion l, bRegion l 32, cRegion l 32, none⟩
  | .ctCompare => ⟨aRegion l, none, cRegion l l.aLen.toNat, none⟩
  | .feAdd => ⟨none, bRegion l 32, cRegion l 32, dRegion l 32⟩
  | .feSub => ⟨none, bRegion l 32, cRegion l 32, dRegion l 32⟩
  | .feMul => ⟨none, bRegion l 32, cRegion l 32, dRegion l 32⟩
  | .feInv => ⟨none, bRegion l 32, none, dRegion l 32⟩
  | .scReduce => ⟨none, bRegion l 64, none, dRegion l 32⟩
  | .scMuladd => ⟨some ⟨l.aAddr.toNat, 32⟩, bRegion l 32, cRegion l 32, dRegion l 32⟩
  | .ptDecode => ⟨none, bRegion l 32, none, dRegion l 64⟩
  | .ptEncode => ⟨none, bRegion l 64, none, dRegion l 32⟩
  | .ptAdd => ⟨none, bRegion l 32, cRegion l 32, dRegion l 32⟩
  | .ptScalarmult => ⟨none, bRegion l 32, cRegion l 32, dRegion l 32⟩
  | .ptScalarmultBase => ⟨none, bRegion l 32, none, dRegion l 32⟩
  | .signKeypair => ⟨none, none, none, dRegion l 96⟩
  | .signPublickey => ⟨none, bRegion l 32, none, dRegion l 96⟩
  | .sign => ⟨aRegion l, bRegion l 64, none, dRegion l (64 + l.aLen.toNat)⟩
  | .signOpen =>
    ⟨aRegion l, none, cRegion l 32, if 64 ≤ l.aLen.toNat then dRegion l (l.aLen.toNat - 64) else none⟩
  | .hsalsa20 => ⟨none, bRegion l 32, cRegion l 16, dRegion l 32⟩
  | .salsa20Block => ⟨none, bRegion l 32, cRegion l 16, dRegion l 64⟩
  | .stream => ⟨none, bRegion l 32, cRegion l 24, dRegion l l.aLen.toNat⟩
  | .streamXor => ⟨aRegion l, bRegion l 32, cRegion l 24, dRegion l l.aLen.toNat⟩

/-- All regions, in the order A, B, C, D (R116). -/
def Regions.all (r : Regions) : List Region := r.a.toList ++ r.b.toList ++ r.c.toList ++ r.d.toList

/-- The input regions, in the order A, B, C (R94). -/
def Regions.ins (r : Regions) : List Region := r.a.toList ++ r.b.toList ++ r.c.toList

/-- The byte addresses of the input regions (R63). -/
def inputAddresses (i : Instr) (l : Latches) : List Nat :=
  (regionsOf i l).ins.flatMap Region.addresses

/-- The byte addresses of the output region (R63). -/
def outputAddresses (i : Instr) (l : Latches) : List Nat :=
  (regionsOf i l).d.toList.flatMap Region.addresses

/-- Sequence check: SHA512_UPDATE and SHA512_FINAL require CTX_VALID = 1 (R114). -/
def seqFails (i : Instr) (s : State) : Bool :=
  match i with
  | .sha512Update => !s.ctxValid
  | .sha512Final => !s.ctxValid
  | _ => false

/-- Length check: SIGN requires lat[A_LEN] <= 2^32 - 65 (R115). -/
def lengthFails (i : Instr) (l : Latches) : Bool :=
  match i with
  | .sign => decide (Config.dmaSpace - 65 < l.aLen.toNat)
  | _ => false

/-- Range check: some region with n > 0 has a + n > 2^32 (R116). -/
def rangeFails (i : Instr) (l : Latches) : Bool := (regionsOf i l).all.any fun r => !r.inRange

/-- The output region and the A region of a command overlap (R67). -/
def outputOverlapsA (i : Instr) (l : Latches) : Bool :=
  match (regionsOf i l).a, (regionsOf i l).d with
  | some r, some q => r.overlaps q
  | _, _ => false

/-- Overlap check: SIGN, SIGN_OPEN and STREAM_XOR, the last one allowed exactly in place (R67). -/
def overlapFails (i : Instr) (l : Latches) : Bool :=
  match i with
  | .sign => outputOverlapsA .sign l
  | .signOpen => outputOverlapsA .signOpen l
  | .streamXor => outputOverlapsA .streamXor l && !decide (l.dAddr = l.aAddr)
  | _ => false

/-- The checks after the decode check, in order: the first that fails names the error
(R114 to R116, R304). -/
def checkError (i : Instr) (s : State) : Option ErrorCode :=
  if seqFails i s then some .seq
  else if lengthFails i s.lat then some .length
  else if rangeFails i s.lat then some .range
  else if overlapFails i s.lat then some .overlap
  else none

/-- The hole covers this address and direction. -/
def BusHole.covers (h : BusHole) (dir : AccessDir) (a : Nat) : Bool :=
  decide (h.dir = dir) && decide (h.base ≤ a) && decide (a < h.base + h.size)

/-- BUS_RESP(a, dir) answers error (R64, R65). -/
def State.busError (s : State) (dir : AccessDir) (a : Nat) : Bool :=
  s.busHoles.any fun h => h.covers dir a

/-- The addresses of the command's input bytes whose read answers error (R64, R307). -/
def failingReads (i : Instr) (s : State) : List Nat :=
  (inputAddresses i s.lat).filter (s.busError .read)

/-- The addresses of the command's output bytes whose write answers error (R65, R307). -/
def failingWrites (i : Instr) (s : State) : List Nat :=
  (outputAddresses i s.lat).filter (s.busError .write)

/-- The command the latched command word selects, if it selects one (R42, R93). -/
def activeCommand (s : State) : Option Instr :=
  match decodeWord s.lat.cmd with
  | .command i => if s.busy then some i else none
  | _ => none

/-- The addresses of the active input regions (R14, R78): none while the core is idle. -/
def activeInputs (s : State) : List Nat :=
  match activeCommand s with
  | some i => inputAddresses i s.lat
  | none => []

/-- The addresses of the active output region that exist in the DMA space (R14, R78, R342). -/
def activeOutputs (s : State) : List Nat :=
  match activeCommand s with
  | some i => (outputAddresses i s.lat).filter fun a => decide (a < Config.dmaSpace)
  | none => []

end Sys2Proof.Machine
end

