-- ==== Sys2Proof/Machine/Ops.lean ====
section
/-! DEFINITION. Machine/Ops.lean: the shared operations: memory, DMA reads and writes, the free
values, the SHA context's invalidation, Complete (this core's taking of an exception, R306), the
frame every command runs in (R118), Accept and reset. The return from an exception is the host's
acknowledgement (R308): writeStatus in Machine/Flags.lean. -/

namespace Sys2Proof.Machine

/-! ### Memory (R45, R62) -/

/-- The byte at an address. -/
def Memory.read : Memory → Nat → Byte
  | [], _ => Memory.unlisted
  | (k, v) :: m, a => if k = a then v else Memory.read m a

/-- A list of cells with one cell put in front, unless an unlisted address reads as its byte. -/
def Memory.consCell (a : Nat) (v : Byte) (m : Memory) : Memory :=
  if v = Memory.unlisted then m else (a, v) :: m

/-- The memory after a write of one byte, in canonical form again. -/
def Memory.write : Memory → Nat → Byte → Memory
  | [], a, v => Memory.consCell a v []
  | (k, w) :: m, a, v =>
    if a < k then Memory.consCell a v ((k, w) :: m)
    else if a = k then Memory.consCell a v m
    else (k, w) :: Memory.write m a v

/-- The n bytes at a, a + 1, .. (R64). -/
def Memory.readBytes : Memory → Nat → Nat → List Byte
  | _, _, 0 => []
  | m, a, n + 1 => m.read a :: Memory.readBytes m (a + 1) n

/-- The memory after the bytes are written at a, a + 1, .. (R65). -/
def Memory.writeBytes : Memory → Nat → List Byte → Memory
  | m, _, [] => m
  | m, a, b :: bs => Memory.writeBytes (m.write a b) (a + 1) bs

/-! ### Free values (R15, R78, R307, R342) -/

/-- Each of these bytes takes any value: the next free values of the run. -/
def havoc : List Nat → State → State
  | [], s => s
  | a :: as, s => havoc as { s with mem := s.mem.write a (Config.freeByte s.free), free := s.free + 1 }

/-! ### DMA reads and writes of a command -/

/-- One DMA read of an input byte. A byte that another agent wrote while the command was BUSY reads
as any value (R78, I9). -/
def dmaReadByte (a : Nat) (s : State) : Byte × State :=
  if a ∈ s.racedIn then (Config.freeByte s.free, { s with free := s.free + 1 })
  else (s.mem.read a, s)

/-- The DMA reads of the n bytes at a, a + 1, .. . -/
def dmaReadBytes : Nat → Nat → State → List Byte × State
  | _, 0, s => ([], s)
  | a, n + 1, s =>
    let first := dmaReadByte a s
    let rest := dmaReadBytes (a + 1) n first.2
    (first.1 :: rest.1, rest.2)

/-- MemRead(a, n) (R11, R64); the bytes read are also held in working storage, the core's staging
buffers (R41). That no byte answers error is checked before (readsThen). -/
def memRead (a n : Nat) (s : State) : List Byte × State :=
  let r := dmaReadBytes a n s
  (r.1, { r.2 with work := r.2.work ++ r.1 })

/-! ### The SHA-512 context -/

/-- InvalidateCtx() (R139). -/
def invalidateCtx (s : State) : State :=
  { s with ctxValid := false, ctxH := ChainWords.zero, ctxMlen := 0#128, ctxBuf := [] }

/-! ### Completion: the outcome of a command (R117, R306) -/

/-- Bytes of the output region that another agent wrote while the command was BUSY hold any value at
its completion (R78, I10); the record of raced bytes ends with the command. -/
def settleRaces (s : State) : State :=
  { havoc s.racedOut s with racedIn := [], racedOut := [] }

/-- The assignments of Complete(outcome) (R117). -/
def finish (o : CmdOutcome) (s : State) : State :=
  { s with
    work := []
    err := match o with
      | .err c _ => c
      | _ => .none
    vfail := match o with
      | .vf => true
      | _ => false
    outLen := match o with
      | .ok k => BitVec.ofNat 32 k
      | _ => 0#32
    errAddr := match o with
      | .err .bus a => a
      | _ => 0#32
    busy := false
    done := true }

/-- Complete(outcome) (R117): the one operation that ends a command. -/
def complete (o : CmdOutcome) (s : State) : State := finish o (settleRaces s)

/-- `raise E_X`: complete with ERR(E_X, 0), for every code but E_BUS (R301). -/
def raiseError (c : ErrorCode) (s : State) : State := complete (.err c 0#32) s

/-- vfail() (R303). -/
def verifyFail (s : State) : State := complete .vf s

/-- f & ~(beat - 1) (R307). -/
def beatAlign (beat f : Nat) : Word := BitVec.ofNat 32 f &&& ~~~(BitVec.ofNat 32 (beat - 1))

/-- One of the failing bytes, a free choice (R307, I8). -/
def chooseFailing (fs : List Nat) (n : Nat) : Nat := fs.getD (Config.freeIndex n % fs.length) 0

/-- `raise E_BUS` (R307): ERR_ADDR is one of the failing bytes of the command's regions rounded down
to DMA_BEAT, and every byte of the output region has any value. -/
def busFail (i : Instr) (s : State) : State :=
  let f := chooseFailing (failingReads i s ++ failingWrites i s) s.free
  complete (.err .bus (beatAlign Config.dmaBeat f))
    (havoc (outputAddresses i s.lat) { s with free := s.free + 1 })

/-- The input reads of a command: E_BUS if a byte of an input region answers error, after the
command's own `onError`, and otherwise the rest of the command (R64, R304). -/
def readsThen (i : Instr) (onError : State → State) (rest : State → State) (s : State) : State :=
  if failingReads i s = [] then rest s else busFail i (onError s)

/-- Out(v) and then completion (R11, R65, R118): MemWrite(lat[D_ADDR], len(v), v) and OUT_LEN =
len(v), or E_BUS if a byte of the output region answers error. -/
def writeOut (i : Instr) (v : List Byte) (s : State) : State :=
  if failingWrites i s = [] then
    complete (.ok v.length) { s with mem := s.mem.writeBytes s.lat.dAddr.toNat v }
  else busFail i s

/-- Run() after the decode check (R118): the checks, then the command's own rule. -/
def runCommand (i : Instr) (body : State → State) (s : State) : Host.Outcome State Fault Refusal :=
  .next (match checkError i s with
    | some c => raiseError c s
    | none => body s)

/-! ### The entropy port -/

/-- EntropyRead() (R43, R235): the next draw the outside world offers, or a free draw where it
offers none. -/
def entropyRead (s : State) : Option (BitVec 256) × State :=
  match s.entropy with
  | d :: ds => (d, { s with entropy := ds })
  | [] => (Config.freeDraw s.free, { s with free := s.free + 1 })

/-! ### Accept, overrun and reset -/

/-- Accept() (R112). -/
def accept (s : State) : State :=
  { s with
    lat := ⟨s.cmd, s.aAddr, s.aLen, s.bAddr, s.cAddr, s.dAddr⟩
    done := false
    vfail := false
    err := .none
    outLen := 0#32
    errAddr := 0#32
    busy := true
    racedIn := []
    racedOut := [] }

/-- Overrun() (R111). -/
def noteOverrun (s : State) : State := { s with overrun := true }

/-- Every piece of the core's state at its reset value (R46, R340); the DMA space and the outside
world stay. -/
def resetCore (s : State) : State :=
  { State.reset with
    mem := s.mem
    inReset := s.inReset
    busHoles := s.busHoles
    entropy := s.entropy
    inputs := s.inputs
    rdata := s.rdata
    free := s.free }

/-- Abort of a command in progress: each byte of its output region has any value (R342). -/
def abortCommand (s : State) : State := havoc (activeOutputs s) s

/-- Reset, hard or soft, as one step (R340, R341). -/
def resetStep (s : State) : State := resetCore (abortCommand s)

end Sys2Proof.Machine
end

