-- ==== Sys2Proof/Machine/Control.lean ====
section
/-! DEFINITION. Machine/Control.lean: the control commands NOP and ZEROIZE (40_control.md). -/

namespace Sys2Proof.Machine

/-- NOP (R121). -/
def execNop (s : State) : Host.Outcome State Fault Refusal :=
  runCommand .nop (fun s => complete (.ok 0) s) s

/-- ZEROIZE (R122). -/
def execZeroize (s : State) : Host.Outcome State Fault Refusal :=
  runCommand .zeroize (fun s => complete (.ok 0) { invalidateCtx s with work := [] }) s

end Sys2Proof.Machine
end

