-- ==== Sys2Proof/Machine/Field.lean ====
section
/-! DEFINITION. Machine/Field.lean: the field-arithmetic engine and scalar reduction
(43_field_scalar.md). Every value is an unbounded natural number, reduced at the end (R188). -/

namespace Sys2Proof.Machine

/-- p = 2^255 - 19 (R180). -/
def fieldP : Nat := 57896044618658097711785492504343953926634992332820282019728792003956564819949

/-- L = 2^252 + 27742317777372353535851937790883648493 (R181). -/
def groupL : Nat := 7237005577332262213973186563042994240857116359379907606001950938285454250989

/-- b^e mod m by squaring, for e of at most `fuel` bits. -/
def powModAux (m : Nat) : Nat → Nat → Nat → Nat
  | 0, _, _ => 1 % m
  | fuel + 1, b, e =>
    let h := powModAux m fuel (b * b % m) (e / 2)
    if e % 2 = 1 then b * h % m else h

/-- b^e mod m, for e below 2^256. -/
def powMod (b e m : Nat) : Nat := powModAux m 256 (b % m) e

/-- (x + y) mod p (R182). -/
def fieldAdd (x y : Nat) : Nat := (x + y) % fieldP

/-- (x - y) mod p, in [0, p) for a negative difference too (R183). -/
def fieldSub (x y : Nat) : Nat := (x + (fieldP - y % fieldP)) % fieldP

/-- (x · y) mod p (R184). -/
def fieldMul (x y : Nat) : Nat := x * y % fieldP

/-- x^(p-2) mod p: the inverse, and 0 at 0 (R185). -/
def fieldInv (x : Nat) : Nat := powMod x (fieldP - 2) fieldP

/-- (a · b + c) mod L (R187). -/
def scalarMulAdd (a b c : Nat) : Nat := (a * b + c) % groupL

/-- The frame of FE_ADD, FE_SUB and FE_MUL: B = x and C = y, 32 bytes each, D = LE32(f x y). -/
def fieldBinary (i : Instr) (f : Nat → Nat → Nat) (s : State) : Host.Outcome State Fault Refusal :=
  runCommand i (fun s =>
    readsThen i id (fun s =>
      let x := memRead s.lat.bAddr.toNat 32 s
      let y := memRead s.lat.cAddr.toNat 32 x.2
      writeOut i (leBytes 32 (f (leNat x.1) (leNat y.1))) y.2) s) s

/-- FE_ADD (R182). -/
def execFeAdd (s : State) : Host.Outcome State Fault Refusal := fieldBinary .feAdd fieldAdd s

/-- FE_SUB (R183). -/
def execFeSub (s : State) : Host.Outcome State Fault Refusal := fieldBinary .feSub fieldSub s

/-- FE_MUL (R184): the plain product, with no Montgomery factor (R189). -/
def execFeMul (s : State) : Host.Outcome State Fault Refusal := fieldBinary .feMul fieldMul s

/-- FE_INV (R185): inverting 0 gives 0 and is no error. -/
def execFeInv (s : State) : Host.Outcome State Fault Refusal :=
  runCommand .feInv (fun s =>
    readsThen .feInv id (fun s =>
      let x := memRead s.lat.bAddr.toNat 32 s
      writeOut .feInv (leBytes 32 (fieldInv (leNat x.1))) x.2) s) s

/-- SC_REDUCE (R186). -/
def execScReduce (s : State) : Host.Outcome State Fault Refusal :=
  runCommand .scReduce (fun s =>
    readsThen .scReduce id (fun s =>
      let v := memRead s.lat.bAddr.toNat 64 s
      writeOut .scReduce (leBytes 32 (leNat v.1 % groupL)) v.2) s) s

/-- SC_MULADD (R187): B = a, C = b, A = c, 32 bytes each; lat[A_LEN] is ignored. -/
def execScMuladd (s : State) : Host.Outcome State Fault Refusal :=
  runCommand .scMuladd (fun s =>
    readsThen .scMuladd id (fun s =>
      let a := memRead s.lat.bAddr.toNat 32 s
      let b := memRead s.lat.cAddr.toNat 32 a.2
      let c := memRead s.lat.aAddr.toNat 32 b.2
      writeOut .scMuladd (leBytes 32 (scalarMulAdd (leNat a.1) (leNat b.1) (leNat c.1))) c.2) s) s

end Sys2Proof.Machine
end

