-- ==== Sys2Proof/Machine/Sha512.lean ====
section
/-! DEFINITION. Machine/Sha512.lean: the SHA-512 core (41_sha512.md): the function, the incremental
context and the commands SHA512, SHA512_INIT, SHA512_UPDATE and SHA512_FINAL. -/

namespace Sys2Proof.Machine

/-! ### Constants (R133, R134) -/

/-- K[0..19] (R133). -/
def roundConstants0 : List Word64 :=
  [0x428a2f98d728ae22#64, 0x7137449123ef65cd#64, 0xb5c0fbcfec4d3b2f#64, 0xe9b5dba58189dbbc#64,
   0x3956c25bf348b538#64, 0x59f111f1b605d019#64, 0x923f82a4af194f9b#64, 0xab1c5ed5da6d8118#64,
   0xd807aa98a3030242#64, 0x12835b0145706fbe#64, 0x243185be4ee4b28c#64, 0x550c7dc3d5ffb4e2#64,
   0x72be5d74f27b896f#64, 0x80deb1fe3b1696b1#64, 0x9bdc06a725c71235#64, 0xc19bf174cf692694#64,
   0xe49b69c19ef14ad2#64, 0xefbe4786384f25e3#64, 0x0fc19dc68b8cd5b5#64, 0x240ca1cc77ac9c65#64]

/-- K[20..39] (R133). -/
def roundConstants1 : List Word64 :=
  [0x2de92c6f592b0275#64, 0x4a7484aa6ea6e483#64, 0x5cb0a9dcbd41fbd4#64, 0x76f988da831153b5#64,
   0x983e5152ee66dfab#64, 0xa831c66d2db43210#64, 0xb00327c898fb213f#64, 0xbf597fc7beef0ee4#64,
   0xc6e00bf33da88fc2#64, 0xd5a79147930aa725#64, 0x06ca6351e003826f#64, 0x142929670a0e6e70#64,
   0x27b70a8546d22ffc#64, 0x2e1b21385c26c926#64, 0x4d2c6dfc5ac42aed#64, 0x53380d139d95b3df#64,
   0x650a73548baf63de#64, 0x766a0abb3c77b2a8#64, 0x81c2c92e47edaee6#64, 0x92722c851482353b#64]

/-- K[40..59] (R133). -/
def roundConstants2 : List Word64 :=
  [0xa2bfe8a14cf10364#64, 0xa81a664bbc423001#64, 0xc24b8b70d0f89791#64, 0xc76c51a30654be30#64,
   0xd192e819d6ef5218#64, 0xd69906245565a910#64, 0xf40e35855771202a#64, 0x106aa07032bbd1b8#64,
   0x19a4c116b8d2d0c8#64, 0x1e376c085141ab53#64, 0x2748774cdf8eeb99#64, 0x34b0bcb5e19b48a8#64,
   0x391c0cb3c5c95a63#64, 0x4ed8aa4ae3418acb#64, 0x5b9cca4f7763e373#64, 0x682e6ff3d6b2b8a3#64,
   0x748f82ee5defb2fc#64, 0x78a5636f43172f60#64, 0x84c87814a1f0ab72#64, 0x8cc702081a6439ec#64]

/-- K[60..79] (R133). -/
def roundConstants3 : List Word64 :=
  [0x90befffa23631e28#64, 0xa4506cebde82bde9#64, 0xbef9a3f7b2c67915#64, 0xc67178f2e372532b#64,
   0xca273eceea26619c#64, 0xd186b8c721c0c207#64, 0xeada7dd6cde0eb1e#64, 0xf57d4f7fee6ed178#64,
   0x06f067aa72176fba#64, 0x0a637dc5a2c898a6#64, 0x113f9804bef90dae#64, 0x1b710b35131c471b#64,
   0x28db77f523047d84#64, 0x32caab7b40c72493#64, 0x3c9ebe0a15c9bebc#64, 0x431d67c49c100d4c#64,
   0x4cc5d4becb3e42b6#64, 0x597f299cfc657e2a#64, 0x5fcb6fab3ad6faec#64, 0x6c44198c4a475817#64]

/-- K[0..79] (R133). -/
def roundConstants : List Word64 :=
  roundConstants0 ++ roundConstants1 ++ roundConstants2 ++ roundConstants3

/-- IV[0..7] (R134). -/
def shaIv : ChainWords :=
  ⟨0x6a09e667f3bcc908#64, 0xbb67ae8584caa73b#64,
   0x3c6ef372fe94f82b#64, 0xa54ff53a5f1d36f1#64,
   0x510e527fade682d1#64, 0x9b05688c2b3e6c1f#64,
   0x1f83d9abfb41bd6b#64, 0x5be0cd19137e2179#64⟩

/-! ### Word functions (R132) -/

/-- ROTR64(x, n) (R9). -/
def rotr64 (x : Word64) (n : Nat) : Word64 := x.rotateRight n

/-- Ch (R132). -/
def shaCh (e f g : Word64) : Word64 := (e &&& f) ^^^ (~~~e &&& g)

/-- Maj (R132). -/
def shaMaj (a b c : Word64) : Word64 := (a &&& b) ^^^ (a &&& c) ^^^ (b &&& c)

/-- Σ0 (R132). -/
def shaBigSigma0 (a : Word64) : Word64 := rotr64 a 28 ^^^ rotr64 a 34 ^^^ rotr64 a 39

/-- Σ1 (R132). -/
def shaBigSigma1 (e : Word64) : Word64 := rotr64 e 14 ^^^ rotr64 e 18 ^^^ rotr64 e 41

/-- σ0 (R132). -/
def shaSigma0 (x : Word64) : Word64 := rotr64 x 1 ^^^ rotr64 x 8 ^^^ (x >>> 7)

/-- σ1 (R132). -/
def shaSigma1 (x : Word64) : Word64 := rotr64 x 19 ^^^ rotr64 x 61 ^^^ (x >>> 6)

/-! ### Schedule and compression (R135, R136) -/

/-- n further words of the schedule, the newest first: W[t-2], W[t-7], W[t-15] and W[t-16] stand at
places 1, 6, 14 and 15 (R135). -/
def extendSchedule : Nat → List Word64 → List Word64
  | 0, w => w
  | n + 1, w =>
    extendSchedule n ((shaSigma1 (w.getD 1 0#64) + w.getD 6 0#64 + shaSigma0 (w.getD 14 0#64)
      + w.getD 15 0#64) :: w)

/-- W[0..79] of a 128-byte block (R135). -/
def shaSchedule (x : List Byte) : List Word64 :=
  (extendSchedule 64 ((List.range 16).map (word64BeAt x)).reverse).reverse

/-- One round over the working words a to h (R136), with K[t] and W[t]. -/
def shaRound (v : ChainWords) (kw : Word64 × Word64) : ChainWords :=
  let t1 := v.h7 + shaBigSigma1 v.h4 + shaCh v.h4 v.h5 v.h6 + kw.1 + kw.2
  let t2 := shaBigSigma0 v.h0 + shaMaj v.h0 v.h1 v.h2
  { h0 := t1 + t2, h1 := v.h0, h2 := v.h1, h3 := v.h2, h4 := v.h3 + t1, h5 := v.h4, h6 := v.h5
    h7 := v.h6 }

/-- The sum of two sets of chaining words, word by word (R136). -/
def addChain (x y : ChainWords) : ChainWords :=
  ⟨x.h0 + y.h0, x.h1 + y.h1, x.h2 + y.h2, x.h3 + y.h3, x.h4 + y.h4, x.h5 + y.h5, x.h6 + y.h6,
   x.h7 + y.h7⟩

/-- Compress(H, X) (R136). -/
def shaCompress (h : ChainWords) (x : List Byte) : ChainWords :=
  addChain h ((roundConstants.zip (shaSchedule x)).foldl shaRound h)

/-- Compress over the first n 128-byte blocks of m (R130). -/
def compressBlocks : Nat → ChainWords → List Byte → ChainWords
  | 0, h, _ => h
  | n + 1, h, m => compressBlocks n (shaCompress h (m.take 128)) (m.drop 128)

/-- BE8(H[0]) || .. || BE8(H[7]) (R130). -/
def digestBytes (h : ChainWords) : List Byte :=
  beBytes 8 h.h0.toNat ++ beBytes 8 h.h1.toNat ++ beBytes 8 h.h2.toNat ++ beBytes 8 h.h3.toNat
    ++ beBytes 8 h.h4.toNat ++ beBytes 8 h.h5.toNat ++ beBytes 8 h.h6.toNat ++ beBytes 8 h.h7.toNat

/-- k = (111 - n) mod 128 (R131). -/
def padZeros (n : Nat) : Nat := (239 - n % 128) % 128

/-- 0x80 || 0^k || BE16((8 bytes) mod 2^128), the padding after `tail` bytes of the last block of a
message of `bytes` bytes (R131, R140). -/
def shaPadding (tail bytes : Nat) : List Byte :=
  0x80#8 :: (zeroBytes (padZeros tail) ++ beBytes 16 (8 * bytes))

/-- Pad(m) (R131). -/
def shaPad (m : List Byte) : List Byte := m ++ shaPadding m.length m.length

/-- SHA512(m) (R130). -/
def sha512Hash (m : List Byte) : List Byte :=
  digestBytes (compressBlocks ((shaPad m).length / 128) shaIv (shaPad m))

/-! ### The incremental context (R139 to R145) -/

/-- Absorb(data) (R140). -/
def absorb (data : List Byte) (s : State) : State :=
  let buf := s.ctxBuf ++ data
  let blocks := buf.length / 128
  { s with
    ctxMlen := s.ctxMlen + BitVec.ofNat 128 data.length
    ctxH := compressBlocks blocks s.ctxH buf
    ctxBuf := buf.drop (128 * blocks) }

/-- Finalize() (R140). -/
def finalize (s : State) : List Byte :=
  let m := s.ctxBuf ++ shaPadding s.ctxBuf.length s.ctxMlen.toNat
  digestBytes (compressBlocks (m.length / 128) s.ctxH m)

/-- The context SHA512_INIT starts (R141). -/
def startCtx (s : State) : State :=
  { s with ctxH := shaIv, ctxMlen := 0#128, ctxBuf := [], ctxValid := true }

/-! ### Commands -/

/-- SHA512 (R138). -/
def execSha512 (s : State) : Host.Outcome State Fault Refusal :=
  runCommand .sha512 (fun s =>
    readsThen .sha512 id (fun s =>
      let m := memRead s.lat.aAddr.toNat s.lat.aLen.toNat s
      writeOut .sha512 (sha512Hash m.1) m.2) (invalidateCtx s)) s

/-- SHA512_INIT (R141). -/
def execSha512Init (s : State) : Host.Outcome State Fault Refusal :=
  runCommand .sha512Init (fun s => complete (.ok 0) (startCtx s)) s

/-- SHA512_UPDATE (R142); E_BUS invalidates the context (R139). -/
def execSha512Update (s : State) : Host.Outcome State Fault Refusal :=
  runCommand .sha512Update (fun s =>
    readsThen .sha512Update invalidateCtx (fun s =>
      let m := memRead s.lat.aAddr.toNat s.lat.aLen.toNat s
      complete (.ok 0) (absorb m.1 m.2)) s) s

/-- SHA512_FINAL (R143): the context is invalid before the digest is written. -/
def execSha512Final (s : State) : Host.Outcome State Fault Refusal :=
  runCommand .sha512Final (fun s => writeOut .sha512Final (finalize s) (invalidateCtx s)) s

end Sys2Proof.Machine
end

