-- ==== Sys2Proof/Machine/Mac.lean ====
section
/-! DEFINITION. Machine/Mac.lean: the MAC engine and the constant-time comparator (42_mac.md). -/

namespace Sys2Proof.Machine

/-- IPAD: 0x36 repeated 128 times (R161). -/
def ipad : List Byte := List.replicate 128 0x36#8

/-- OPAD: 0x5C repeated 128 times (R161). -/
def opad : List Byte := List.replicate 128 0x5C#8

/-- MAC(m, key), for a 32-byte key (R160). -/
def macTag (m key : List Byte) : List Byte :=
  let k0 := key ++ zeroBytes 96
  let inner := sha512Hash (xorBytes k0 ipad ++ m)
  let outer := sha512Hash (xorBytes k0 opad ++ inner)
  slice outer 0 32

/-- The accumulator of CT_EQ after every byte of both strings (R162). -/
def ctAccumulate (x y : List Byte) : Byte :=
  (xorBytes x y).foldl (fun acc d => acc ||| d) 0#8

/-- CT_EQ(x, y) (R162). -/
def ctEq (x y : List Byte) : Bool := ctAccumulate x y == 0#8

/-- OK(0) on a match, and a verification failure otherwise (R164, R165). -/
def verdict (matched : Bool) (s : State) : State :=
  if matched then complete (.ok 0) s else verifyFail s

/-- AUTH (R163). -/
def execAuth (s : State) : Host.Outcome State Fault Refusal :=
  runCommand .auth (fun s =>
    readsThen .auth id (fun s =>
      let m := memRead s.lat.aAddr.toNat s.lat.aLen.toNat s
      let key := memRead s.lat.bAddr.toNat 32 m.2
      writeOut .auth (macTag m.1 key.1) key.2) (invalidateCtx s)) s

/-- AUTH_VERIFY (R164). -/
def execAuthVerify (s : State) : Host.Outcome State Fault Refusal :=
  runCommand .authVerify (fun s =>
    readsThen .authVerify id (fun s =>
      let m := memRead s.lat.aAddr.toNat s.lat.aLen.toNat s
      let key := memRead s.lat.bAddr.toNat 32 m.2
      let tag := memRead s.lat.cAddr.toNat 32 key.2
      verdict (ctEq (macTag m.1 key.1) tag.1) tag.2) (invalidateCtx s)) s

/-- CT_COMPARE (R165). -/
def execCtCompare (s : State) : Host.Outcome State Fault Refusal :=
  runCommand .ctCompare (fun s =>
    readsThen .ctCompare id (fun s =>
      let x := memRead s.lat.aAddr.toNat s.lat.aLen.toNat s
      let y := memRead s.lat.cAddr.toNat s.lat.aLen.toNat x.2
      verdict (ctEq x.1 y.1) y.2) s) s

end Sys2Proof.Machine
end

