-- ==== Sys2Proof/Machine/Point.lean ====
section
/-! DEFINITION. Machine/Point.lean: the Ed25519 point encoder-decoder and point engine (44_point.md). -/

namespace Sys2Proof.Machine

/-- An affine point (x, y) of integers in [0, p) (R200). -/
structure CurvePoint where
  x : Nat
  y : Nat
deriving DecidableEq, Repr

/-- d = -121665/121666 mod p (R201). -/
def curveD : Nat := 37095705934669439343138083508754565189542113879843219016388785533085940283555

/-- SQRTM1, a square root of -1 mod p (R209). -/
def sqrtM1 : Nat := 19681161376707505956807079304988542015446066515923890162744021073123829784752

/-- The base point B (R203). -/
def basePoint : CurvePoint :=
  ⟨15112221349535400772501151409588531511454012693041857206046113283949847762202,
   46316835694926478169428394003475163141307993866256225615783033603165251855960⟩

/-- The identity O = (0, 1) (R204). -/
def pointO : CurvePoint := ⟨0, 1⟩

/-- The curve equation -x^2 + y^2 = 1 + d·x^2·y^2 mod p, for coordinates in [0, p) (R200). -/
def onCurve (q : CurvePoint) : Bool :=
  (q.y ^ 2) % fieldP == (1 + q.x ^ 2 + curveD * q.x ^ 2 * q.y ^ 2) % fieldP

/-- The sum of two points (R204). -/
def pointAdd (p1 p2 : CurvePoint) : CurvePoint :=
  let t := fieldMul (curveD * p1.x * p2.x * p1.y) p2.y
  ⟨fieldMul (p1.x * p2.y + p2.x * p1.y) (fieldInv (fieldAdd 1 t)),
   fieldMul (p1.y * p2.y + p1.x * p2.x) (fieldInv (fieldSub 1 t))⟩

/-- -(x, y) = ((p - x) mod p, y) (R205). -/
def pointNeg (q : CurvePoint) : CurvePoint := ⟨(fieldP - q.x) % fieldP, q.y⟩

/-- [k]P by doubling and adding, for k of at most `fuel` bits. -/
def scalarMultAux : Nat → CurvePoint → Nat → CurvePoint
  | 0, _, _ => pointO
  | fuel + 1, q, k =>
    let half := scalarMultAux fuel (pointAdd q q) (k / 2)
    if k % 2 = 1 then pointAdd half q else half

/-- [k]P, for k below 2^256 (R208: any evaluation order; notes/assumptions/8.md). -/
def scalarMult (k : Nat) (q : CurvePoint) : CurvePoint := scalarMultAux 256 q k

/-- ENC(x, y) (R206). -/
def encodePoint (q : CurvePoint) : List Byte := leBytes 32 (q.y + 2 ^ 255 * (q.x % 2))

/-- The candidate square root of u/v of DEC: u · v^3 · (u · v^7)^((p-5)/8) mod p (R207). -/
def rootCandidate (u v : Nat) : Nat :=
  fieldMul (u * v ^ 3) (powMod (u * v ^ 7) ((fieldP - 5) / 8) fieldP)

/-- The square root of u/v that DEC takes, if there is one (R207). -/
def sqrtRatio (u v : Nat) : Option Nat :=
  let x := rootCandidate u v
  if fieldMul v (x ^ 2) = u then some x
  else if fieldMul v (x ^ 2) = fieldSub 0 u then some (fieldMul x sqrtM1)
  else none

/-- DEC(s) for a 32-byte s: a point, or none for FAIL (R207). -/
def decodePoint (s : List Byte) : Option CurvePoint :=
  let n := leNat s
  let y := n % 2 ^ 255
  let sign := n / 2 ^ 255
  if fieldP ≤ y then none
  else
    match sqrtRatio (fieldSub (y ^ 2) 1) (fieldAdd (curveD * y ^ 2) 1) with
    | none => none
    | some x =>
      if x = 0 ∧ sign = 1 then none
      else if x % 2 = sign then some ⟨x, y⟩
      else some ⟨fieldP - x, y⟩

/-- E_POINT for none, and the output of the point otherwise (R302). -/
def writePoint (i : Instr) (v : Option (List Byte)) (s : State) : State :=
  match v with
  | some out => writeOut i out s
  | none => raiseError .point s

/-- LE32(P.x) || LE32(P.y) (R210). -/
def affineBytes (q : CurvePoint) : List Byte := leBytes 32 q.x ++ leBytes 32 q.y

/-- The canonical point of an x || y string, if it is one (R211). -/
def affinePoint (b : List Byte) : Option CurvePoint :=
  let q : CurvePoint := ⟨leNat (slice b 0 32), leNat (slice b 32 64)⟩
  if q.x < fieldP ∧ q.y < fieldP ∧ onCurve q = true then some q else none

/-- ENC(P1 + P2) of two encodings, if both decode (R212). -/
def addEncoded (e1 e2 : List Byte) : Option (List Byte) :=
  match decodePoint e1, decodePoint e2 with
  | some p1, some p2 => some (encodePoint (pointAdd p1 p2))
  | _, _ => none

/-- PT_DECODE (R210). -/
def execPtDecode (s : State) : Host.Outcome State Fault Refusal :=
  runCommand .ptDecode (fun s =>
    readsThen .ptDecode id (fun s =>
      let e := memRead s.lat.bAddr.toNat 32 s
      writePoint .ptDecode ((decodePoint e.1).map affineBytes) e.2) s) s

/-- PT_ENCODE (R211). -/
def execPtEncode (s : State) : Host.Outcome State Fault Refusal :=
  runCommand .ptEncode (fun s =>
    readsThen .ptEncode id (fun s =>
      let b := memRead s.lat.bAddr.toNat 64 s
      writePoint .ptEncode ((affinePoint b.1).map encodePoint) b.2) s) s

/-- PT_ADD (R212). -/
def execPtAdd (s : State) : Host.Outcome State Fault Refusal :=
  runCommand .ptAdd (fun s =>
    readsThen .ptAdd id (fun s =>
      let e1 := memRead s.lat.bAddr.toNat 32 s
      let e2 := memRead s.lat.cAddr.toNat 32 e1.2
      writePoint .ptAdd (addEncoded e1.1 e2.1) e2.2) s) s

/-- PT_SCALARMULT (R213): k over all 256 bits, no clamping and no reduction. -/
def execPtScalarmult (s : State) : Host.Outcome State Fault Refusal :=
  runCommand .ptScalarmult (fun s =>
    readsThen .ptScalarmult id (fun s =>
      let k := memRead s.lat.bAddr.toNat 32 s
      let e := memRead s.lat.cAddr.toNat 32 k.2
      writePoint .ptScalarmult
        ((decodePoint e.1).map fun q => encodePoint (scalarMult (leNat k.1) q)) e.2) s) s

/-- PT_SCALARMULT_BASE (R214). -/
def execPtScalarmultBase (s : State) : Host.Outcome State Fault Refusal :=
  runCommand .ptScalarmultBase (fun s =>
    readsThen .ptScalarmultBase id (fun s =>
      let k := memRead s.lat.bAddr.toNat 32 s
      writeOut .ptScalarmultBase (encodePoint (scalarMult (leNat k.1) basePoint)) k.2) s) s

end Sys2Proof.Machine
end

