-- ==== Sys2Proof/Machine/Signature.lean ====
section
/-! DEFINITION. Machine/Signature.lean: the Ed25519 signature engine (45_signature.md). -/

namespace Sys2Proof.Machine

/-- Clamp(h) for a 32-byte string: bits 0, 1, 2 and 255 cleared, bit 254 set (R230). -/
def clampScalar (h : List Byte) : Nat :=
  leNat ((h.getD 0 0#8 &&& 0xF8#8) :: (slice h 1 31 ++ [(h.getD 31 0#8 &&& 0x7F#8) ||| 0x40#8]))

/-- Hred(x) = LE(SHA512(x)) mod L (R231). -/
def hashToScalar (x : List Byte) : Nat := leNat (sha512Hash x) % groupL

/-- The vk of KeyDerive(seed) (R232). -/
def verifyKeyOf (seed : List Byte) : List Byte :=
  encodePoint (scalarMult (clampScalar (slice (sha512Hash seed) 0 32)) basePoint)

/-- vk || sk of KeyDerive(seed), with sk = seed || vk (R232, R235). -/
def keyPairBytes (seed : List Byte) : List Byte :=
  verifyKeyOf seed ++ (seed ++ verifyKeyOf seed)

/-- Renc || LE32(S) of Sign (R233), with the message as the nonce hash and as the challenge hash
read it: the same bytes unless another agent writes them meanwhile (D48, notes/assumptions/6.md). -/
def signatureBytes (mNonce mChallenge sk : List Byte) : List Byte :=
  let h := sha512Hash (slice sk 0 32)
  let a := clampScalar (slice h 0 32)
  let r := hashToScalar (slice h 32 64 ++ mNonce)
  let rEnc := encodePoint (scalarMult r basePoint)
  let k := hashToScalar (rEnc ++ slice sk 32 64 ++ mChallenge)
  rEnc ++ leBytes 32 (scalarMulAdd k a r)

/-- Sign(m, sk) (R233). -/
def signMessage (m sk : List Byte) : List Byte := signatureBytes m m sk ++ m

/-- The test of Verify(sm, vk) (R234): false is FAIL. -/
def signatureValid (sm vk : List Byte) : Bool :=
  if sm.length < 64 then false
  else
    let rEnc := slice sm 0 32
    let sNat := leNat (slice sm 32 64)
    if groupL ≤ sNat then false
    else
      match decodePoint vk with
      | none => false
      | some a =>
        let k := hashToScalar (rEnc ++ vk ++ sm.drop 64)
        ctEq (encodePoint (pointAdd (scalarMult sNat basePoint) (pointNeg (scalarMult k a)))) rEnc

/-- Verify(sm, vk): the message, or none for FAIL (R234). -/
def verifySigned (sm vk : List Byte) : Option (List Byte) :=
  if signatureValid sm vk then some (sm.drop 64) else none

/-- SIGN_KEYPAIR (R235): the entropy port is read once, after the checks and before any write. -/
def execSignKeypair (s : State) : Host.Outcome State Fault Refusal :=
  runCommand .signKeypair (fun s =>
    let e := entropyRead (invalidateCtx s)
    match e.1 with
    | none => raiseError .entropy e.2
    | some seed => writeOut .signKeypair (keyPairBytes (leBytes 32 seed.toNat)) e.2) s

/-- SIGN_PUBLICKEY (R236). -/
def execSignPublickey (s : State) : Host.Outcome State Fault Refusal :=
  runCommand .signPublickey (fun s =>
    readsThen .signPublickey id (fun s =>
      let seed := memRead s.lat.bAddr.toNat 32 s
      writeOut .signPublickey (keyPairBytes seed.1) seed.2) (invalidateCtx s)) s

/-- SIGN (R237). The message is read for the nonce hash, for the challenge hash and for the copy:
one value unless another agent writes it meanwhile (D48, notes/assumptions/6.md). -/
def execSign (s : State) : Host.Outcome State Fault Refusal :=
  runCommand .sign (fun s =>
    readsThen .sign id (fun s =>
      let m := memRead s.lat.aAddr.toNat s.lat.aLen.toNat s
      let sk := memRead s.lat.bAddr.toNat 64 m.2
      let again := memRead s.lat.aAddr.toNat s.lat.aLen.toNat sk.2
      let copy := memRead s.lat.aAddr.toNat s.lat.aLen.toNat again.2
      writeOut .sign (signatureBytes m.1 again.1 sk.1 ++ copy.1) copy.2) (invalidateCtx s)) s

/-- SIGN_OPEN (R238). The message is read for the check and again for the copy, as in SIGN. -/
def execSignOpen (s : State) : Host.Outcome State Fault Refusal :=
  runCommand .signOpen (fun s =>
    readsThen .signOpen id (fun s =>
      let sm := memRead s.lat.aAddr.toNat s.lat.aLen.toNat s
      let vk := memRead s.lat.cAddr.toNat 32 sm.2
      let copy := memRead (s.lat.aAddr.toNat + 64) (s.lat.aLen.toNat - 64) vk.2
      if signatureValid sm.1 vk.1 then writeOut .signOpen copy.1 copy.2
      else verifyFail copy.2) (invalidateCtx s)) s

end Sys2Proof.Machine
end

