-- ==== Sys2Proof/Machine/Stream.lean ====
section
/-! DEFINITION. Machine/Stream.lean: the XSalsa20 block generator and stream engine (46_stream.md).
A 16-word state is a list of 16 words. -/

namespace Sys2Proof.Machine

/-- ROTL32(x, n) (R9, R260). -/
def rotl32 (x : Word) (n : Nat) : Word := x.rotateLeft n

/-- σ0 to σ3, "expand 32-byte k" (R260). -/
def salsaSigma : List Word := [0x61707865#32, 0x3320646e#32, 0x79622d32#32, 0x6b206574#32]

/-- Word i of a state. -/
def wordAt (y : List Word) (i : Nat) : Word := y.getD i 0#32

/-- y[t] <- y[t] ^ ((y[i] + y[j]) <<< n) (R261). -/
def salsaStep (t i j n : Nat) (y : List Word) : List Word :=
  y.set t (wordAt y t ^^^ rotl32 (wordAt y i + wordAt y j) n)

/-- QR(y, a, b, c, d) (R261). -/
def quarterRound (a b c d : Nat) (y : List Word) : List Word :=
  salsaStep a d c 18 (salsaStep d c b 13 (salsaStep c b a 9 (salsaStep b a d 7 y)))

/-- The column round (R262). -/
def columnRound (y : List Word) : List Word :=
  quarterRound 15 3 7 11 (quarterRound 10 14 2 6 (quarterRound 5 9 13 1 (quarterRound 0 4 8 12 y)))

/-- The row round (R262). -/
def rowRound (y : List Word) : List Word :=
  quarterRound 15 12 13 14 (quarterRound 10 11 8 9 (quarterRound 5 6 7 4 (quarterRound 0 1 2 3 y)))

/-- DR(y) (R262). -/
def doubleRound (y : List Word) : List Word := rowRound (columnRound y)

/-- DR applied n times. -/
def doubleRounds : Nat → List Word → List Word
  | 0, y => y
  | n + 1, y => doubleRounds n (doubleRound y)

/-- Perm(x): ten double rounds (R262). -/
def salsaPerm (x : List Word) : List Word := doubleRounds 10 x

/-- Init(k, i): the 16-word state of a 32-byte key and a 16-byte input (R263). -/
def salsaInit (k i : List Byte) : List Word :=
  [wordAt salsaSigma 0, word32At k 0, word32At k 1, word32At k 2, word32At k 3,
   wordAt salsaSigma 1, word32At i 0, word32At i 1, word32At i 2, word32At i 3,
   wordAt salsaSigma 2, word32At k 4, word32At k 5, word32At k 6, word32At k 7,
   wordAt salsaSigma 3]

/-- The little-endian bytes of a list of words (R260). -/
def wordBytes (ws : List Word) : List Byte := ws.flatMap fun w => leBytes 4 w.toNat

/-- Salsa20(k, i): the 64-byte block, with feed-forward (R263). -/
def salsa20 (k i : List Byte) : List Byte :=
  wordBytes (List.zipWith (· + ·) (salsaPerm (salsaInit k i)) (salsaInit k i))

/-- HSalsa20(k, n16): words 0, 5, 10, 15, 6, 7, 8, 9, with no feed-forward (R264). -/
def hsalsa20 (k i : List Byte) : List Byte :=
  wordBytes ([0, 5, 10, 15, 6, 7, 8, 9].map (wordAt (salsaPerm (salsaInit k i))))

/-- The keystream block at counter j, under the subkey k2 (R265, R266). -/
def xsalsaBlock (k2 nonce : List Byte) (j : Nat) : List Byte :=
  salsa20 k2 (slice nonce 16 24 ++ leBytes 8 j)

/-- XS(len, nonce, key) (R265). -/
def xsalsa20 (len : Nat) (nonce key : List Byte) : List Byte :=
  let k2 := hsalsa20 key (slice nonce 0 16)
  ((List.range ((len + 63) / 64)).flatMap (xsalsaBlock k2 nonce)).take len

/-- HSALSA20 (R267). -/
def execHsalsa20 (s : State) : Host.Outcome State Fault Refusal :=
  runCommand .hsalsa20 (fun s =>
    readsThen .hsalsa20 id (fun s =>
      let k := memRead s.lat.bAddr.toNat 32 s
      let i := memRead s.lat.cAddr.toNat 16 k.2
      writeOut .hsalsa20 (hsalsa20 k.1 i.1) i.2) s) s

/-- SALSA20_BLOCK (R268). -/
def execSalsa20Block (s : State) : Host.Outcome State Fault Refusal :=
  runCommand .salsa20Block (fun s =>
    readsThen .salsa20Block id (fun s =>
      let k := memRead s.lat.bAddr.toNat 32 s
      let i := memRead s.lat.cAddr.toNat 16 k.2
      writeOut .salsa20Block (salsa20 k.1 i.1) i.2) s) s

/-- STREAM (R269): lat[A_LEN] is the length, lat[A_ADDR] is not used. -/
def execStream (s : State) : Host.Outcome State Fault Refusal :=
  runCommand .stream (fun s =>
    readsThen .stream id (fun s =>
      let key := memRead s.lat.bAddr.toNat 32 s
      let nonce := memRead s.lat.cAddr.toNat 24 key.2
      writeOut .stream (xsalsa20 s.lat.aLen.toNat nonce.1 key.1) nonce.2) s) s

/-- STREAM_XOR (R270). -/
def execStreamXor (s : State) : Host.Outcome State Fault Refusal :=
  runCommand .streamXor (fun s =>
    readsThen .streamXor id (fun s =>
      let data := memRead s.lat.aAddr.toNat s.lat.aLen.toNat s
      let key := memRead s.lat.bAddr.toNat 32 data.2
      let nonce := memRead s.lat.cAddr.toNat 24 key.2
      writeOut .streamXor (xorBytes data.1 (xsalsa20 s.lat.aLen.toNat nonce.1 key.1)) nonce.2) s) s

end Sys2Proof.Machine
end

