-- ==== Sys2Proof/Machine/Dispatch.lean ====
section
/-! DEFINITION. Machine/Dispatch.lean: one arm per command: Run() of the command after its decode
check (40_control.md R118). -/

namespace Sys2Proof.Machine

/-- The meaning of each command. -/
def exec (i : Instr) (s : State) : Host.Outcome State Fault Refusal :=
  match i with
  -- Control (40_control.md)
  | .nop => Sys2Proof.Machine.execNop s
  | .zeroize => Sys2Proof.Machine.execZeroize s
  -- SHA-512 core (41_sha512.md)
  | .sha512 => Sys2Proof.Machine.execSha512 s
  | .sha512Init => Sys2Proof.Machine.execSha512Init s
  | .sha512Update => Sys2Proof.Machine.execSha512Update s
  | .sha512Final => Sys2Proof.Machine.execSha512Final s
  -- MAC engine and comparator (42_mac.md)
  | .auth => Sys2Proof.Machine.execAuth s
  | .authVerify => Sys2Proof.Machine.execAuthVerify s
  | .ctCompare => Sys2Proof.Machine.execCtCompare s
  -- Field and scalar engine (43_field_scalar.md)
  | .feAdd => Sys2Proof.Machine.execFeAdd s
  | .feSub => Sys2Proof.Machine.execFeSub s
  | .feMul => Sys2Proof.Machine.execFeMul s
  | .feInv => Sys2Proof.Machine.execFeInv s
  | .scReduce => Sys2Proof.Machine.execScReduce s
  | .scMuladd => Sys2Proof.Machine.execScMuladd s
  -- Point engine (44_point.md)
  | .ptDecode => Sys2Proof.Machine.execPtDecode s
  | .ptEncode => Sys2Proof.Machine.execPtEncode s
  | .ptAdd => Sys2Proof.Machine.execPtAdd s
  | .ptScalarmult => Sys2Proof.Machine.execPtScalarmult s
  | .ptScalarmultBase => Sys2Proof.Machine.execPtScalarmultBase s
  -- Signature engine (45_signature.md)
  | .signKeypair => Sys2Proof.Machine.execSignKeypair s
  | .signPublickey => Sys2Proof.Machine.execSignPublickey s
  | .sign => Sys2Proof.Machine.execSign s
  | .signOpen => Sys2Proof.Machine.execSignOpen s
  -- Stream engine (46_stream.md)
  | .hsalsa20 => Sys2Proof.Machine.execHsalsa20 s
  | .salsa20Block => Sys2Proof.Machine.execSalsa20Block s
  | .stream => Sys2Proof.Machine.execStream s
  | .streamXor => Sys2Proof.Machine.execStreamXor s

end Sys2Proof.Machine
end

