-- ==== Sys2Proof/Machine/HostPort.lean ====
section
/-! DEFINITION. Machine/HostPort.lean: accesses of the outside world: host loads and stores of the
register window (R22, R23, R60, R110), and DMA bytes that other agents store to or load (R78). What
such a load returns is in Machine/Run.lean: it needs the outcome of the command in progress. -/

namespace Sys2Proof.Machine

/-- The bytes of an access. -/
def AccessSize.bytes : AccessSize → Nat
  | .b8 => 1
  | .b16 => 2
  | .b32 => 4
  | .b64 => 8

/-- A write of `v` to CTRL (R26, R110): SOFT_RESET alone, or IRQ_EN and then START. -/
def writeCtrl (v : Word) (s : State) : State :=
  if v.getLsbD 1 then resetStep s
  else
    let t := { s with irqEn := v.getLsbD 2 }
    if v.getLsbD 0 then (if t.busy then noteOverrun t else accept t) else t

/-- A write of `v` to a register (R22, R23): read-only registers ignore it, and the operand registers
and CMD take it whether or not the core is busy. -/
def writeReg (r : RegName) (v : Word) (s : State) : State :=
  match r with
  | .id => s
  | .version => s
  | .ctrl => writeCtrl v s
  | .status => writeStatus v s
  | .cmd => { s with cmd := v }
  | .aAddr => { s with aAddr := v }
  | .aLen => { s with aLen := v }
  | .bAddr => { s with bAddr := v }
  | .cAddr => { s with cAddr := v }
  | .dAddr => { s with dAddr := v }
  | .outLen => s
  | .errAddr => s

/-- A write of `v` to a window offset: reserved offsets ignore it (R37). -/
def writeWindow (off : Nat) (v : Word) (s : State) : State :=
  match regAt off with
  | some r => writeReg r v s
  | none => s

/-- Some byte of the access lies in the register window. -/
def touchesWindow (addr : Nat) (size : AccessSize) : Bool :=
  decide (addr < Config.mmioBase + Config.mmioSize) && decide (Config.mmioBase < addr + size.bytes)

/-- The access is 32 bits wide at an aligned offset of the window (R60). -/
def alignedInWindow (addr : Nat) (size : AccessSize) : Bool :=
  decide (size = .b32) && decide (Config.mmioBase ≤ addr)
    && decide ((addr - Config.mmioBase) % 4 = 0)

/-- A host access that does `act` with its window offset if it is an aligned 32-bit access of the
window (R60). An access that touches no byte of the window is none of the core's. -/
def windowAccess (addr : Nat) (size : AccessSize) (act : Nat → State → State) (s : State) :
    Host.Outcome State Fault Refusal :=
  if touchesWindow addr size then
    if s.inReset then .refused (.windowInReset addr)
    else if alignedInWindow addr size then .next (act (addr - Config.mmioBase) s)
    else .fault (.windowAccess addr size)
  else .next s

/-- A load of a window offset: the value returned is the host's, and the core is unchanged (R23). -/
def loadWindow (off : Nat) (s : State) : State := { s with rdata := readWindow off s }

/-- `rd STATUS` (R97): one aligned 32-bit read of STATUS. -/
def readStatus (s : State) : Host.Outcome State Fault Refusal :=
  windowAccess (Config.mmioBase + regOffset .status) .b32 loadWindow s

/-- Another agent stores a byte in the DMA space: a race on an active byte (R78, I9, I10). -/
def dmaStoreByte (a : Word) (b : Byte) (s : State) : State :=
  { s with
    mem := s.mem.write a.toNat b
    racedIn := if a.toNat ∈ activeInputs s then a.toNat :: s.racedIn else s.racedIn
    racedOut := if a.toNat ∈ activeOutputs s then a.toNat :: s.racedOut else s.racedOut }

/-- Another agent's read of an active output byte meets one free value (R78, I11). -/
def countLoad (a : Word) (s : State) : State :=
  if a.toNat ∈ activeOutputs s then { s with free := s.free + 1 } else s

end Sys2Proof.Machine
end

