-- ==== Sys2Proof/Machine/Run.lean ====
section
/-! DEFINITION. Machine/Run.lean: what one step does: the next event of the outside world, or the
core's own step Run() (40_control.md R118). -/

namespace Sys2Proof.Machine

/-- The core's turn: Run() while BUSY (R113, R118), and nothing while IDLE (R316). -/
def coreStep (s : State) : Host.Outcome State Fault Refusal :=
  if s.busy then
    match decodeWord s.lat.cmd with
    | .command i => exec i s
    | .badOpcode _ => .next (raiseError .opcode s)
    | .badRsvd _ => .next (raiseError .rsvd s)
    | .truncated => .next (raiseError .opcode s)
  else .next s

/-- One turn of the loop `wait` (R99): `rd STATUS`, and on with `again` if bit 0 (BUSY) of the result
is 1. -/
def pollStatus (again : HostEvent) (s : State) : Host.Outcome State Fault Refusal :=
  match readStatus s with
  | .next t => .next (if t.rdata.getLsbD 0 then { t with inputs := again :: t.inputs } else t)
  | .fault r => .fault r
  | .refused r => .refused r

/-- A step of the loop `wait` (R99) in which, while the core is BUSY, so many reads of STATUS come
before the core's turn (notes/assumptions/9.md). The loop ends: the core completes (R119, R354). -/
def waitStep : Nat → State → Host.Outcome State Fault Refusal
  | 0, s => if s.busy then coreStep { s with inputs := .wait 0 :: s.inputs } else pollStatus (.wait 0) s
  | polls + 1, s => pollStatus (.wait polls) s

/-- One event of the outside world; `load` is what another agent's read of a DMA byte does. -/
def eventStep (load : Word → State → State) (e : HostEvent) (s : State) :
    Host.Outcome State Fault Refusal :=
  match e with
  | .store addr size v => windowAccess addr size (fun off => writeWindow off v) s
  | .load addr size => windowAccess addr size loadWindow s
  | .dmaStore a b => .next (dmaStoreByte a b s)
  | .dmaLoad a => .next (load a s)
  | .assertReset => .next { resetStep s with inReset := true }
  | .releaseReset => .next { s with inReset := false }
  | .setBus holes => .next { s with busHoles := holes }
  | .offerEntropy d => .next { s with entropy := s.entropy ++ [d] }
  | .coreTurn => coreStep s
  | .wait polls => waitStep polls s

/-! ### What another agent reads of an active output byte (R65, R78, I11; notes/assumptions/12.md) -/

/-- Whether the step `o` of the BUSY state `s` ends the command in progress, and how: `go` looks
further while BUSY; a completion sets DONE (R117), and gives `s` and the state after it; a reset ends
BUSY without DONE (R342), and a fault or refusal ends the run. -/
def endOr (go : State → Option (State × State)) (s : State) (o : Host.Outcome State Fault Refusal) :
    Option (State × State) :=
  match o with
  | .next t => if t.busy then go t else if t.done then some (s, t) else none
  | .fault _ => none
  | .refused _ => none

/-- `commandEnd` from within a `wait`: its reads of the BUSY core, then the core's turn. -/
def waitEnd : Nat → State → Option (State × State)
  | 0, s => endOr (fun _ => none) s (coreStep s)
  | polls + 1, s => endOr (waitEnd polls) s (readStatus s)

/-- The last BUSY state of the command in progress and the state it completes in, when the outside
world does `es` next; none when it is aborted. -/
def commandEnd : List HostEvent → State → Option (State × State)
  | [], s => endOr (fun _ => none) s (coreStep s)
  | .wait polls :: _, s => waitEnd polls s
  | e :: es, s => endOr (commandEnd es) s (eventStep countLoad e s)

/-- What a read of the active output byte `a` returns (R78, I11): the byte's value before the START or
its final value, a free choice, when the command completes and is not aborted; any value when it is
aborted, by a reset (R342) or by E_BUS (R65, R307). Any value too when another agent writes the byte
while BUSY, before the read or after it: what the final value of such a byte is for this read, the spec
leaves open. DESIGN CHOICE (notes/assumptions/26.md). -/
def activeOutputByte (a : Nat) (s : State) : Byte :=
  match commandEnd s.inputs { s with free := s.free + 1 } with
  | some (last, t) =>
    if t.err = .bus ∨ a ∈ last.racedOut then Config.freeByte s.free
    else if Config.freeChoice s.free then t.mem.read a
    else s.mem.read a
  | none => Config.freeByte s.free

/-- Another agent reads a byte of the DMA space (R78). -/
def dmaLoadByte (a : Word) (s : State) : State :=
  { countLoad a s with
    rdata := (if a.toNat ∈ activeOutputs s then activeOutputByte a.toNat s
      else s.mem.read a.toNat).setWidth 32 }

/-- One event of the outside world. -/
def hostStep (e : HostEvent) (s : State) : Host.Outcome State Fault Refusal :=
  eventStep dmaLoadByte e s

/-- The next event of the outside world, if it has one, and the core's turn otherwise: the core is
never kept from its turn for ever (R119). -/
def nextStep (s : State) : Host.Outcome State Fault Refusal :=
  match s.inputs with
  | [] => coreStep s
  | e :: rest => hostStep e { s with inputs := rest }

/-- The command word `w` in CMD and an accepted START of it, with nothing of the outside world before
the core's turn. -/
def placeCommand (w : Word) (s : State) : State :=
  accept { s with cmd := w, inputs := [], inReset := false }

end Sys2Proof.Machine
end

