-- ==== Sys2Proof/Safety.lean ====
section
/-! DEFINITION. Safety.lean: the terms claims are stated in: regions a command can use, the state each
outcome leaves, and the invariant of the machine. -/

namespace Sys2Proof.Machine

/-! ### When a region can be used -/

/-- The region (a, n) is in range (R62). -/
abbrev RegionInRange (a : Word) (n : Nat) : Prop := n = 0 ∨ a.toNat + n ≤ 4294967296

/-- BUS_RESP answers ok for every byte of the region (a, n) in this direction (R64, R65). -/
abbrev BusAnswersOk (s : State) (dir : AccessDir) (a : Word) (n : Nat) : Prop :=
  ∀ k < n, s.busError dir (a.toNat + k) = false

/-- The input region (a, n) is in range and every byte of it can be read. -/
abbrev CanRead (s : State) (a : Word) (n : Nat) : Prop :=
  RegionInRange a n ∧ BusAnswersOk s .read a n

/-- The output region (a, n) is in range and every byte of it can be written. -/
abbrev CanWrite (s : State) (a : Word) (n : Nat) : Prop :=
  RegionInRange a n ∧ BusAnswersOk s .write a n

/-- No other agent has written an active byte since the START: the duty of R346 is kept. -/
abbrev DutyKept (s : State) : Prop := s.racedIn = [] ∧ s.racedOut = []

/-- The regions (a, n) and (b, m) overlap (R67). -/
abbrev RegionsOverlap (a : Word) (n : Nat) (b : Word) (m : Nat) : Prop :=
  0 < n ∧ 0 < m ∧ a.toNat < b.toNat + m ∧ b.toNat < a.toNat + n

/-- The command is refused for an overlap (R67): SIGN, SIGN_OPEN and STREAM_XOR whose output region
overlaps A, but for a STREAM_XOR exactly in place. -/
abbrev OverlapRefused (i : Instr) (l : Latches) : Prop :=
  (i = .sign ∧ RegionsOverlap l.dAddr (64 + l.aLen.toNat) l.aAddr l.aLen.toNat)
  ∨ (i = .signOpen ∧ 64 ≤ l.aLen.toNat
      ∧ RegionsOverlap l.dAddr (l.aLen.toNat - 64) l.aAddr l.aLen.toNat)
  ∨ (i = .streamXor ∧ l.dAddr ≠ l.aAddr
      ∧ RegionsOverlap l.dAddr l.aLen.toNat l.aAddr l.aLen.toNat)

/-- The sequence check holds (R114). -/
abbrev SequenceOk (i : Instr) (s : State) : Prop :=
  i = .sha512Update ∨ i = .sha512Final → s.ctxValid = true

/-- The length check holds (R115). -/
abbrev LengthOk (i : Instr) (l : Latches) : Prop := i = .sign → l.aLen.toNat ≤ 4294967296 - 65

/-- Every region of the command is empty or in range (R116). -/
abbrev RangesOk (i : Instr) (l : Latches) : Prop :=
  ∀ r ∈ (regionsOf i l).all, r.len = 0 ∨ r.addr + r.len ≤ 4294967296

/-- Every check after the decode check holds (R114 to R116). -/
abbrev ChecksPass (i : Instr) (s : State) : Prop :=
  SequenceOk i s ∧ LengthOk i s.lat ∧ RangesOk i s.lat ∧ ¬ OverlapRefused i s.lat

/-- The n bytes of the DMA space at a. -/
abbrev inputBytes (s : State) (a : Word) (n : Nat) : List Byte := s.mem.readBytes a.toNat n

/-- What a command finds valid before it writes its output (R302, R303; items 8 and 9 of R304): the
entropy draw, the point operands, the signature; nothing for a command not named. -/
abbrev OperandsValid (i : Instr) (s : State) : Prop :=
  (i = .signKeypair → (s.entropy.head?.getD (Config.freeDraw s.free)).isSome = true)
  ∧ (i = .ptDecode ∨ i = .ptAdd → (decodePoint (inputBytes s s.lat.bAddr 32)).isSome = true)
  ∧ (i = .ptAdd ∨ i = .ptScalarmult → (decodePoint (inputBytes s s.lat.cAddr 32)).isSome = true)
  ∧ (i = .ptEncode → (affinePoint (inputBytes s s.lat.bAddr 64)).isSome = true)
  ∧ (i = .signOpen →
      (verifySigned (inputBytes s s.lat.aAddr s.lat.aLen.toNat)
        (inputBytes s s.lat.cAddr 32)).isSome = true)

/-! ### The state each outcome leaves (R117, R317) -/

/-- Success with an output of k bytes already in the DMA space. -/
def State.succeeded (s : State) (k : Nat) : State :=
  { s with work := [], err := .none, vfail := false, outLen := BitVec.ofNat 32 k, errAddr := 0#32
           busy := false, done := true }

/-- Success with the output v written at lat[D_ADDR]. -/
def State.succeededWith (s : State) (v : List Byte) : State :=
  { s.succeeded v.length with mem := s.mem.writeBytes s.lat.dAddr.toNat v }

/-- An error other than E_BUS. -/
def State.failedWith (s : State) (c : ErrorCode) : State :=
  { s with work := [], err := c, vfail := false, outLen := 0#32, errAddr := 0#32
           busy := false, done := true }

/-- A verification failure. -/
def State.failedVerification (s : State) : State :=
  { s with work := [], err := .none, vfail := true, outLen := 0#32, errAddr := 0#32
           busy := false, done := true }

/-- No SHA-512 context is valid (R139). -/
def State.withoutContext (s : State) : State :=
  { s with ctxValid := false, ctxH := ChainWords.zero, ctxMlen := 0#128, ctxBuf := [] }

/-- The command in progress at `s` completes in `u`, from `last`: a run of BUSY states from `s` to
`last`, whose last step ends BUSY and sets DONE (R117, R119). A reset ends BUSY without DONE (R342). -/
inductive CompletesTo : State → State → State → Prop
  | now {s u : State} : s.busy = true → step s = .next u → u.busy = false → u.done = true →
      CompletesTo s s u
  | later {s t last u : State} : s.busy = true → step s = .next t → t.busy = true →
      CompletesTo t last u → CompletesTo s last u

/-- What a step answers as a next state, changed by f. -/
def mapNext (f : State → State) (o : Host.Outcome State Fault Refusal) :
    Host.Outcome State Fault Refusal :=
  match o with
  | .next t => .next (f t)
  | .fault r => .fault r
  | .refused r => .refused r

/-- The commands that use the hash pipeline and so destroy the context (R139, R348). -/
def usesHashPipeline : Instr → Bool
  | .sha512 => true
  | .auth => true
  | .authVerify => true
  | .signKeypair => true
  | .signPublickey => true
  | .sign => true
  | .signOpen => true
  | .nop => false
  | .zeroize => false
  | .sha512Init => false
  | .sha512Update => false
  | .sha512Final => false
  | .ctCompare => false
  | .feAdd => false
  | .feSub => false
  | .feMul => false
  | .feInv => false
  | .scReduce => false
  | .scMuladd => false
  | .ptDecode => false
  | .ptEncode => false
  | .ptAdd => false
  | .ptScalarmult => false
  | .ptScalarmultBase => false
  | .hsalsa20 => false
  | .salsa20Block => false
  | .stream => false
  | .streamXor => false

/-! ### The invariant -/

/-- What every step keeps. -/
structure State.Inv (s : State) : Prop where
  /-- the DMA space is in its canonical form -/
  memWf : s.mem.wf
  /-- CTX_BUF holds 0 to 127 bytes (R40) -/
  ctxBufShort : s.ctxBuf.length < 128
  /-- CTX_BUF holds what CTX_MLEN leaves over 128-byte blocks (R140) -/
  ctxBufCount : s.ctxBuf.length = s.ctxMlen.toNat % 128
  /-- no valid context: CTX_H, CTX_MLEN and CTX_BUF hold zeros (R40) -/
  ctxCleared : s.ctxValid = false → s.ctxH = ChainWords.zero ∧ s.ctxMlen = 0#128 ∧ s.ctxBuf = []
  /-- between steps working storage is zero (R41) -/
  workZero : s.work = []
  /-- while BUSY, ERR, VFAIL, DONE, OUT_LEN and ERR_ADDR read 0 (R27, R345) -/
  busyClear : s.busy = true →
    s.done = false ∧ s.vfail = false ∧ s.err = .none ∧ s.outLen = 0#32 ∧ s.errAddr = 0#32
  /-- VFAIL = 1 and ERR other than 0 never hold together (R303) -/
  oneFailure : s.vfail = true → s.err = .none
  /-- OUT_LEN is 0 on an error or a verification failure (R35) -/
  failureNoOutput : s.vfail = true ∨ s.err ≠ .none → s.outLen = 0#32
  /-- ERR_ADDR is 0 after any outcome but E_BUS (R36) -/
  errAddrBus : s.err ≠ .bus → s.errAddr = 0#32
  /-- ERR_ADDR is a multiple of DMA_BEAT (R36) -/
  errAddrBeat : s.errAddr.toNat % Config.dmaBeat = 0
  /-- races are noted only on active bytes (R78) -/
  racedInActive : ∀ a ∈ s.racedIn, a ∈ activeInputs s
  racedOutActive : ∀ a ∈ s.racedOut, a ∈ activeOutputs s
  /-- while the reset input is asserted, the core stays as reset leaves it (R340) -/
  resetHeld : s.inReset = true → resetCore s = s

end Sys2Proof.Machine
end

