-- ==== Sys2Proof/Machine/HostProgram.lean ====
section
/-! DEFINITION. Machine/HostProgram.lean: host programs (30_encoding.md R97 to R99): their statements,
and the events each statement expands to. -/

namespace Sys2Proof.Machine

/-- The operands a command statement gives (R98): a= (with its length, or alone for SC_MULADD), n=,
b=, c= and d=. -/
structure GivenOperands where
  a   : Option Word
  len : Option Word
  b   : Option Word
  c   : Option Word
  d   : Option Word
deriving DecidableEq, Repr

/-- Which operand registers a command uses (R91, R94, R98). -/
structure OperandUse where
  a   : Bool
  len : Bool
  b   : Bool
  c   : Bool
  d   : Bool
deriving DecidableEq, Repr

/-- A statement of a host program (R97 to R99). -/
inductive HostStmt where
  /-- `wr OFF, VAL` -/
  | wr (off : Nat) (value : Word)
  /-- `rd OFF` -/
  | rd (off : Nat)
  /-- `mem ADDR, HEX`: no bus access, bytes of the start state -/
  | mem (addr : Word) (bytes : List Byte)
  /-- a command statement -/
  | command (i : Instr) (ops : GivenOperands)
  /-- `call MNEMONIC operands` -/
  | call (i : Instr) (ops : GivenOperands)
  /-- `go` -/
  | go
  /-- `wait` -/
  | wait
  /-- `ack` -/
  | ack
  /-- `clrovr` -/
  | clrovr
  /-- `sreset` -/
  | sreset
  /-- `.irq on` and `.irq off` -/
  | irq (on : Bool)
deriving DecidableEq, Repr

/-- The operand registers each command uses: the columns of R94 that are not "-", and A_LEN where its
length is n (SC_MULADD ignores A_LEN, STREAM uses it alone). -/
def operandUse : Instr → OperandUse
  | .nop => ⟨false, false, false, false, false⟩
  | .zeroize => ⟨false, false, false, false, false⟩
  | .sha512 => ⟨true, true, false, false, true⟩
  | .sha512Init => ⟨false, false, false, false, false⟩
  | .sha512Update => ⟨true, true, false, false, false⟩
  | .sha512Final => ⟨false, false, false, false, true⟩
  | .auth => ⟨true, true, true, false, true⟩
  | .authVerify => ⟨true, true, true, true, false⟩
  | .ctCompare => ⟨true, true, false, true, false⟩
  | .feAdd => ⟨false, false, true, true, true⟩
  | .feSub => ⟨false, false, true, true, true⟩
  | .feMul => ⟨false, false, true, true, true⟩
  | .feInv => ⟨false, false, true, false, true⟩
  | .scReduce => ⟨false, false, true, false, true⟩
  | .scMuladd => ⟨true, false, true, true, true⟩
  | .ptDecode => ⟨false, false, true, false, true⟩
  | .ptEncode => ⟨false, false, true, false, true⟩
  | .ptAdd => ⟨false, false, true, true, true⟩
  | .ptScalarmult => ⟨false, false, true, true, true⟩
  | .ptScalarmultBase => ⟨false, false, true, false, true⟩
  | .signKeypair => ⟨false, false, false, false, true⟩
  | .signPublickey => ⟨false, false, true, false, true⟩
  | .sign => ⟨true, true, true, false, true⟩
  | .signOpen => ⟨true, true, false, true, true⟩
  | .hsalsa20 => ⟨false, false, true, true, true⟩
  | .salsa20Block => ⟨false, false, true, true, true⟩
  | .stream => ⟨false, true, true, true, true⟩
  | .streamXor => ⟨true, true, true, true, true⟩

/-- One aligned 32-bit write of a value to MMIO_BASE + off (R97). -/
def wrEvent (off : Nat) (v : Word) : HostEvent := .store (Config.mmioBase + off) .b32 v

/-- One aligned 32-bit read of MMIO_BASE + off (R97). -/
def rdEvent (off : Nat) : HostEvent := .load (Config.mmioBase + off) .b32

/-- The write of one operand register, where the operand is given (R98). -/
def operandEvent (r : RegName) (v : Option Word) : List HostEvent :=
  match v with
  | some w => [wrEvent (regOffset r) w]
  | none => []

/-- 0x1 | (ien << 2), the CTRL value that starts a command (R98). -/
def startWord (ien : Bool) : Word := 0x1#32 ||| (if ien then 0x4#32 else 0#32)

/-- `go` (R99). -/
def goEvents (ien : Bool) : List HostEvent := [wrEvent (regOffset .ctrl) (startWord ien)]

/-- `wait` (R99): the loop of reads of STATUS until BUSY reads 0, a step each (waitStep). How many of
them see a BUSY core is open (R119, R345): the schedule of `loadProgram` says so. -/
def waitEvents : List HostEvent := [.wait 0]

/-- A command statement: the operands in the order A_ADDR, A_LEN, B_ADDR, C_ADDR, D_ADDR, then CMD,
then CTRL (R98). -/
def commandEvents (ien : Bool) (i : Instr) (ops : GivenOperands) : List HostEvent :=
  operandEvent .aAddr ops.a ++ operandEvent .aLen ops.len ++ operandEvent .bAddr ops.b
    ++ operandEvent .cAddr ops.c ++ operandEvent .dAddr ops.d
    ++ wrEvent (regOffset .cmd) (encode i) :: goEvents ien

/-- What one statement expands to, under the interrupt-enable setting `ien` (R97 to R99). -/
def stmtEvents (ien : Bool) : HostStmt → List HostEvent
  | .wr off v => [wrEvent off v]
  | .rd off => [rdEvent off]
  | .mem _ _ => []
  | .command i ops => commandEvents ien i ops
  | .call i ops => commandEvents ien i ops ++ waitEvents
  | .go => goEvents ien
  | .wait => waitEvents
  | .ack => [wrEvent (regOffset .status) 0x2#32]
  | .clrovr => [wrEvent (regOffset .status) 0x8#32]
  | .sreset => [wrEvent (regOffset .ctrl) 0x2#32]
  | .irq _ => []

/-- The interrupt-enable setting after a statement (R98). -/
def stmtIen (ien : Bool) : HostStmt → Bool
  | .irq on => on
  | .wr _ _ => ien
  | .rd _ => ien
  | .mem _ _ => ien
  | .command _ _ => ien
  | .call _ _ => ien
  | .go => ien
  | .wait => ien
  | .ack => ien
  | .clrovr => ien
  | .sreset => ien

/-- What a program expands to; the interrupt-enable setting starts off (R98). When a command completes
among the accesses is open (R119, R345, R353; I13, I15): but for `wait`, which reads until it has, the
expansion leaves that to the schedule of `loadProgram`. DESIGN CHOICE (notes/assumptions/25.md). -/
def programEvents : Bool → List HostStmt → List HostEvent
  | _, [] => []
  | ien, st :: p => stmtEvents ien st ++ programEvents (stmtIen ien st) p

/-- The DMA space of the start state: the bytes of the program's `mem` statements (R97). -/
def programMemory : List HostStmt → Memory → Memory
  | [], m => m
  | .mem a bytes :: p, m => programMemory p (m.writeBytes a.toNat bytes)
  | .wr _ _ :: p, m => programMemory p m
  | .rd _ :: p, m => programMemory p m
  | .command _ _ :: p, m => programMemory p m
  | .call _ _ :: p, m => programMemory p m
  | .go :: p, m => programMemory p m
  | .wait :: p, m => programMemory p m
  | .ack :: p, m => programMemory p m
  | .clrovr :: p, m => programMemory p m
  | .sreset :: p, m => programMemory p m
  | .irq _ :: p, m => programMemory p m

/-- What a schedule says of one event of a program: whether the core takes its turn just before it,
and, where the event is a `wait`, how many of its reads see the core BUSY before the core's turn. -/
structure Timing where
  turnBefore : Bool
  polls      : Nat
deriving DecidableEq, Repr

/-- An event with this many reads of a BUSY core, where it is a `wait`. -/
def withPolls (polls : Nat) : HostEvent → HostEvent
  | .wait _ => .wait polls
  | e => e

/-- Events timed by a schedule, one entry an event; past the end of the schedule none is changed. -/
def withTimings : List Timing → List HostEvent → List HostEvent
  | [], es => es
  | _ :: _, [] => []
  | t :: ts, e :: es =>
    (if t.turnBefore then [.coreTurn] else []) ++ withPolls t.polls e :: withTimings ts es

/-- The start state of a program: its `mem` bytes in the DMA space and its accesses as what the
outside world does next. `timings` says at which of them the core takes its turn; after the last one it
takes it in any case, so a program whose last command is still BUSY there is seen in both states of
R353. DESIGN CHOICE (notes/assumptions/25.md): a claim over every `timings` covers every timing. -/
def loadProgram (timings : List Timing) (p : List HostStmt) (s : State) : State :=
  { s with
    mem := programMemory p s.mem
    inputs := s.inputs ++ withTimings timings (programEvents false p) }

end Sys2Proof.Machine
end

