-- ==== Sys2Proof/WellFormed.lean ====
section
/-! DEFINITION. WellFormed.lean: what a well-formed command word (30_encoding.md R90, R95) and a
well-formed host statement (R97, R98) are. A command itself has no operands (R91), so every term of
Instr is well formed. -/

namespace Sys2Proof

/-- A command names no operands, so nothing can be wrong with it (R90, R91). -/
def Instr.wf (_ : Instr) : Bool := true

/-- The OPCODE field is assigned (R92, R95). -/
def opcodeAssigned (w : Word) : Bool := (lookupOpcode (opcodeField w) opcodeRows).isSome

/-- The RSVD field is 0 (R90). -/
def rsvdZero (w : Word) : Bool := rsvdField w == 0#24

/-- A well-formed command word (R90, R95). -/
def commandWordWf (w : Word) : Bool := opcodeAssigned w && rsvdZero w

namespace Machine

/-- Each operand the command uses is given, and no other (R98). -/
def GivenOperands.wf (i : Instr) (ops : GivenOperands) : Bool :=
  ops.a.isSome == (operandUse i).a && ops.len.isSome == (operandUse i).len
    && ops.b.isSome == (operandUse i).b && ops.c.isSome == (operandUse i).c
    && ops.d.isSome == (operandUse i).d

/-- A 32-bit access at this offset is aligned and inside the window (R60, R97). -/
def offsetWf (off : Nat) : Bool := decide (off % 4 = 0) && decide (off < Config.mmioSize)

/-- A well-formed host statement (R97, R98); `mem` stays inside the DMA space (R62). -/
def HostStmt.wf : HostStmt → Bool
  | .wr off _ => offsetWf off
  | .rd off => offsetWf off
  | .mem a bytes => decide (a.toNat + bytes.length ≤ Config.dmaSpace)
  | .command i ops => ops.wf i
  | .call i ops => ops.wf i
  | .go => true
  | .wait => true
  | .ack => true
  | .clrovr => true
  | .sreset => true
  | .irq _ => true

end Machine

end Sys2Proof
end

