-- ==== Sys2Proof/Certificates/Slice0/Obligations.lean ====
section
/-! DEFINITION. Certificates/Slice0/Obligations.lean: the statements for the provers, from the numbered
rules of spec/. In each, `s.lat` holds the latched operands, `inputBytes s a n` the n bytes of the DMA
space at a, and `s.succeeded k`, `s.succeededWith v`, `s.failedWith c` and `s.failedVerification` the
whole state an outcome leaves (Safety.lean): every register, flag, latch and byte they do not name is
that of `s`. -/

open Sys2Proof Sys2Proof.Machine

/-! ### Encoding -/

/-- Words written out from the encodings of R90 and R92, one of every family, and two illegal ones. -/
def Obligations.WrittenOutWordsDecode : Prop :=
  decodeWord 0x00000000#32 = .command .nop ∧ decodeWord 0x00000012#32 = .command .sha512Update
  ∧ decodeWord 0x00000021#32 = .command .authVerify ∧ decodeWord 0x00000039#32 = .command .scMuladd
  ∧ decodeWord 0x00000044#32 = .command .ptScalarmultBase
  ∧ decodeWord 0x00000053#32 = .command .signOpen ∧ decodeWord 0x00000063#32 = .command .streamXor
  ∧ decodeWord 0x00000110#32 = .badRsvd 1#24 ∧ decodeWord 0x00000164#32 = .badOpcode 0x64#8

/-- R92, R93: a word selects a command exactly when it is that command's encoding, and the bytes of
the encoding decode to the command and leave the bytes after them. -/
def Obligations.DecodeInvertsEncode : Prop :=
  (∀ (w : Word) (i : Instr), decodeWord w = .command i ↔ w = encode i)
  ∧ ∀ (i : Instr) (rest : List Byte), decodeBytes (encodeBytes i ++ rest) = (.command i, rest)

/-- R93, R95: an unassigned opcode is rejected as such, whatever RSVD holds; an assigned one with a
non-zero RSVD is rejected for it; every other word selects the command of its opcode. -/
def Obligations.IllegalWordsRejected : Prop :=
  ∀ w : Word,
    let op := (w.extractLsb' 0 8).toNat
    let unassigned :=
      (0x02 ≤ op ∧ op ≤ 0x0F) ∨ (0x14 ≤ op ∧ op ≤ 0x1F) ∨ (0x23 ≤ op ∧ op ≤ 0x2F)
      ∨ (0x34 ≤ op ∧ op ≤ 0x37) ∨ (0x3A ≤ op ∧ op ≤ 0x3F) ∨ (0x45 ≤ op ∧ op ≤ 0x4F)
      ∨ (0x54 ≤ op ∧ op ≤ 0x5F) ∨ (0x64 ≤ op ∧ op ≤ 0xFF)
    (unassigned → decodeWord w = .badOpcode (w.extractLsb' 0 8))
    ∧ (¬ unassigned → w.extractLsb' 8 24 ≠ 0#24 → decodeWord w = .badRsvd (w.extractLsb' 8 24))
    ∧ (¬ unassigned → w.extractLsb' 8 24 = 0#24 →
        ∃ i, decodeWord w = .command i ∧ opcodeOf i = w.extractLsb' 0 8)

/-! ### The life cycle of a command -/

/-- R113, R118: at the core's turn, a busy core whose latched command word decodes to a command runs
exactly that command. When the core's turn comes is the model's own schedule: with nothing of the
outside world left, or at the event `.coreTurn` (DEDUCED, notes/assumptions/11.md), or in the loop
`wait` (R99) at `.wait 0`, with no read of a BUSY core left (DEDUCED, notes/assumptions/9.md; the
schedule of a loaded program, DESIGN CHOICE, notes/assumptions/25.md). -/
def Obligations.StepRunsDecodedCommand : Prop :=
  ∀ (s : State) (i : Instr), s.busy = true → decodeBytes (lanesOfWord s.lat.cmd) = (.command i, []) →
    (s.inputs = [] → step s = exec i s)
    ∧ (∀ rest, s.inputs = .coreTurn :: rest → step s = exec i { s with inputs := rest })
    ∧ ∀ rest, s.inputs = .wait 0 :: rest → step s = exec i s

/-- R113, R301: a latched word that decodes to no command ends with E_OPCODE or E_RSVD, and nothing
else of the state changes. -/
def Obligations.UndecodedWordEndsWithError : Prop :=
  ∀ s : State, s.busy = true → s.inputs = [] → DutyKept s →
    (∀ op, decodeWord s.lat.cmd = .badOpcode op → step s = .next (s.failedWith .opcode))
    ∧ ∀ bits, decodeWord s.lat.cmd = .badRsvd bits → step s = .next (s.failedWith .rsvd)

/-- R110: the four effects of a write of v to CTRL. -/
def Obligations.CtrlWriteEffects : Prop :=
  ∀ (s : State) (v : Word),
    (v.getLsbD 1 = true → writeReg .ctrl v s = resetStep s)
    ∧ (v.getLsbD 1 = false → v.getLsbD 0 = false →
        writeReg .ctrl v s = { s with irqEn := v.getLsbD 2 })
    ∧ (v.getLsbD 1 = false → v.getLsbD 0 = true → s.busy = true →
        writeReg .ctrl v s = noteOverrun { s with irqEn := v.getLsbD 2 })
    ∧ (v.getLsbD 1 = false → v.getLsbD 0 = true → s.busy = false →
        writeReg .ctrl v s = accept { s with irqEn := v.getLsbD 2 })

/-- R112: a START the idle core accepts takes the latches, clears the last outcome and makes the core
BUSY, in the step of that write. -/
def Obligations.AcceptedStartLatches : Prop :=
  ∀ (s : State) (v : Word) (rest : List HostEvent),
    s.inputs = wrEvent 0x008 v :: rest → s.inReset = false → s.busy = false →
    v.getLsbD 0 = true → v.getLsbD 1 = false →
    step s = .next
      { s with
        inputs := rest, irqEn := v.getLsbD 2, busy := true
        lat := { cmd := s.cmd, aAddr := s.aAddr, aLen := s.aLen, bAddr := s.bAddr
                 cAddr := s.cAddr, dAddr := s.dAddr }
        done := false, vfail := false, err := .none, outLen := 0#32, errAddr := 0#32
        racedIn := [], racedOut := [] }

/-- R111: a START while BUSY only sets OVERRUN (and that write's IRQ_EN, R26), and OVERRUN stays 1
until a write of 1 to STATUS bit 3, a soft reset or a hard reset. -/
def Obligations.StartWhileBusyOverruns : Prop :=
  (∀ (s : State) (v : Word) (rest : List HostEvent),
    s.inputs = wrEvent 0x008 v :: rest → s.inReset = false → s.busy = true →
    v.getLsbD 0 = true → v.getLsbD 1 = false →
    step s = .next { s with inputs := rest, irqEn := v.getLsbD 2, overrun := true })
  ∧ ∀ s t : State, step s = .next t → s.overrun = true → t.overrun = false →
      ∃ rest, s.inputs = .assertReset :: rest
        ∨ (∃ v, s.inputs = wrEvent 0x00C v :: rest ∧ v.getLsbD 3 = true)
        ∨ (∃ v, s.inputs = wrEvent 0x008 v :: rest ∧ v.getLsbD 1 = true)

/-- R119: at its turn a busy core completes: BUSY falls and DONE rises in that one step. R99, R345,
R354: so the loop `wait` ends. Of a busy core it reads BUSY = 1 as often as its schedule says
changing nothing but the value read; the core completes; and the last read ends it. Of an idle core its
first read ends it. That the core's turn comes then is the model's own schedule (DEDUCED,
notes/assumptions/9.md, 11.md; of a loaded program, DESIGN CHOICE, notes/assumptions/25.md). -/
def Obligations.BusyCoreCompletes : Prop :=
  (∀ s : State, s.busy = true → s.inputs = [] →
    ∃ t, step s = .next t ∧ t.busy = false ∧ t.done = true ∧ t.inputs = [] ∧ t.lat = s.lat)
  ∧ ∀ (s : State) (polls : Nat) (rest : List HostEvent),
      s.inReset = false → s.inputs = .wait polls :: rest →
      (s.busy = false → step s = .next { s with inputs := rest, rdata := statusWord s })
      ∧ (s.busy = true →
          (∀ k, 0 < k → k ≤ polls →
            Sys2Proof.core.run k s
              = .next { s with inputs := .wait (polls - k) :: rest, rdata := statusWord s })
          ∧ ∃ t : State, Sys2Proof.core.run (polls + 1) s = .next t
            ∧ t.busy = false ∧ t.done = true ∧ t.inputs = .wait 0 :: rest ∧ t.lat = s.lat
            ∧ Sys2Proof.core.run (polls + 2) s
                = .next { t with inputs := rest, rdata := statusWord t })

/-- R38, R305, R308: a completion raises IRQ exactly when IRQ_EN is set, and writing 1 to STATUS bit 1
lowers it and keeps the outcome. -/
def Obligations.CompletionRaisesInterrupt : Prop :=
  ∀ s : State, s.busy = true → s.inputs = [] →
    ∃ t, step s = .next t ∧ t.irq = s.irqEn
      ∧ ∀ v : Word, v.getLsbD 1 = true →
          (writeReg .status v t).irq = false ∧ (writeReg .status v t).err = t.err
          ∧ (writeReg .status v t).vfail = t.vfail ∧ (writeReg .status v t).outLen = t.outLen
          ∧ (writeReg .status v t).errAddr = t.errAddr

/-! ### The checks -/

/-- R114: the sequence check of SHA512_UPDATE and SHA512_FINAL, and of no other command. -/
def Obligations.SequenceErrorWithoutContext : Prop :=
  (∀ s : State, DutyKept s → s.ctxValid = false →
    exec .sha512Update s = .next (s.failedWith .seq) ∧ exec .sha512Final s = .next (s.failedWith .seq))
  ∧ ∀ (i : Instr) (s t : State), exec i s = .next t → SequenceOk i s → t.err ≠ .seq

/-- R115: the length check of SIGN, and of no other command; a SIGN_OPEN of fewer than 64 bytes is a
verification failure. -/
def Obligations.LengthErrorOfSign : Prop :=
  (∀ s : State, DutyKept s → 4294967296 - 65 < s.lat.aLen.toNat →
    exec .sign s = .next (s.failedWith .length))
  ∧ (∀ (i : Instr) (s t : State), exec i s = .next t → LengthOk i s.lat → t.err ≠ .length)
  ∧ ∀ s : State, DutyKept s → s.lat.aLen.toNat < 64 → CanRead s s.lat.aAddr s.lat.aLen.toNat →
      CanRead s s.lat.cAddr 32 → exec .signOpen s = .next s.withoutContext.failedVerification

/-- R62, R116: after the sequence and length checks, a region of any command that is neither empty nor
in range ends it with E_RANGE, and E_RANGE has no other cause. -/
def Obligations.RangeErrors : Prop :=
  (∀ (i : Instr) (s : State), DutyKept s → SequenceOk i s → LengthOk i s.lat →
    (∃ r ∈ (regionsOf i s.lat).all, 0 < r.len ∧ 4294967296 < r.addr + r.len) →
    exec i s = .next (s.failedWith .range))
  ∧ ∀ (i : Instr) (s t : State), exec i s = .next t → RangesOk i s.lat → t.err ≠ .range

/-- R67: after the range check, SIGN, SIGN_OPEN and STREAM_XOR are refused when the output region
overlaps A, but for a STREAM_XOR exactly in place; no other overlap is refused. -/
def Obligations.OverlapErrors : Prop :=
  (∀ (i : Instr) (s : State), DutyKept s → LengthOk i s.lat → RangesOk i s.lat →
    OverlapRefused i s.lat → exec i s = .next (s.failedWith .overlap))
  ∧ ∀ (i : Instr) (s t : State), exec i s = .next t → ¬ OverlapRefused i s.lat → t.err ≠ .overlap

/-- R301: a command that ends with a check-phase error has changed nothing but the fields completion
writes: no DMA byte, no entropy, no SHA context. -/
def Obligations.CheckErrorsChangeNothing : Prop :=
  ∀ (i : Instr) (s t : State), DutyKept s → exec i s = .next t →
    t.err = .seq ∨ t.err = .length ∨ t.err = .range ∨ t.err = .overlap → t = s.failedWith t.err

/-! ### Bus errors -/

/-- R307, for a read: when BUS_RESP answers error for an input byte, the command ends with E_BUS;
ERR_ADDR is a failing byte of its regions rounded down to DMA_BEAT; no byte outside its output region
changes; the context is as the command's rule leaves it. -/
def Obligations.BusErrorOnRead : Prop :=
  ∀ (i : Instr) (s : State), DutyKept s → ChecksPass i s →
    (∃ a ∈ inputAddresses i s.lat, s.busError .read a = true) →
    ∃ t, exec i s = .next t ∧ t.err = .bus ∧ t.vfail = false ∧ t.outLen = 0#32
      ∧ t.busy = false ∧ t.done = true
      ∧ (∃ f, ((f ∈ inputAddresses i s.lat ∧ s.busError .read f = true)
            ∨ (f ∈ outputAddresses i s.lat ∧ s.busError .write f = true))
          ∧ t.errAddr = BitVec.ofNat 32 f &&& ~~~(BitVec.ofNat 32 (Config.dmaBeat - 1)))
      ∧ (∀ b, b ∉ outputAddresses i s.lat → t.mem.read b = s.mem.read b)
      ∧ (if usesHashPipeline i = true ∨ i = .sha512Update then
          t.ctxValid = false ∧ t.ctxH = ChainWords.zero ∧ t.ctxMlen = 0#128 ∧ t.ctxBuf = []
        else
          t.ctxValid = s.ctxValid ∧ t.ctxH = s.ctxH ∧ t.ctxMlen = s.ctxMlen ∧ t.ctxBuf = s.ctxBuf)

/-- R304, R307, for a write: when every input byte can be read and BUS_RESP answers error for an
output byte, the command ends with E_BUS, ERR_ADDR a failing byte rounded down, if its operands and its
entropy draw are valid; otherwise with the outcome that comes first in R304, E_ENTROPY, E_POINT or a
verification failure. In OperandsValid, that SIGN_KEYPAIR's draw is the head of the model's list, and
Config.freeDraw when the list is empty, is the model's choice (notes/assumptions/5.md); that
verifySigned's multiples, by doubling and adding, are the k-fold sums of R208 rests on the group law of
R204 (notes/assumptions/8.md). -/
def Obligations.BusErrorOnWrite : Prop :=
  ∀ (i : Instr) (s : State), DutyKept s → ChecksPass i s →
    (∀ a ∈ inputAddresses i s.lat, s.busError .read a = false) →
    (∃ a ∈ outputAddresses i s.lat, s.busError .write a = true) →
    ∃ t, exec i s = .next t
      ∧ (¬ OperandsValid i s →
          (i = .signKeypair ∧ t.err = .entropy)
          ∨ (i ∈ [.ptDecode, .ptEncode, .ptAdd, .ptScalarmult] ∧ t.err = .point)
          ∨ (i = .signOpen ∧ t.vfail = true))
      ∧ (OperandsValid i s →
          t.err = .bus ∧ t.vfail = false ∧ t.outLen = 0#32 ∧ t.busy = false ∧ t.done = true
          ∧ (∃ f, f ∈ outputAddresses i s.lat ∧ s.busError .write f = true
              ∧ t.errAddr = BitVec.ofNat 32 f &&& ~~~(BitVec.ofNat 32 (Config.dmaBeat - 1)))
          ∧ (∀ b, b ∉ outputAddresses i s.lat → t.mem.read b = s.mem.read b)
          ∧ (if usesHashPipeline i = true ∨ i = .sha512Final then
              t.ctxValid = false ∧ t.ctxH = ChainWords.zero ∧ t.ctxMlen = 0#128 ∧ t.ctxBuf = []
            else
              t.ctxValid = s.ctxValid ∧ t.ctxH = s.ctxH ∧ t.ctxMlen = s.ctxMlen
              ∧ t.ctxBuf = s.ctxBuf))

/-! ### Frames -/

/-- R20, R34, R39, R117: no command writes a host register, a latch, IRQ_EN or OVERRUN; only
SIGN_KEYPAIR reads the entropy port. -/
def Obligations.CommandsKeepHostRegisters : Prop :=
  ∀ (i : Instr) (s t : State), exec i s = .next t →
    t.cmd = s.cmd ∧ t.aAddr = s.aAddr ∧ t.aLen = s.aLen ∧ t.bAddr = s.bAddr ∧ t.cAddr = s.cAddr
    ∧ t.dAddr = s.dAddr ∧ t.lat = s.lat ∧ t.irqEn = s.irqEn ∧ t.overrun = s.overrun
    ∧ t.inReset = s.inReset ∧ t.busHoles = s.busHoles ∧ t.inputs = s.inputs ∧ t.rdata = s.rdata
    ∧ (i ≠ .signKeypair → t.entropy = s.entropy)

/-- R63: a command changes no byte outside its output region, whatever its outcome, where raced
output bytes lie in that region. -/
def Obligations.OnlyOutputRegionChanges : Prop :=
  ∀ (i : Instr) (s t : State), exec i s = .next t →
    (∀ a ∈ s.racedOut, a ∈ outputAddresses i s.lat) →
    ∀ b, b ∉ outputAddresses i s.lat → t.mem.read b = s.mem.read b

/-- R65, R302, R303: a verification failure, and every error but E_BUS, leaves the whole DMA space as
it was and reports no output. -/
def Obligations.FailuresWriteNothing : Prop :=
  ∀ (i : Instr) (s t : State), DutyKept s → exec i s = .next t →
    t.vfail = true ∨ (t.err ≠ .none ∧ t.err ≠ .bus) →
    t.mem = s.mem ∧ t.outLen = 0#32 ∧ t.errAddr = 0#32 ∧ (t.vfail = true → t.err = .none)

/-- R139: a command whose checks pass clears the context if it uses the hash pipeline, whatever its
outcome, and leaves it alone if it neither does so nor is a context command or ZEROIZE. -/
def Obligations.ContextOfOtherCommands : Prop :=
  ∀ (i : Instr) (s t : State), exec i s = .next t → ChecksPass i s →
    (usesHashPipeline i = true →
      t.ctxValid = false ∧ t.ctxH = ChainWords.zero ∧ t.ctxMlen = 0#128 ∧ t.ctxBuf = [])
    ∧ (usesHashPipeline i = false →
        i ∉ [.zeroize, .sha512Init, .sha512Update, .sha512Final] →
        t.ctxValid = s.ctxValid ∧ t.ctxH = s.ctxH ∧ t.ctxMlen = s.ctxMlen ∧ t.ctxBuf = s.ctxBuf)

/-! ### Results: control and hash commands -/

/-- R121, R122: NOP only completes; ZEROIZE clears the context and completes. -/
def Obligations.ControlCommandsComplete : Prop :=
  ∀ s : State, DutyKept s →
    exec .nop s = .next (s.succeeded 0) ∧ exec .zeroize s = .next (s.withoutContext.succeeded 0)

/-- R138: SHA512 writes the digest of its message and leaves no context. -/
def Obligations.Sha512WritesDigest : Prop :=
  ∀ s : State, DutyKept s → CanRead s s.lat.aAddr s.lat.aLen.toNat → CanWrite s s.lat.dAddr 64 →
    exec .sha512 s = .next
      (s.withoutContext.succeededWith (sha512Hash (inputBytes s s.lat.aAddr s.lat.aLen.toNat)))

/-- R134, R141: SHA512_INIT starts a context, with the initial value of R134 written out. -/
def Obligations.Sha512InitStartsContext : Prop :=
  ∀ s : State, DutyKept s →
    exec .sha512Init s = .next
      { s.succeeded 0 with
        ctxValid := true, ctxMlen := 0#128, ctxBuf := []
        ctxH :=
          { h0 := 0x6a09e667f3bcc908#64, h1 := 0xbb67ae8584caa73b#64, h2 := 0x3c6ef372fe94f82b#64
            h3 := 0xa54ff53a5f1d36f1#64, h4 := 0x510e527fade682d1#64, h5 := 0x9b05688c2b3e6c1f#64
            h6 := 0x1f83d9abfb41bd6b#64, h7 := 0x5be0cd19137e2179#64 } }

/-- R140, R142: SHA512_UPDATE absorbs its bytes; an empty one changes nothing in a context whose
buffer is short. -/
def Obligations.Sha512UpdateAbsorbs : Prop :=
  (∀ s : State, DutyKept s → s.ctxValid = true → CanRead s s.lat.aAddr s.lat.aLen.toNat →
    exec .sha512Update s = .next
      ((absorb (inputBytes s s.lat.aAddr s.lat.aLen.toNat) s).succeeded 0))
  ∧ ∀ s : State, s.ctxBuf.length < 128 → absorb [] s = s

/-- R143: SHA512_FINAL writes the context's digest and leaves no context. -/
def Obligations.Sha512FinalWritesDigest : Prop :=
  ∀ s : State, DutyKept s → s.ctxValid = true → CanWrite s s.lat.dAddr 64 →
    exec .sha512Final s = .next (s.withoutContext.succeededWith (finalize s))

/-- R144: absorbing a message in any pieces and finalizing gives the one-shot digest of the whole. -/
def Obligations.IncrementalHashEqualsOneShot : Prop :=
  ∀ (pieces : List (List Byte)) (s : State), pieces.flatten.length < 2 ^ 125 →
    finalize (pieces.foldl (fun c m => absorb m c) (startCtx s)) = sha512Hash pieces.flatten

/-! ### Results: MAC engine and comparator -/

/-- R163: AUTH writes the tag of its message under its key. -/
def Obligations.AuthWritesTag : Prop :=
  ∀ s : State, DutyKept s → CanRead s s.lat.aAddr s.lat.aLen.toNat → CanRead s s.lat.bAddr 32 →
    CanWrite s s.lat.dAddr 32 →
    exec .auth s = .next
      (s.withoutContext.succeededWith
        (macTag (inputBytes s s.lat.aAddr s.lat.aLen.toNat) (inputBytes s s.lat.bAddr 32)))

/-- R162, R164, R166: AUTH_VERIFY succeeds exactly when the tag in memory is the tag of the message
under the key, and otherwise fails with one uniform state. -/
def Obligations.AuthVerifyComparesTag : Prop :=
  ∀ s : State, DutyKept s → CanRead s s.lat.aAddr s.lat.aLen.toNat → CanRead s s.lat.bAddr 32 →
    CanRead s s.lat.cAddr 32 →
    let tag := macTag (inputBytes s s.lat.aAddr s.lat.aLen.toNat) (inputBytes s s.lat.bAddr 32)
    (inputBytes s s.lat.cAddr 32 = tag →
      exec .authVerify s = .next (s.withoutContext.succeeded 0))
    ∧ (inputBytes s s.lat.cAddr 32 ≠ tag →
      exec .authVerify s = .next s.withoutContext.failedVerification)

/-- R162, R165: CT_COMPARE succeeds exactly when the two strings are equal. -/
def Obligations.CtCompareComparesStrings : Prop :=
  ∀ s : State, DutyKept s → CanRead s s.lat.aAddr s.lat.aLen.toNat →
    CanRead s s.lat.cAddr s.lat.aLen.toNat →
    (inputBytes s s.lat.aAddr s.lat.aLen.toNat = inputBytes s s.lat.cAddr s.lat.aLen.toNat →
      exec .ctCompare s = .next (s.succeeded 0))
    ∧ (inputBytes s s.lat.aAddr s.lat.aLen.toNat ≠ inputBytes s s.lat.cAddr s.lat.aLen.toNat →
      exec .ctCompare s = .next s.failedVerification)

/-! ### Results: field and scalar engine -/

/-- R182, R183, R184: sum, difference and product of any two 256-bit values, mod p. -/
def Obligations.FieldAddSubMulResults : Prop :=
  ∀ s : State, DutyKept s → CanRead s s.lat.bAddr 32 → CanRead s s.lat.cAddr 32 →
    CanWrite s s.lat.dAddr 32 →
    let x := leNat (inputBytes s s.lat.bAddr 32)
    let y := leNat (inputBytes s s.lat.cAddr 32)
    exec .feAdd s = .next (s.succeededWith (leBytes 32 ((x + y) % (2 ^ 255 - 19))))
    ∧ exec .feSub s = .next
        (s.succeededWith (leBytes 32 (((x : Int) - (y : Int)) % (2 ^ 255 - 19)).toNat))
    ∧ exec .feMul s = .next (s.succeededWith (leBytes 32 (x * y % (2 ^ 255 - 19))))

/-- R185: the result is the power p - 2 of the operand, mod p. -/
def Obligations.FieldInverseResult : Prop :=
  ∀ s : State, DutyKept s → CanRead s s.lat.bAddr 32 → CanWrite s s.lat.dAddr 32 →
    exec .feInv s = .next
      (s.succeededWith (leBytes 32 (leNat (inputBytes s s.lat.bAddr 32) ^ (fieldP - 2) % fieldP)))

/-- R186: a 64-byte value mod L, L written out (R181). -/
def Obligations.ScalarReduceResult : Prop :=
  ∀ s : State, DutyKept s → CanRead s s.lat.bAddr 64 → CanWrite s s.lat.dAddr 32 →
    exec .scReduce s = .next
      (s.succeededWith (leBytes 32 (leNat (inputBytes s s.lat.bAddr 64)
        % (2 ^ 252 + 27742317777372353535851937790883648493))))

/-- R187: a = B, b = C, c = the 32 bytes at lat[A_ADDR]; lat[A_LEN] has no part in it. -/
def Obligations.ScalarMulAddResult : Prop :=
  ∀ s : State, DutyKept s → CanRead s s.lat.aAddr 32 → CanRead s s.lat.bAddr 32 →
    CanRead s s.lat.cAddr 32 → CanWrite s s.lat.dAddr 32 →
    exec .scMuladd s = .next
      (s.succeededWith (leBytes 32
        ((leNat (inputBytes s s.lat.bAddr 32) * leNat (inputBytes s s.lat.cAddr 32)
            + leNat (inputBytes s s.lat.aAddr 32))
          % (2 ^ 252 + 27742317777372353535851937790883648493))))

/-! ### Results: point engine -/

/-- R210: the affine coordinates of a decodable encoding. -/
def Obligations.PointDecodeResult : Prop :=
  ∀ (s : State) (q : CurvePoint), DutyKept s → CanRead s s.lat.bAddr 32 → CanWrite s s.lat.dAddr 64 →
    decodePoint (inputBytes s s.lat.bAddr 32) = some q →
    exec .ptDecode s = .next (s.succeededWith (leBytes 32 q.x ++ leBytes 32 q.y))

/-- R206, R211: the encoding of a canonical point of the curve, its equation written out over the
integers. -/
def Obligations.PointEncodeResult : Prop :=
  ∀ s : State, DutyKept s → CanRead s s.lat.bAddr 64 → CanWrite s s.lat.dAddr 32 →
    let x := leNat ((inputBytes s s.lat.bAddr 64).take 32)
    let y := leNat ((inputBytes s s.lat.bAddr 64).drop 32)
    x < fieldP → y < fieldP →
    (-(x : Int) ^ 2 + (y : Int) ^ 2 - 1 - (curveD : Int) * (x : Int) ^ 2 * (y : Int) ^ 2)
      % (fieldP : Int) = 0 →
    exec .ptEncode s = .next (s.succeededWith (leBytes 32 (y + 2 ^ 255 * (x % 2))))

/-- R212: the encoding of the sum of two operands that decode. -/
def Obligations.PointAddResult : Prop :=
  ∀ (s : State) (p1 p2 : CurvePoint), DutyKept s → CanRead s s.lat.bAddr 32 →
    CanRead s s.lat.cAddr 32 → CanWrite s s.lat.dAddr 32 →
    decodePoint (inputBytes s s.lat.bAddr 32) = some p1 →
    decodePoint (inputBytes s s.lat.cAddr 32) = some p2 →
    exec .ptAdd s = .next (s.succeededWith (encodePoint (pointAdd p1 p2)))

/-- R213, R214: the scalar is all 256 bits of its operand. That the model's [k]P, by doubling and
adding, is P added to itself k times rests on the group law of R204 (notes/assumptions/8.md). -/
def Obligations.ScalarMultResults : Prop :=
  ∀ s : State, DutyKept s → CanRead s s.lat.bAddr 32 → CanWrite s s.lat.dAddr 32 →
    (∀ q, CanRead s s.lat.cAddr 32 → decodePoint (inputBytes s s.lat.cAddr 32) = some q →
      exec .ptScalarmult s = .next
        (s.succeededWith (encodePoint (scalarMult (leNat (inputBytes s s.lat.bAddr 32)) q))))
    ∧ exec .ptScalarmultBase s = .next
        (s.succeededWith (encodePoint (scalarMult (leNat (inputBytes s s.lat.bAddr 32)) basePoint)))

/-- R211, R302: an operand that is not a point ends each point command with E_POINT, and nothing else
changes. -/
def Obligations.InvalidPointsEndWithError : Prop :=
  ∀ s : State, DutyKept s →
    (CanRead s s.lat.bAddr 32 → RegionInRange s.lat.dAddr 64 →
      decodePoint (inputBytes s s.lat.bAddr 32) = none →
      exec .ptDecode s = .next (s.failedWith .point))
    ∧ (CanRead s s.lat.bAddr 64 → RegionInRange s.lat.dAddr 32 →
      (let x := leNat ((inputBytes s s.lat.bAddr 64).take 32)
       let y := leNat ((inputBytes s s.lat.bAddr 64).drop 32)
       fieldP ≤ x ∨ fieldP ≤ y
        ∨ (-(x : Int) ^ 2 + (y : Int) ^ 2 - 1 - (curveD : Int) * (x : Int) ^ 2 * (y : Int) ^ 2)
            % (fieldP : Int) ≠ 0) →
      exec .ptEncode s = .next (s.failedWith .point))
    ∧ (CanRead s s.lat.bAddr 32 → CanRead s s.lat.cAddr 32 → RegionInRange s.lat.dAddr 32 →
      (decodePoint (inputBytes s s.lat.bAddr 32) = none
        ∨ decodePoint (inputBytes s s.lat.cAddr 32) = none) →
      exec .ptAdd s = .next (s.failedWith .point))
    ∧ (CanRead s s.lat.bAddr 32 → CanRead s s.lat.cAddr 32 → RegionInRange s.lat.dAddr 32 →
      decodePoint (inputBytes s s.lat.cAddr 32) = none →
      exec .ptScalarmult s = .next (s.failedWith .point))

/-- R207: what DEC accepts is the one encoding of its point, which is a point of the curve with
canonical coordinates; and DEC gives every point of the curve back from its encoding. -/
def Obligations.DecodedPointReencodes : Prop :=
  (∀ (e : List Byte) (q : CurvePoint), e.length = 32 → decodePoint e = some q →
    encodePoint q = e ∧ q.x < 2 ^ 255 - 19 ∧ q.y < 2 ^ 255 - 19 ∧ onCurve q = true)
  ∧ ∀ q : CurvePoint, q.x < 2 ^ 255 - 19 → q.y < 2 ^ 255 - 19 → onCurve q = true →
      decodePoint (encodePoint q) = some q

/-! ### Results: signature engine -/

/-- R230: Clamp clears bits 0, 1, 2 and 255, sets bit 254 and keeps the others; its value is a multiple
of 8 in [2^254, 2^255). -/
def Obligations.ClampedScalarBits : Prop :=
  ∀ h : List Byte, h.length = 32 →
    2 ^ 254 ≤ clampScalar h ∧ clampScalar h < 2 ^ 255 ∧ clampScalar h % 8 = 0
    ∧ ∀ j, 3 ≤ j → j < 254 → (clampScalar h).testBit j = (leNat h).testBit j

/-- R232, R235: SIGN_KEYPAIR takes exactly one draw of the entropy port: vk || seed || vk from 32
bytes, E_ENTROPY from a failure. That the draw is the head of the model's list, and Config.freeDraw when
the list is empty, is the model's choice (notes/assumptions/5.md); vk is the model's verifyKeyOf, whose
multiple of B is by doubling and adding (notes/assumptions/8.md). -/
def Obligations.SignKeypairResult : Prop :=
  ∀ s : State, DutyKept s → RegionInRange s.lat.dAddr 96 →
    let keyPair (seed : List Byte) := verifyKeyOf seed ++ (seed ++ verifyKeyOf seed)
    (∀ seed draws, s.entropy = some seed :: draws → BusAnswersOk s .write s.lat.dAddr 96 →
      exec .signKeypair s = .next
        (({ s with entropy := draws } : State).withoutContext.succeededWith
          (keyPair (leBytes 32 seed.toNat))))
    ∧ (∀ draws, s.entropy = none :: draws →
      exec .signKeypair s = .next
        (({ s with entropy := draws } : State).withoutContext.failedWith .entropy))
    ∧ (s.entropy = [] → BusAnswersOk s .write s.lat.dAddr 96 →
      exec .signKeypair s = .next
        (match Config.freeDraw s.free with
        | some seed =>
          ({ s with free := s.free + 1 } : State).withoutContext.succeededWith
            (keyPair (leBytes 32 seed.toNat))
        | none => ({ s with free := s.free + 1 } : State).withoutContext.failedWith .entropy))

/-- R232, R236: SIGN_PUBLICKEY, with vk = ENC([Clamp(SHA512(seed)[0:32])]B) written out, where the
multiple is the model's scalarMult. That it, by doubling and adding, is the k-fold sum of R208 rests on
the group law of R204 (notes/assumptions/8.md). -/
def Obligations.SignPublickeyResult : Prop :=
  ∀ s : State, DutyKept s → CanRead s s.lat.bAddr 32 → CanWrite s s.lat.dAddr 96 →
    let seed := inputBytes s s.lat.bAddr 32
    let vk := encodePoint (scalarMult (clampScalar ((sha512Hash seed).take 32)) basePoint)
    exec .signPublickey s = .next (s.withoutContext.succeededWith (vk ++ (seed ++ vk)))

/-- R233, R237: SIGN writes the signature of its message and the message. That signMessage's [r]B, by
doubling and adding, is the k-fold sum of R208 rests on the group law of R204
(notes/assumptions/8.md). -/
def Obligations.SignWritesSignedMessage : Prop :=
  ∀ s : State, DutyKept s → s.lat.aLen.toNat ≤ 4294967296 - 65 →
    CanRead s s.lat.aAddr s.lat.aLen.toNat → CanRead s s.lat.bAddr 64 →
    CanWrite s s.lat.dAddr (64 + s.lat.aLen.toNat) → ¬ OverlapRefused .sign s.lat →
    exec .sign s = .next
      (s.withoutContext.succeededWith
        (signMessage (inputBytes s s.lat.aAddr s.lat.aLen.toNat) (inputBytes s s.lat.bAddr 64)))

/-- R234, R238: SIGN_OPEN writes the message of a signed message that verifies, and ends with VFAIL,
the DMA space unchanged, for one that does not. That verifySigned's [S]B and [k]A, by doubling and
adding, are the k-fold sums of R208 rests on the group law of R204 (notes/assumptions/8.md). -/
def Obligations.SignOpenRecoversMessage : Prop :=
  ∀ s : State, DutyKept s → 64 ≤ s.lat.aLen.toNat → CanRead s s.lat.aAddr s.lat.aLen.toNat →
    CanRead s s.lat.cAddr 32 → RegionInRange s.lat.dAddr (s.lat.aLen.toNat - 64) →
    ¬ OverlapRefused .signOpen s.lat →
    let sm := inputBytes s s.lat.aAddr s.lat.aLen.toNat
    let vk := inputBytes s s.lat.cAddr 32
    (∀ m, verifySigned sm vk = some m → BusAnswersOk s .write s.lat.dAddr (s.lat.aLen.toNat - 64) →
      exec .signOpen s = .next (s.withoutContext.succeededWith m))
    ∧ (verifySigned sm vk = none → exec .signOpen s = .next s.withoutContext.failedVerification)

/-! ### Results: stream engine -/

/-- R267, R268: the two core functions of the key at B and the 16 bytes at C. -/
def Obligations.SalsaCoreResults : Prop :=
  ∀ s : State, DutyKept s → CanRead s s.lat.bAddr 32 → CanRead s s.lat.cAddr 16 →
    (CanWrite s s.lat.dAddr 32 →
      exec .hsalsa20 s = .next
        (s.succeededWith (hsalsa20 (inputBytes s s.lat.bAddr 32) (inputBytes s s.lat.cAddr 16))))
    ∧ (CanWrite s s.lat.dAddr 64 →
      exec .salsa20Block s = .next
        (s.succeededWith (salsa20 (inputBytes s s.lat.bAddr 32) (inputBytes s s.lat.cAddr 16))))

/-- R269: STREAM writes n = lat[A_LEN] keystream bytes; lat[A_ADDR] has no part in it. -/
def Obligations.StreamWritesKeystream : Prop :=
  ∀ s : State, DutyKept s → CanRead s s.lat.bAddr 32 → CanRead s s.lat.cAddr 24 →
    CanWrite s s.lat.dAddr s.lat.aLen.toNat →
    exec .stream s = .next
      (s.succeededWith (xsalsa20 s.lat.aLen.toNat (inputBytes s s.lat.cAddr 24)
        (inputBytes s s.lat.bAddr 32)))

/-- R270: STREAM_XOR, exactly in place or with no overlap. -/
def Obligations.StreamXorWritesCiphertext : Prop :=
  ∀ s : State, DutyKept s → CanRead s s.lat.aAddr s.lat.aLen.toNat → CanRead s s.lat.bAddr 32 →
    CanRead s s.lat.cAddr 24 → CanWrite s s.lat.dAddr s.lat.aLen.toNat →
    ¬ OverlapRefused .streamXor s.lat →
    exec .streamXor s = .next
      (s.succeededWith
        (List.zipWith (· ^^^ ·) (inputBytes s s.lat.aAddr s.lat.aLen.toNat)
          (xsalsa20 s.lat.aLen.toNat (inputBytes s s.lat.cAddr 24) (inputBytes s s.lat.bAddr 32))))

/-- R265, R271: the keystream of length n has n bytes and is a prefix of every longer one; xoring it
onto zero bytes gives it, and xoring it twice gives the data back. -/
def Obligations.KeystreamProperties : Prop :=
  ∀ (nonce key : List Byte) (n : Nat),
    (xsalsa20 n nonce key).length = n
    ∧ (∀ m, n ≤ m → (xsalsa20 m nonce key).take n = xsalsa20 n nonce key)
    ∧ xorBytes (List.replicate n 0#8) (xsalsa20 n nonce key) = xsalsa20 n nonce key
    ∧ ∀ data : List Byte, data.length = n →
        xorBytes (xorBytes data (xsalsa20 n nonce key)) (xsalsa20 n nonce key) = data

/-! ### Independence -/

/-- R34, R350: a write of CMD or of an operand register while the command runs neither changes the
command nor is lost. -/
def Obligations.RunningCommandUsesLatches : Prop :=
  ∀ (i : Instr) (s : State) (r : RegName) (v : Word),
    r ∈ [.cmd, .aAddr, .aLen, .bAddr, .cAddr, .dAddr] →
    exec i (writeReg r v s) = mapNext (writeReg r v) (exec i s)

/-- R41: no command depends on the working storage it starts with; every command, every completion of a
busy core and every reset leaves it zero. -/
def Obligations.WorkingStorageLeavesNoTrace : Prop :=
  ∀ (i : Instr) (s : State), (∀ w : List Byte, exec i { s with work := w } = exec i s)
    ∧ (∀ t, exec i s = .next t → t.work = [])
    ∧ (∀ t, s.busy = true → s.inputs = [] → step s = .next t → t.work = [])
    ∧ (resetStep s).work = []

/-- R120: the outcome and the output of every command but SHA512_UPDATE and SHA512_FINAL are functions
of its input bytes, its latches, BUS_RESP and the entropy draw: two states that agree on these, and on
the free-value counter, end it with the same status and the same output bytes. -/
def Obligations.CommandsArePure : Prop :=
  ∀ (i : Instr) (s s' t t' : State), i ≠ .sha512Update → i ≠ .sha512Final →
    DutyKept s → DutyKept s' → s.mem.wf → s'.mem.wf →
    s.lat = s'.lat → s.busHoles = s'.busHoles → s.entropy = s'.entropy → s.free = s'.free →
    (∀ a ∈ inputAddresses i s.lat, s.mem.read a = s'.mem.read a) →
    exec i s = .next t → exec i s' = .next t' →
    t.err = t'.err ∧ t.vfail = t'.vfail ∧ t.outLen = t'.outLen ∧ t.errAddr = t'.errAddr
    ∧ (t.err = .none → t.vfail = false →
        ∀ a ∈ outputAddresses i s.lat, t.mem.read a = t'.mem.read a)

/-! ### The register window, reset and the outside world -/

/-- R46, R344: the machine right after reset; a START straight after reset performs NOP. -/
def Obligations.ResetState : Prop :=
  statusWord State.reset = 0#32 ∧ ctrlWord State.reset = 0#32
  ∧ State.reset.irq = false ∧ State.reset.cmd = 0#32
  ∧ State.reset.aAddr = 0#32 ∧ State.reset.aLen = 0#32 ∧ State.reset.bAddr = 0#32
  ∧ State.reset.cAddr = 0#32 ∧ State.reset.dAddr = 0#32 ∧ State.reset.outLen = 0#32
  ∧ State.reset.errAddr = 0#32
  ∧ State.reset.lat = ⟨0#32, 0#32, 0#32, 0#32, 0#32, 0#32⟩
  ∧ State.reset.ctxH = ⟨0#64, 0#64, 0#64, 0#64, 0#64, 0#64, 0#64, 0#64⟩
  ∧ State.reset.ctxMlen = 0#128 ∧ State.reset.ctxBuf = [] ∧ State.reset.work = []
  ∧ ∀ s : State, step (s.withFetchWord 32 0) = .next ((s.withFetchWord 32 0).succeeded 0)

/-- R340, R341, R342: a soft reset (CTRL bit 1) or the assertion of the reset input puts every piece of
the core's state at its reset value in one step, and changes no DMA byte outside the output region of
a command in progress, none at all while the core is idle. -/
def Obligations.ResetClearsCore : Prop :=
  ∀ (s : State) (rest : List HostEvent),
    (s.inputs = .assertReset :: rest
      ∨ (s.inReset = false ∧ ∃ v, s.inputs = wrEvent 0x008 v :: rest ∧ v.getLsbD 1 = true)) →
    ∃ t, step s = .next t
      ∧ t = { State.reset with
              mem := t.mem, free := t.free, inputs := rest
              inReset := decide (s.inputs = .assertReset :: rest)
              busHoles := s.busHoles, entropy := s.entropy, rdata := s.rdata }
      ∧ (∀ b, b ∉ activeOutputs s → t.mem.read b = s.mem.read b)
      ∧ (s.busy = false → t.mem = s.mem)

/-- R22, R23, R27, R37, R308: what a write of v at each aligned offset of the window does, CTRL apart:
CMD and the operand registers take it, STATUS clears DONE and OVERRUN where v has a 1, and every other
offset ignores it. -/
def Obligations.WindowWrites : Prop :=
  ∀ (s : State) (rest : List HostEvent) (off : Nat) (v : Word),
    s.inputs = wrEvent off v :: rest → s.inReset = false → off % 4 = 0 → off < 256 → off ≠ 0x008 →
    let s' := { s with inputs := rest }
    step s = .next
      (if off = 0x00C then
        { s' with done := if v.getLsbD 1 then false else s.done
                  overrun := if v.getLsbD 3 then false else s.overrun }
      else if off = 0x010 then { s' with cmd := v }
      else if off = 0x014 then { s' with aAddr := v }
      else if off = 0x018 then { s' with aLen := v }
      else if off = 0x01C then { s' with bAddr := v }
      else if off = 0x020 then { s' with cAddr := v }
      else if off = 0x024 then { s' with dAddr := v }
      else s')

/-- R22 to R37: what a read of each aligned offset of the window returns, with the codes of R300 in
STATUS; it changes nothing else. -/
def Obligations.WindowReads : Prop :=
  ∀ (s : State) (rest : List HostEvent) (off : Nat),
    s.inputs = rdEvent off :: rest → s.inReset = false → off % 4 = 0 → off < 256 →
    step s = .next
      { s with
        inputs := rest
        rdata :=
          if off = 0x000 then 0x4E41434C#32
          else if off = 0x004 then 0x00000001#32
          else if off = 0x008 then (if s.irqEn then 0x4#32 else 0#32)
          else if off = 0x00C then
            (if s.busy then 0x01#32 else 0#32) ||| (if s.done then 0x02#32 else 0#32)
            ||| (if s.vfail then 0x04#32 else 0#32) ||| (if s.overrun then 0x08#32 else 0#32)
            ||| (if s.ctxValid then 0x10#32 else 0#32) ||| (match s.err with
              | .none => 0x000#32
              | .opcode => 0x100#32
              | .rsvd => 0x200#32
              | .seq => 0x300#32
              | .length => 0x400#32
              | .range => 0x500#32
              | .overlap => 0x600#32
              | .bus => 0x700#32
              | .point => 0x800#32
              | .entropy => 0x900#32)
          else if off = 0x010 then s.cmd
          else if off = 0x014 then s.aAddr
          else if off = 0x018 then s.aLen
          else if off = 0x01C then s.bAddr
          else if off = 0x020 then s.cAddr
          else if off = 0x024 then s.dAddr
          else if off = 0x028 then s.outLen
          else if off = 0x02C then s.errAddr
          else 0#32 }

/-- R60, R354: a host access that touches the window is answered in that step when it is an aligned
32-bit access, and is a fault of the host program otherwise. -/
def Obligations.OnlyAlignedWordAccesses : Prop :=
  ∀ (s : State) (rest : List HostEvent) (off : Nat) (size : AccessSize) (v : Word),
    s.inReset = false → off < 256 →
    (s.inputs = .store (Config.mmioBase + off) size v :: rest
      ∨ s.inputs = .load (Config.mmioBase + off) size :: rest) →
    ((size = .b32 ∧ off % 4 = 0) → ∃ t, step s = .next t ∧ t.inputs = rest)
    ∧ (¬ (size = .b32 ∧ off % 4 = 0) → step s = .fault (.windowAccess (Config.mmioBase + off) size))

/-- R78, I9, I10, I11, and R65 for what counts as an abort. A raced output byte (one another agent wrote
while BUSY) holds any value at the command's completion, whatever the outcome. A read of a raced input
byte gives the command any value. Another agent's read of an active output byte gives its value before
the START or its final value when the command completes without E_BUS and no agent writes the byte
while BUSY, and any value otherwise. The model's own: that any value is Config.freeByte of a number at
or above the counter (notes/assumptions/3.md), that the read follows the events to come and takes E_BUS
for an abort (notes/assumptions/12.md), and any value of a byte written while BUSY, also after the read
(notes/assumptions/26.md). -/
def Obligations.RacedOutputByteIsFree : Prop :=
  (∀ (i : Instr) (s t : State), s.mem.wf → exec i s = .next t →
    (∀ a ∈ s.racedOut, a < 4294967296) →
    ∀ a ∈ s.racedOut, ∃ n, s.free ≤ n ∧ t.mem.read a = Config.freeByte n)
  ∧ (∀ (s : State) (a n k : Nat), k < n →
      (a + k ∈ s.racedIn → ∃ m, s.free ≤ m ∧ (memRead a n s).1[k]? = some (Config.freeByte m))
      ∧ (a + k ∉ s.racedIn → (memRead a n s).1[k]? = some (s.mem.read (a + k))))
  ∧ ∀ (s : State) (a : Word) (rest : List HostEvent),
      s.inputs = .dmaLoad a :: rest → a.toNat ∈ activeOutputs s →
      ∃ (t : State) (b : Byte), step s = .next t
        ∧ t = { s with inputs := rest, free := s.free + 1, rdata := b.setWidth 32 }
        ∧ (∀ last u, CompletesTo t last u → u.err ≠ .bus → a.toNat ∉ last.racedOut →
            b = s.mem.read a.toNat ∨ b = u.mem.read a.toNat)
        ∧ (∀ last u, CompletesTo t last u → u.err = .bus ∨ a.toNat ∈ last.racedOut →
            b = Config.freeByte s.free)
        ∧ ((∀ last u, ¬ CompletesTo t last u) → b = Config.freeByte s.free)

/-! ### The invariant -/

/-- The invariant of Safety.lean holds right after reset. -/
def Obligations.ResetMeetsInvariant : Prop := State.reset.Inv

/-- R27, R35, R36, R40, R41, R303, R340: every step keeps the invariant of Safety.lean, from every state
that meets it. -/
def Obligations.StepKeepsInvariant : Prop :=
  ∀ s t : State, s.Inv → step s = .next t → t.Inv
end

