-- ==== Sys2Proof/Laws/Bytes.lean ====
section
/-! SUPPORT. Laws/Bytes.lean: byte strings and their integers, powers mod m, and CT_EQ. -/

namespace Sys2Proof.Machine

@[simp] theorem leBytes_length (n v : Nat) : (leBytes n v).length = n := by
  induction n generalizing v with
  | zero => rfl
  | succ n ih => simp [leBytes, ih]

@[simp] theorem beBytes_length (n v : Nat) : (beBytes n v).length = n := by
  simp [beBytes]

@[simp] theorem zeroBytes_length (n : Nat) : (zeroBytes n).length = n := by
  simp [zeroBytes]

/-- A string of n bytes is a number below 256^n. -/
theorem leNat_lt (s : List Byte) : leNat s < 256 ^ s.length := by
  induction s with
  | nil => simp [leNat]
  | cons b s ih =>
    have hb := b.isLt
    simp only [leNat, List.length_cons, Nat.pow_succ]
    omega

theorem leNat_append (s t : List Byte) : leNat (s ++ t) = leNat s + 256 ^ s.length * leNat t := by
  induction s with
  | nil => simp [leNat]
  | cons b s ih =>
    simp only [List.cons_append, leNat, List.length_cons, ih, Nat.pow_succ]
    ring

/-- LE(LEn(v)) = v mod 256^n (R10). -/
theorem leNat_leBytes (n v : Nat) : leNat (leBytes n v) = v % 256 ^ n := by
  induction n generalizing v with
  | zero => simp [leBytes, leNat, Nat.mod_one]
  | succ n ih =>
    have h := Nat.mod_mul (x := v) (a := 256) (b := 256 ^ n)
    rw [leBytes, leNat, ih, BitVec.toNat_ofNat,
      show (256 : Nat) ^ (n + 1) = 256 * 256 ^ n from Nat.pow_succ', h]

/-- LEn(LE(s)) = s for a string of n bytes (R10). -/
theorem leBytes_leNat (s : List Byte) : leBytes s.length (leNat s) = s := by
  induction s with
  | nil => rfl
  | cons b s ih =>
    have hb := b.isLt
    simp only [List.length_cons, leBytes, leNat, List.cons.injEq]
    refine ⟨?_, ?_⟩
    · apply BitVec.eq_of_toNat_eq
      simp only [BitVec.toNat_ofNat]
      omega
    · rw [show (b.toNat + 256 * leNat s) / 256 = leNat s by omega, ih]

/-- powModAux computes the power, for exponents its fuel covers. -/
theorem powModAux_eq (m fuel b e : Nat) (h : e < 2 ^ fuel) : powModAux m fuel b e = b ^ e % m := by
  induction fuel generalizing b e with
  | zero =>
    have : e = 0 := by simpa using h
    subst this
    simp [powModAux]
  | succ fuel ih =>
    have he : e / 2 < 2 ^ fuel := by rw [Nat.pow_succ] at h; omega
    have hsq : (b * b % m) ^ (e / 2) % m = b ^ (2 * (e / 2)) % m := by
      rw [← Nat.pow_mod, Nat.pow_mul, Nat.pow_two]
    simp only [powModAux, ih _ _ he, hsq]
    split
    · rename_i hodd
      rw [Nat.mul_mod_mod, ← Nat.pow_succ', show Nat.succ (2 * (e / 2)) = e by omega]
    · rw [show 2 * (e / 2) = e by omega]

/-- powMod b e m is b^e mod m, for e below 2^256. -/
theorem powMod_eq (b e m : Nat) (h : e < 2 ^ 256) : powMod b e m = b ^ e % m := by
  rw [powMod, powModAux_eq _ _ _ _ h, ← Nat.pow_mod]

/-- The accumulator of CT_EQ ends 0 exactly when it starts 0 and every difference is 0. -/
theorem orFold_zero (ds : List Byte) (acc : Byte) :
    ds.foldl (fun a d => a ||| d) acc = 0#8 ↔ acc = 0#8 ∧ ∀ d ∈ ds, d = 0#8 := by
  induction ds generalizing acc with
  | nil => simp
  | cons d ds ih => simp [ih, BitVec.or_eq_zero_iff, and_assoc]

/-- CT_EQ of two strings of one length is equality (R162). -/
theorem ctEq_iff (x y : List Byte) (h : x.length = y.length) : ctEq x y = true ↔ x = y := by
  rw [ctEq, beq_iff_eq, ctAccumulate, orFold_zero]
  induction x generalizing y with
  | nil => cases y <;> simp_all [xorBytes]
  | cons a x ih =>
    cases y with
    | nil => simp at h
    | cons b y =>
      have := ih y (by simpa using h)
      simp only [true_and] at this
      simp [xorBytes, BitVec.xor_eq_zero_iff] at this ⊢
      simp [this]

end Sys2Proof.Machine
end

