-- ==== Sys2Proof/Laws/State.lean ====
section
/-! SUPPORT. Laws/State.lean: what each named update of the state does to each field, by rfl. -/

namespace Sys2Proof.Machine

/-! ### invalidateCtx -/

@[simp] theorem invalidateCtx_irqEn (s : State) : (invalidateCtx s).irqEn = s.irqEn := rfl
@[simp] theorem invalidateCtx_busy (s : State) : (invalidateCtx s).busy = s.busy := rfl
@[simp] theorem invalidateCtx_done (s : State) : (invalidateCtx s).done = s.done := rfl
@[simp] theorem invalidateCtx_vfail (s : State) : (invalidateCtx s).vfail = s.vfail := rfl
@[simp] theorem invalidateCtx_overrun (s : State) : (invalidateCtx s).overrun = s.overrun := rfl
@[simp] theorem invalidateCtx_ctxValid (s : State) : (invalidateCtx s).ctxValid = false := rfl
@[simp] theorem invalidateCtx_err (s : State) : (invalidateCtx s).err = s.err := rfl
@[simp] theorem invalidateCtx_cmd (s : State) : (invalidateCtx s).cmd = s.cmd := rfl
@[simp] theorem invalidateCtx_aAddr (s : State) : (invalidateCtx s).aAddr = s.aAddr := rfl
@[simp] theorem invalidateCtx_aLen (s : State) : (invalidateCtx s).aLen = s.aLen := rfl
@[simp] theorem invalidateCtx_bAddr (s : State) : (invalidateCtx s).bAddr = s.bAddr := rfl
@[simp] theorem invalidateCtx_cAddr (s : State) : (invalidateCtx s).cAddr = s.cAddr := rfl
@[simp] theorem invalidateCtx_dAddr (s : State) : (invalidateCtx s).dAddr = s.dAddr := rfl
@[simp] theorem invalidateCtx_outLen (s : State) : (invalidateCtx s).outLen = s.outLen := rfl
@[simp] theorem invalidateCtx_errAddr (s : State) : (invalidateCtx s).errAddr = s.errAddr := rfl
@[simp] theorem invalidateCtx_lat (s : State) : (invalidateCtx s).lat = s.lat := rfl
@[simp] theorem invalidateCtx_ctxH (s : State) : (invalidateCtx s).ctxH = ChainWords.zero := rfl
@[simp] theorem invalidateCtx_ctxMlen (s : State) : (invalidateCtx s).ctxMlen = 0#128 := rfl
@[simp] theorem invalidateCtx_ctxBuf (s : State) : (invalidateCtx s).ctxBuf = [] := rfl
@[simp] theorem invalidateCtx_work (s : State) : (invalidateCtx s).work = s.work := rfl
@[simp] theorem invalidateCtx_mem (s : State) : (invalidateCtx s).mem = s.mem := rfl
@[simp] theorem invalidateCtx_inReset (s : State) : (invalidateCtx s).inReset = s.inReset := rfl
@[simp] theorem invalidateCtx_racedIn (s : State) : (invalidateCtx s).racedIn = s.racedIn := rfl
@[simp] theorem invalidateCtx_racedOut (s : State) : (invalidateCtx s).racedOut = s.racedOut := rfl
@[simp] theorem invalidateCtx_busHoles (s : State) : (invalidateCtx s).busHoles = s.busHoles := rfl
@[simp] theorem invalidateCtx_entropy (s : State) : (invalidateCtx s).entropy = s.entropy := rfl
@[simp] theorem invalidateCtx_inputs (s : State) : (invalidateCtx s).inputs = s.inputs := rfl
@[simp] theorem invalidateCtx_rdata (s : State) : (invalidateCtx s).rdata = s.rdata := rfl
@[simp] theorem invalidateCtx_free (s : State) : (invalidateCtx s).free = s.free := rfl

/-! ### startCtx -/

@[simp] theorem startCtx_irqEn (s : State) : (startCtx s).irqEn = s.irqEn := rfl
@[simp] theorem startCtx_busy (s : State) : (startCtx s).busy = s.busy := rfl
@[simp] theorem startCtx_done (s : State) : (startCtx s).done = s.done := rfl
@[simp] theorem startCtx_vfail (s : State) : (startCtx s).vfail = s.vfail := rfl
@[simp] theorem startCtx_overrun (s : State) : (startCtx s).overrun = s.overrun := rfl
@[simp] theorem startCtx_ctxValid (s : State) : (startCtx s).ctxValid = true := rfl
@[simp] theorem startCtx_err (s : State) : (startCtx s).err = s.err := rfl
@[simp] theorem startCtx_cmd (s : State) : (startCtx s).cmd = s.cmd := rfl
@[simp] theorem startCtx_aAddr (s : State) : (startCtx s).aAddr = s.aAddr := rfl
@[simp] theorem startCtx_aLen (s : State) : (startCtx s).aLen = s.aLen := rfl
@[simp] theorem startCtx_bAddr (s : State) : (startCtx s).bAddr = s.bAddr := rfl
@[simp] theorem startCtx_cAddr (s : State) : (startCtx s).cAddr = s.cAddr := rfl
@[simp] theorem startCtx_dAddr (s : State) : (startCtx s).dAddr = s.dAddr := rfl
@[simp] theorem startCtx_outLen (s : State) : (startCtx s).outLen = s.outLen := rfl
@[simp] theorem startCtx_errAddr (s : State) : (startCtx s).errAddr = s.errAddr := rfl
@[simp] theorem startCtx_lat (s : State) : (startCtx s).lat = s.lat := rfl
@[simp] theorem startCtx_ctxH (s : State) : (startCtx s).ctxH = shaIv := rfl
@[simp] theorem startCtx_ctxMlen (s : State) : (startCtx s).ctxMlen = 0#128 := rfl
@[simp] theorem startCtx_ctxBuf (s : State) : (startCtx s).ctxBuf = [] := rfl
@[simp] theorem startCtx_work (s : State) : (startCtx s).work = s.work := rfl
@[simp] theorem startCtx_mem (s : State) : (startCtx s).mem = s.mem := rfl
@[simp] theorem startCtx_inReset (s : State) : (startCtx s).inReset = s.inReset := rfl
@[simp] theorem startCtx_racedIn (s : State) : (startCtx s).racedIn = s.racedIn := rfl
@[simp] theorem startCtx_racedOut (s : State) : (startCtx s).racedOut = s.racedOut := rfl
@[simp] theorem startCtx_busHoles (s : State) : (startCtx s).busHoles = s.busHoles := rfl
@[simp] theorem startCtx_entropy (s : State) : (startCtx s).entropy = s.entropy := rfl
@[simp] theorem startCtx_inputs (s : State) : (startCtx s).inputs = s.inputs := rfl
@[simp] theorem startCtx_rdata (s : State) : (startCtx s).rdata = s.rdata := rfl
@[simp] theorem startCtx_free (s : State) : (startCtx s).free = s.free := rfl

/-! ### absorb -/

@[simp] theorem absorb_irqEn (data : List Byte) (s : State) : (absorb data s).irqEn = s.irqEn := rfl
@[simp] theorem absorb_busy (data : List Byte) (s : State) : (absorb data s).busy = s.busy := rfl
@[simp] theorem absorb_done (data : List Byte) (s : State) : (absorb data s).done = s.done := rfl
@[simp] theorem absorb_vfail (data : List Byte) (s : State) : (absorb data s).vfail = s.vfail := rfl
@[simp] theorem absorb_overrun (data : List Byte) (s : State) : (absorb data s).overrun = s.overrun := rfl
@[simp] theorem absorb_ctxValid (data : List Byte) (s : State) : (absorb data s).ctxValid = s.ctxValid := rfl
@[simp] theorem absorb_err (data : List Byte) (s : State) : (absorb data s).err = s.err := rfl
@[simp] theorem absorb_cmd (data : List Byte) (s : State) : (absorb data s).cmd = s.cmd := rfl
@[simp] theorem absorb_aAddr (data : List Byte) (s : State) : (absorb data s).aAddr = s.aAddr := rfl
@[simp] theorem absorb_aLen (data : List Byte) (s : State) : (absorb data s).aLen = s.aLen := rfl
@[simp] theorem absorb_bAddr (data : List Byte) (s : State) : (absorb data s).bAddr = s.bAddr := rfl
@[simp] theorem absorb_cAddr (data : List Byte) (s : State) : (absorb data s).cAddr = s.cAddr := rfl
@[simp] theorem absorb_dAddr (data : List Byte) (s : State) : (absorb data s).dAddr = s.dAddr := rfl
@[simp] theorem absorb_outLen (data : List Byte) (s : State) : (absorb data s).outLen = s.outLen := rfl
@[simp] theorem absorb_errAddr (data : List Byte) (s : State) : (absorb data s).errAddr = s.errAddr := rfl
@[simp] theorem absorb_lat (data : List Byte) (s : State) : (absorb data s).lat = s.lat := rfl
@[simp] theorem absorb_ctxH (data : List Byte) (s : State) : (absorb data s).ctxH = compressBlocks ((s.ctxBuf ++ data).length / 128) s.ctxH (s.ctxBuf ++ data) := rfl
@[simp] theorem absorb_ctxMlen (data : List Byte) (s : State) : (absorb data s).ctxMlen = s.ctxMlen + BitVec.ofNat 128 data.length := rfl
@[simp] theorem absorb_ctxBuf (data : List Byte) (s : State) : (absorb data s).ctxBuf = (s.ctxBuf ++ data).drop (128 * ((s.ctxBuf ++ data).length / 128)) := rfl
@[simp] theorem absorb_work (data : List Byte) (s : State) : (absorb data s).work = s.work := rfl
@[simp] theorem absorb_mem (data : List Byte) (s : State) : (absorb data s).mem = s.mem := rfl
@[simp] theorem absorb_inReset (data : List Byte) (s : State) : (absorb data s).inReset = s.inReset := rfl
@[simp] theorem absorb_racedIn (data : List Byte) (s : State) : (absorb data s).racedIn = s.racedIn := rfl
@[simp] theorem absorb_racedOut (data : List Byte) (s : State) : (absorb data s).racedOut = s.racedOut := rfl
@[simp] theorem absorb_busHoles (data : List Byte) (s : State) : (absorb data s).busHoles = s.busHoles := rfl
@[simp] theorem absorb_entropy (data : List Byte) (s : State) : (absorb data s).entropy = s.entropy := rfl
@[simp] theorem absorb_inputs (data : List Byte) (s : State) : (absorb data s).inputs = s.inputs := rfl
@[simp] theorem absorb_rdata (data : List Byte) (s : State) : (absorb data s).rdata = s.rdata := rfl
@[simp] theorem absorb_free (data : List Byte) (s : State) : (absorb data s).free = s.free := rfl

/-! ### accept -/

@[simp] theorem accept_irqEn (s : State) : (accept s).irqEn = s.irqEn := rfl
@[simp] theorem accept_busy (s : State) : (accept s).busy = true := rfl
@[simp] theorem accept_done (s : State) : (accept s).done = false := rfl
@[simp] theorem accept_vfail (s : State) : (accept s).vfail = false := rfl
@[simp] theorem accept_overrun (s : State) : (accept s).overrun = s.overrun := rfl
@[simp] theorem accept_ctxValid (s : State) : (accept s).ctxValid = s.ctxValid := rfl
@[simp] theorem accept_err (s : State) : (accept s).err = .none := rfl
@[simp] theorem accept_cmd (s : State) : (accept s).cmd = s.cmd := rfl
@[simp] theorem accept_aAddr (s : State) : (accept s).aAddr = s.aAddr := rfl
@[simp] theorem accept_aLen (s : State) : (accept s).aLen = s.aLen := rfl
@[simp] theorem accept_bAddr (s : State) : (accept s).bAddr = s.bAddr := rfl
@[simp] theorem accept_cAddr (s : State) : (accept s).cAddr = s.cAddr := rfl
@[simp] theorem accept_dAddr (s : State) : (accept s).dAddr = s.dAddr := rfl
@[simp] theorem accept_outLen (s : State) : (accept s).outLen = 0#32 := rfl
@[simp] theorem accept_errAddr (s : State) : (accept s).errAddr = 0#32 := rfl
@[simp] theorem accept_lat (s : State) : (accept s).lat = ⟨s.cmd, s.aAddr, s.aLen, s.bAddr, s.cAddr, s.dAddr⟩ := rfl
@[simp] theorem accept_ctxH (s : State) : (accept s).ctxH = s.ctxH := rfl
@[simp] theorem accept_ctxMlen (s : State) : (accept s).ctxMlen = s.ctxMlen := rfl
@[simp] theorem accept_ctxBuf (s : State) : (accept s).ctxBuf = s.ctxBuf := rfl
@[simp] theorem accept_work (s : State) : (accept s).work = s.work := rfl
@[simp] theorem accept_mem (s : State) : (accept s).mem = s.mem := rfl
@[simp] theorem accept_inReset (s : State) : (accept s).inReset = s.inReset := rfl
@[simp] theorem accept_racedIn (s : State) : (accept s).racedIn = [] := rfl
@[simp] theorem accept_racedOut (s : State) : (accept s).racedOut = [] := rfl
@[simp] theorem accept_busHoles (s : State) : (accept s).busHoles = s.busHoles := rfl
@[simp] theorem accept_entropy (s : State) : (accept s).entropy = s.entropy := rfl
@[simp] theorem accept_inputs (s : State) : (accept s).inputs = s.inputs := rfl
@[simp] theorem accept_rdata (s : State) : (accept s).rdata = s.rdata := rfl
@[simp] theorem accept_free (s : State) : (accept s).free = s.free := rfl

/-! ### noteOverrun -/

@[simp] theorem noteOverrun_irqEn (s : State) : (noteOverrun s).irqEn = s.irqEn := rfl
@[simp] theorem noteOverrun_busy (s : State) : (noteOverrun s).busy = s.busy := rfl
@[simp] theorem noteOverrun_done (s : State) : (noteOverrun s).done = s.done := rfl
@[simp] theorem noteOverrun_vfail (s : State) : (noteOverrun s).vfail = s.vfail := rfl
@[simp] theorem noteOverrun_overrun (s : State) : (noteOverrun s).overrun = true := rfl
@[simp] theorem noteOverrun_ctxValid (s : State) : (noteOverrun s).ctxValid = s.ctxValid := rfl
@[simp] theorem noteOverrun_err (s : State) : (noteOverrun s).err = s.err := rfl
@[simp] theorem noteOverrun_cmd (s : State) : (noteOverrun s).cmd = s.cmd := rfl
@[simp] theorem noteOverrun_aAddr (s : State) : (noteOverrun s).aAddr = s.aAddr := rfl
@[simp] theorem noteOverrun_aLen (s : State) : (noteOverrun s).aLen = s.aLen := rfl
@[simp] theorem noteOverrun_bAddr (s : State) : (noteOverrun s).bAddr = s.bAddr := rfl
@[simp] theorem noteOverrun_cAddr (s : State) : (noteOverrun s).cAddr = s.cAddr := rfl
@[simp] theorem noteOverrun_dAddr (s : State) : (noteOverrun s).dAddr = s.dAddr := rfl
@[simp] theorem noteOverrun_outLen (s : State) : (noteOverrun s).outLen = s.outLen := rfl
@[simp] theorem noteOverrun_errAddr (s : State) : (noteOverrun s).errAddr = s.errAddr := rfl
@[simp] theorem noteOverrun_lat (s : State) : (noteOverrun s).lat = s.lat := rfl
@[simp] theorem noteOverrun_ctxH (s : State) : (noteOverrun s).ctxH = s.ctxH := rfl
@[simp] theorem noteOverrun_ctxMlen (s : State) : (noteOverrun s).ctxMlen = s.ctxMlen := rfl
@[simp] theorem noteOverrun_ctxBuf (s : State) : (noteOverrun s).ctxBuf = s.ctxBuf := rfl
@[simp] theorem noteOverrun_work (s : State) : (noteOverrun s).work = s.work := rfl
@[simp] theorem noteOverrun_mem (s : State) : (noteOverrun s).mem = s.mem := rfl
@[simp] theorem noteOverrun_inReset (s : State) : (noteOverrun s).inReset = s.inReset := rfl
@[simp] theorem noteOverrun_racedIn (s : State) : (noteOverrun s).racedIn = s.racedIn := rfl
@[simp] theorem noteOverrun_racedOut (s : State) : (noteOverrun s).racedOut = s.racedOut := rfl
@[simp] theorem noteOverrun_busHoles (s : State) : (noteOverrun s).busHoles = s.busHoles := rfl
@[simp] theorem noteOverrun_entropy (s : State) : (noteOverrun s).entropy = s.entropy := rfl
@[simp] theorem noteOverrun_inputs (s : State) : (noteOverrun s).inputs = s.inputs := rfl
@[simp] theorem noteOverrun_rdata (s : State) : (noteOverrun s).rdata = s.rdata := rfl
@[simp] theorem noteOverrun_free (s : State) : (noteOverrun s).free = s.free := rfl

/-! ### writeStatus -/

@[simp] theorem writeStatus_irqEn (v : Word) (s : State) : (writeStatus v s).irqEn = s.irqEn := rfl
@[simp] theorem writeStatus_busy (v : Word) (s : State) : (writeStatus v s).busy = s.busy := rfl
@[simp] theorem writeStatus_done (v : Word) (s : State) : (writeStatus v s).done = (s.done && !v.getLsbD 1) := rfl
@[simp] theorem writeStatus_vfail (v : Word) (s : State) : (writeStatus v s).vfail = s.vfail := rfl
@[simp] theorem writeStatus_overrun (v : Word) (s : State) : (writeStatus v s).overrun = (s.overrun && !v.getLsbD 3) := rfl
@[simp] theorem writeStatus_ctxValid (v : Word) (s : State) : (writeStatus v s).ctxValid = s.ctxValid := rfl
@[simp] theorem writeStatus_err (v : Word) (s : State) : (writeStatus v s).err = s.err := rfl
@[simp] theorem writeStatus_cmd (v : Word) (s : State) : (writeStatus v s).cmd = s.cmd := rfl
@[simp] theorem writeStatus_aAddr (v : Word) (s : State) : (writeStatus v s).aAddr = s.aAddr := rfl
@[simp] theorem writeStatus_aLen (v : Word) (s : State) : (writeStatus v s).aLen = s.aLen := rfl
@[simp] theorem writeStatus_bAddr (v : Word) (s : State) : (writeStatus v s).bAddr = s.bAddr := rfl
@[simp] theorem writeStatus_cAddr (v : Word) (s : State) : (writeStatus v s).cAddr = s.cAddr := rfl
@[simp] theorem writeStatus_dAddr (v : Word) (s : State) : (writeStatus v s).dAddr = s.dAddr := rfl
@[simp] theorem writeStatus_outLen (v : Word) (s : State) : (writeStatus v s).outLen = s.outLen := rfl
@[simp] theorem writeStatus_errAddr (v : Word) (s : State) : (writeStatus v s).errAddr = s.errAddr := rfl
@[simp] theorem writeStatus_lat (v : Word) (s : State) : (writeStatus v s).lat = s.lat := rfl
@[simp] theorem writeStatus_ctxH (v : Word) (s : State) : (writeStatus v s).ctxH = s.ctxH := rfl
@[simp] theorem writeStatus_ctxMlen (v : Word) (s : State) : (writeStatus v s).ctxMlen = s.ctxMlen := rfl
@[simp] theorem writeStatus_ctxBuf (v : Word) (s : State) : (writeStatus v s).ctxBuf = s.ctxBuf := rfl
@[simp] theorem writeStatus_work (v : Word) (s : State) : (writeStatus v s).work = s.work := rfl
@[simp] theorem writeStatus_mem (v : Word) (s : State) : (writeStatus v s).mem = s.mem := rfl
@[simp] theorem writeStatus_inReset (v : Word) (s : State) : (writeStatus v s).inReset = s.inReset := rfl
@[simp] theorem writeStatus_racedIn (v : Word) (s : State) : (writeStatus v s).racedIn = s.racedIn := rfl
@[simp] theorem writeStatus_racedOut (v : Word) (s : State) : (writeStatus v s).racedOut = s.racedOut := rfl
@[simp] theorem writeStatus_busHoles (v : Word) (s : State) : (writeStatus v s).busHoles = s.busHoles := rfl
@[simp] theorem writeStatus_entropy (v : Word) (s : State) : (writeStatus v s).entropy = s.entropy := rfl
@[simp] theorem writeStatus_inputs (v : Word) (s : State) : (writeStatus v s).inputs = s.inputs := rfl
@[simp] theorem writeStatus_rdata (v : Word) (s : State) : (writeStatus v s).rdata = s.rdata := rfl
@[simp] theorem writeStatus_free (v : Word) (s : State) : (writeStatus v s).free = s.free := rfl

/-! ### resetCore -/

@[simp] theorem resetCore_irqEn (s : State) : (resetCore s).irqEn = State.reset.irqEn := rfl
@[simp] theorem resetCore_busy (s : State) : (resetCore s).busy = State.reset.busy := rfl
@[simp] theorem resetCore_done (s : State) : (resetCore s).done = State.reset.done := rfl
@[simp] theorem resetCore_vfail (s : State) : (resetCore s).vfail = State.reset.vfail := rfl
@[simp] theorem resetCore_overrun (s : State) : (resetCore s).overrun = State.reset.overrun := rfl
@[simp] theorem resetCore_ctxValid (s : State) : (resetCore s).ctxValid = State.reset.ctxValid := rfl
@[simp] theorem resetCore_err (s : State) : (resetCore s).err = State.reset.err := rfl
@[simp] theorem resetCore_cmd (s : State) : (resetCore s).cmd = State.reset.cmd := rfl
@[simp] theorem resetCore_aAddr (s : State) : (resetCore s).aAddr = State.reset.aAddr := rfl
@[simp] theorem resetCore_aLen (s : State) : (resetCore s).aLen = State.reset.aLen := rfl
@[simp] theorem resetCore_bAddr (s : State) : (resetCore s).bAddr = State.reset.bAddr := rfl
@[simp] theorem resetCore_cAddr (s : State) : (resetCore s).cAddr = State.reset.cAddr := rfl
@[simp] theorem resetCore_dAddr (s : State) : (resetCore s).dAddr = State.reset.dAddr := rfl
@[simp] theorem resetCore_outLen (s : State) : (resetCore s).outLen = State.reset.outLen := rfl
@[simp] theorem resetCore_errAddr (s : State) : (resetCore s).errAddr = State.reset.errAddr := rfl
@[simp] theorem resetCore_lat (s : State) : (resetCore s).lat = State.reset.lat := rfl
@[simp] theorem resetCore_ctxH (s : State) : (resetCore s).ctxH = State.reset.ctxH := rfl
@[simp] theorem resetCore_ctxMlen (s : State) : (resetCore s).ctxMlen = State.reset.ctxMlen := rfl
@[simp] theorem resetCore_ctxBuf (s : State) : (resetCore s).ctxBuf = State.reset.ctxBuf := rfl
@[simp] theorem resetCore_work (s : State) : (resetCore s).work = State.reset.work := rfl
@[simp] theorem resetCore_mem (s : State) : (resetCore s).mem = s.mem := rfl
@[simp] theorem resetCore_inReset (s : State) : (resetCore s).inReset = s.inReset := rfl
@[simp] theorem resetCore_racedIn (s : State) : (resetCore s).racedIn = State.reset.racedIn := rfl
@[simp] theorem resetCore_racedOut (s : State) : (resetCore s).racedOut = State.reset.racedOut := rfl
@[simp] theorem resetCore_busHoles (s : State) : (resetCore s).busHoles = s.busHoles := rfl
@[simp] theorem resetCore_entropy (s : State) : (resetCore s).entropy = s.entropy := rfl
@[simp] theorem resetCore_inputs (s : State) : (resetCore s).inputs = s.inputs := rfl
@[simp] theorem resetCore_rdata (s : State) : (resetCore s).rdata = s.rdata := rfl
@[simp] theorem resetCore_free (s : State) : (resetCore s).free = s.free := rfl

/-! ### finish -/

@[simp] theorem finish_irqEn (o : CmdOutcome) (s : State) : (finish o s).irqEn = s.irqEn := rfl
@[simp] theorem finish_busy (o : CmdOutcome) (s : State) : (finish o s).busy = false := rfl
@[simp] theorem finish_done (o : CmdOutcome) (s : State) : (finish o s).done = true := rfl
@[simp] theorem finish_overrun (o : CmdOutcome) (s : State) : (finish o s).overrun = s.overrun := rfl
@[simp] theorem finish_ctxValid (o : CmdOutcome) (s : State) : (finish o s).ctxValid = s.ctxValid := rfl
@[simp] theorem finish_cmd (o : CmdOutcome) (s : State) : (finish o s).cmd = s.cmd := rfl
@[simp] theorem finish_aAddr (o : CmdOutcome) (s : State) : (finish o s).aAddr = s.aAddr := rfl
@[simp] theorem finish_aLen (o : CmdOutcome) (s : State) : (finish o s).aLen = s.aLen := rfl
@[simp] theorem finish_bAddr (o : CmdOutcome) (s : State) : (finish o s).bAddr = s.bAddr := rfl
@[simp] theorem finish_cAddr (o : CmdOutcome) (s : State) : (finish o s).cAddr = s.cAddr := rfl
@[simp] theorem finish_dAddr (o : CmdOutcome) (s : State) : (finish o s).dAddr = s.dAddr := rfl
@[simp] theorem finish_lat (o : CmdOutcome) (s : State) : (finish o s).lat = s.lat := rfl
@[simp] theorem finish_ctxH (o : CmdOutcome) (s : State) : (finish o s).ctxH = s.ctxH := rfl
@[simp] theorem finish_ctxMlen (o : CmdOutcome) (s : State) : (finish o s).ctxMlen = s.ctxMlen := rfl
@[simp] theorem finish_ctxBuf (o : CmdOutcome) (s : State) : (finish o s).ctxBuf = s.ctxBuf := rfl
@[simp] theorem finish_work (o : CmdOutcome) (s : State) : (finish o s).work = [] := rfl
@[simp] theorem finish_mem (o : CmdOutcome) (s : State) : (finish o s).mem = s.mem := rfl
@[simp] theorem finish_inReset (o : CmdOutcome) (s : State) : (finish o s).inReset = s.inReset := rfl
@[simp] theorem finish_racedIn (o : CmdOutcome) (s : State) : (finish o s).racedIn = s.racedIn := rfl
@[simp] theorem finish_racedOut (o : CmdOutcome) (s : State) : (finish o s).racedOut = s.racedOut := rfl
@[simp] theorem finish_busHoles (o : CmdOutcome) (s : State) : (finish o s).busHoles = s.busHoles := rfl
@[simp] theorem finish_entropy (o : CmdOutcome) (s : State) : (finish o s).entropy = s.entropy := rfl
@[simp] theorem finish_inputs (o : CmdOutcome) (s : State) : (finish o s).inputs = s.inputs := rfl
@[simp] theorem finish_rdata (o : CmdOutcome) (s : State) : (finish o s).rdata = s.rdata := rfl
@[simp] theorem finish_free (o : CmdOutcome) (s : State) : (finish o s).free = s.free := rfl
@[simp] theorem finish_ok_err (k : Nat) (s : State) : (finish (.ok k) s).err = .none := rfl
@[simp] theorem finish_ok_vfail (k : Nat) (s : State) : (finish (.ok k) s).vfail = false := rfl
@[simp] theorem finish_ok_outLen (k : Nat) (s : State) : (finish (.ok k) s).outLen = BitVec.ofNat 32 k := rfl
@[simp] theorem finish_ok_errAddr (k : Nat) (s : State) : (finish (.ok k) s).errAddr = 0#32 := rfl
@[simp] theorem finish_vf_err (s : State) : (finish .vf s).err = .none := rfl
@[simp] theorem finish_vf_vfail (s : State) : (finish .vf s).vfail = true := rfl
@[simp] theorem finish_vf_outLen (s : State) : (finish .vf s).outLen = 0#32 := rfl
@[simp] theorem finish_vf_errAddr (s : State) : (finish .vf s).errAddr = 0#32 := rfl
@[simp] theorem finish_err_err (c : ErrorCode) (a : Word) (s : State) : (finish (.err c a) s).err = c := rfl
@[simp] theorem finish_err_vfail (c : ErrorCode) (a : Word) (s : State) : (finish (.err c a) s).vfail = false := rfl
@[simp] theorem finish_err_outLen (c : ErrorCode) (a : Word) (s : State) : (finish (.err c a) s).outLen = 0#32 := rfl
@[simp] theorem finish_bus_errAddr (a : Word) (s : State) : (finish (.err .bus a) s).errAddr = a := rfl
theorem finish_err_errAddr {c : ErrorCode} (h : c ≠ .bus) (a : Word) (s : State) :
    (finish (.err c a) s).errAddr = 0#32 := by
  cases c <;> first | rfl | exact absurd rfl h

end Sys2Proof.Machine
end

