-- ==== Sys2Proof/Laws/Memory.lean ====
section
/-! SUPPORT. Laws/Memory.lean: the laws of the DMA space: reading back a write, the bytes a write
leaves alone, and that every memory operation keeps the canonical form. -/

namespace Sys2Proof.Machine

namespace Memory

@[simp] theorem read_nil (a : Nat) : Memory.read [] a = Memory.unlisted := rfl

theorem read_cons (k : Nat) (v : Byte) (m : Memory) (a : Nat) :
    Memory.read ((k, v) :: m) a = if k = a then v else Memory.read m a := rfl

/-- An address that no cell lists reads as unlisted. -/
theorem read_of_not_listed (m : Memory) (a : Nat) (h : ∀ c ∈ m, c.1 ≠ a) :
    m.read a = Memory.unlisted := by
  induction m with
  | nil => rfl
  | cons c m ih =>
    obtain ⟨k, v⟩ := c
    have hk : k ≠ a := h (k, v) (by simp)
    rw [read_cons, if_neg hk]
    exact ih fun c hc => h c (by simp [hc])

theorem read_consCell (a : Nat) (v : Byte) (m : Memory) (b : Nat) :
    Memory.read (Memory.consCell a v m) b =
      if v = Memory.unlisted then m.read b else if a = b then v else m.read b := by
  unfold Memory.consCell
  split <;> simp [read_cons]

/-- A write leaves every other address alone. -/
theorem read_write_ne (m : Memory) {a b : Nat} (v : Byte) (h : b ≠ a) :
    (m.write a v).read b = m.read b := by
  have h' : a ≠ b := Ne.symm h
  induction m with
  | nil => simp [Memory.write, read_consCell, h']
  | cons c m ih =>
    obtain ⟨k, w⟩ := c
    unfold Memory.write
    split
    · simp [read_consCell, h']
    · split
      · rename_i _ hk
        simp [read_consCell, read_cons, h', ← hk]
      · simp [read_cons, ih]

/-- The cells of a well-formed memory after its first have larger addresses. -/
theorem wf_tail {k : Nat} {w : Byte} {m : Memory} (h : Memory.wf ((k, w) :: m)) :
    Memory.wf m ∧ (∀ c ∈ m, k < c.1) ∧ k < Config.dmaSpace ∧ w ≠ Memory.unlisted := by
  obtain ⟨hp, hc⟩ := h
  simp only [List.map_cons, List.pairwise_cons, List.mem_map] at hp
  refine ⟨⟨hp.2, fun c hm => hc c (List.mem_cons_of_mem _ hm)⟩, fun c hm => hp.1 _ ⟨c, hm, rfl⟩,
    (hc (k, w) (by simp)).1, (hc (k, w) (by simp)).2⟩

theorem wf_cons {k : Nat} {w : Byte} {m : Memory} (hm : m.wf) (hk : ∀ c ∈ m, k < c.1)
    (hs : k < Config.dmaSpace) (hw : w ≠ Memory.unlisted) : Memory.wf ((k, w) :: m) := by
  refine ⟨?_, ?_⟩
  · simp only [List.map_cons, List.pairwise_cons, List.mem_map]
    exact ⟨by rintro _ ⟨c, hc, rfl⟩; exact hk c hc, hm.1⟩
  · intro c hc
    rcases List.mem_cons.mp hc with rfl | hc
    · exact ⟨hs, hw⟩
    · exact hm.2 c hc

/-- A write reads back, in a well-formed memory. -/
theorem read_write_same (m : Memory) (hm : m.wf) (a : Nat) (v : Byte) :
    (m.write a v).read a = v := by
  induction m with
  | nil =>
    simp only [Memory.write, read_consCell]
    split <;> simp_all
  | cons c m ih =>
    obtain ⟨k, w⟩ := c
    obtain ⟨htail, hrise, -, -⟩ := wf_tail hm
    have absent {l : Memory} (h : ∀ c ∈ l, a < c.1) : Memory.read l a = Memory.unlisted :=
      read_of_not_listed l a fun c hc => Nat.ne_of_gt (h c hc)
    unfold Memory.write
    split
    · rename_i hlt
      have : ∀ c ∈ ((k, w) :: m), a < c.1 := by
        intro c hc
        rcases List.mem_cons.mp hc with rfl | hc
        · exact hlt
        · exact Nat.lt_trans hlt (hrise c hc)
      rw [read_consCell, absent this]
      split <;> simp_all
    · split
      · rename_i _ heq
        rw [read_consCell, absent (heq ▸ hrise)]
        split <;> simp_all
      · rename_i hlt hne
        rw [read_cons, if_neg (Ne.symm hne), ih htail]

theorem mem_consCell {a : Nat} {v : Byte} {m : Memory} {c : Host.Cell}
    (h : c ∈ Memory.consCell a v m) : c = (a, v) ∨ c ∈ m := by
  unfold Memory.consCell at h
  split at h
  · exact .inr h
  · exact List.mem_cons.mp h

theorem consCell_wf {a : Nat} {m : Memory} (hm : m.wf) (hk : ∀ c ∈ m, a < c.1)
    (hs : a < Config.dmaSpace) (v : Byte) : (Memory.consCell a v m).wf := by
  unfold Memory.consCell
  split
  · exact hm
  · exact wf_cons hm hk hs ‹_›

theorem mem_write {m : Memory} {a : Nat} {v : Byte} {c : Host.Cell} (h : c ∈ m.write a v) :
    c = (a, v) ∨ c ∈ m := by
  induction m with
  | nil => exact mem_consCell h
  | cons d m ih =>
    obtain ⟨k, w⟩ := d
    unfold Memory.write at h
    split at h
    · exact mem_consCell h
    · split at h
      · exact (mem_consCell h).imp_right (List.mem_cons_of_mem _)
      · rcases List.mem_cons.mp h with rfl | h
        · exact .inr (by simp)
        · exact (ih h).imp_right (List.mem_cons_of_mem _)

/-- A write inside the DMA space keeps the canonical form. -/
theorem write_wf {m : Memory} (hm : m.wf) {a : Nat} (ha : a < Config.dmaSpace) (v : Byte) :
    (m.write a v).wf := by
  induction m with
  | nil => exact consCell_wf hm (by simp) ha v
  | cons d m ih =>
    obtain ⟨k, w⟩ := d
    obtain ⟨htail, hrise, hks, hw⟩ := wf_tail hm
    unfold Memory.write
    split
    · rename_i hlt
      refine consCell_wf hm (fun c hc => ?_) ha v
      rcases List.mem_cons.mp hc with rfl | hc
      · exact hlt
      · exact Nat.lt_trans hlt (hrise c hc)
    · split
      · rename_i _ heq
        exact consCell_wf htail (heq ▸ hrise) ha v
      · rename_i hlt hne
        refine wf_cons (ih htail) (fun c hc => ?_) hks hw
        rcases mem_write hc with rfl | hc
        · exact Nat.lt_of_le_of_ne (Nat.le_of_not_lt hlt) (Ne.symm hne)
        · exact hrise c hc

/-- Writing bytes inside the DMA space keeps the canonical form. -/
theorem writeBytes_wf {m : Memory} (hm : m.wf) {a : Nat} {bs : List Byte}
    (h : bs = [] ∨ a + bs.length ≤ Config.dmaSpace) : (m.writeBytes a bs).wf := by
  induction bs generalizing m a with
  | nil => exact hm
  | cons b bs ih =>
    have h : a + (bs.length + 1) ≤ Config.dmaSpace := by simpa using h
    exact ih (write_wf hm (by omega) b) (.inr (by omega))

/-- Writing bytes leaves every byte outside them alone. -/
theorem read_writeBytes_outside (m : Memory) (a : Nat) (bs : List Byte) (b : Nat)
    (h : b < a ∨ a + bs.length ≤ b) : (m.writeBytes a bs).read b = m.read b := by
  induction bs generalizing m a with
  | nil => rfl
  | cons v bs ih =>
    simp only [List.length_cons] at h
    rw [Memory.writeBytes, ih _ _ (by omega), read_write_ne _ _ (by omega)]

/-- Bytes written inside the DMA space of a well-formed memory read back. -/
theorem readBytes_writeBytes {m : Memory} (hm : m.wf) {a : Nat} {bs : List Byte}
    (h : a + bs.length ≤ Config.dmaSpace) : (m.writeBytes a bs).readBytes a bs.length = bs := by
  induction bs generalizing m a with
  | nil => rfl
  | cons b bs ih =>
    simp only [List.length_cons] at h
    have hw := write_wf hm (a := a) (by omega) b
    simp only [Memory.writeBytes, List.length_cons, Memory.readBytes, List.cons.injEq]
    refine ⟨?_, ih hw (by omega)⟩
    rw [read_writeBytes_outside _ _ _ _ (.inl (Nat.lt_succ_self a)), read_write_same m hm]

@[simp] theorem readBytes_length (m : Memory) (a n : Nat) : (m.readBytes a n).length = n := by
  induction n generalizing a with
  | zero => rfl
  | succ n ih => simp [Memory.readBytes, ih]

/-- Memories that agree on a region read the same bytes there. -/
theorem readBytes_congr {m m' : Memory} {a n : Nat}
    (h : ∀ b, a ≤ b → b < a + n → m.read b = m'.read b) : m.readBytes a n = m'.readBytes a n := by
  induction n generalizing a with
  | zero => rfl
  | succ n ih =>
    simp only [Memory.readBytes, List.cons.injEq]
    exact ⟨h a (by omega) (by omega), ih fun b h1 h2 => h b (by omega) (by omega)⟩

/-- The n + k bytes at a are the first n of them and the k after those. -/
theorem readBytes_add (m : Memory) (a n k : Nat) :
    m.readBytes a (n + k) = m.readBytes a n ++ m.readBytes (a + n) k := by
  induction n generalizing a with
  | zero => simp [Memory.readBytes]
  | succ n ih =>
    rw [show n + 1 + k = (n + k) + 1 by omega, Memory.readBytes, ih]
    simp [Memory.readBytes, Nat.add_assoc, Nat.add_comm 1 n]

end Memory

end Sys2Proof.Machine
end

