-- ==== Sys2Proof/Laws/Ops.lean ====
section
/-! SUPPORT. Laws/Ops.lean: one lemma per shared operation saying what it can do, which later proofs
cite instead of unfolding it. -/

namespace Sys2Proof.Machine

/-! ### havoc: free values in the DMA space -/

/-- havoc changes the DMA space and the free-value counter, nothing else. -/
theorem havoc_frame (as : List Nat) (s : State) :
    havoc as s = { s with mem := (havoc as s).mem, free := (havoc as s).free } := by
  induction as generalizing s with
  | nil => rfl
  | cons a as ih => rw [havoc, ih]

@[simp] theorem havoc_nil (s : State) : havoc [] s = s := rfl

@[simp] theorem havoc_irqEn (as : List Nat) (s : State) : (havoc as s).irqEn = s.irqEn := by
  rw [havoc_frame]
@[simp] theorem havoc_busy (as : List Nat) (s : State) : (havoc as s).busy = s.busy := by
  rw [havoc_frame]
@[simp] theorem havoc_done (as : List Nat) (s : State) : (havoc as s).done = s.done := by
  rw [havoc_frame]
@[simp] theorem havoc_vfail (as : List Nat) (s : State) : (havoc as s).vfail = s.vfail := by
  rw [havoc_frame]
@[simp] theorem havoc_overrun (as : List Nat) (s : State) : (havoc as s).overrun = s.overrun := by
  rw [havoc_frame]
@[simp] theorem havoc_ctxValid (as : List Nat) (s : State) : (havoc as s).ctxValid = s.ctxValid := by
  rw [havoc_frame]
@[simp] theorem havoc_err (as : List Nat) (s : State) : (havoc as s).err = s.err := by
  rw [havoc_frame]
@[simp] theorem havoc_cmd (as : List Nat) (s : State) : (havoc as s).cmd = s.cmd := by
  rw [havoc_frame]
@[simp] theorem havoc_aAddr (as : List Nat) (s : State) : (havoc as s).aAddr = s.aAddr := by
  rw [havoc_frame]
@[simp] theorem havoc_aLen (as : List Nat) (s : State) : (havoc as s).aLen = s.aLen := by
  rw [havoc_frame]
@[simp] theorem havoc_bAddr (as : List Nat) (s : State) : (havoc as s).bAddr = s.bAddr := by
  rw [havoc_frame]
@[simp] theorem havoc_cAddr (as : List Nat) (s : State) : (havoc as s).cAddr = s.cAddr := by
  rw [havoc_frame]
@[simp] theorem havoc_dAddr (as : List Nat) (s : State) : (havoc as s).dAddr = s.dAddr := by
  rw [havoc_frame]
@[simp] theorem havoc_outLen (as : List Nat) (s : State) : (havoc as s).outLen = s.outLen := by
  rw [havoc_frame]
@[simp] theorem havoc_errAddr (as : List Nat) (s : State) : (havoc as s).errAddr = s.errAddr := by
  rw [havoc_frame]
@[simp] theorem havoc_lat (as : List Nat) (s : State) : (havoc as s).lat = s.lat := by
  rw [havoc_frame]
@[simp] theorem havoc_ctxH (as : List Nat) (s : State) : (havoc as s).ctxH = s.ctxH := by
  rw [havoc_frame]
@[simp] theorem havoc_ctxMlen (as : List Nat) (s : State) : (havoc as s).ctxMlen = s.ctxMlen := by
  rw [havoc_frame]
@[simp] theorem havoc_ctxBuf (as : List Nat) (s : State) : (havoc as s).ctxBuf = s.ctxBuf := by
  rw [havoc_frame]
@[simp] theorem havoc_work (as : List Nat) (s : State) : (havoc as s).work = s.work := by
  rw [havoc_frame]
@[simp] theorem havoc_inReset (as : List Nat) (s : State) : (havoc as s).inReset = s.inReset := by
  rw [havoc_frame]
@[simp] theorem havoc_racedIn (as : List Nat) (s : State) : (havoc as s).racedIn = s.racedIn := by
  rw [havoc_frame]
@[simp] theorem havoc_racedOut (as : List Nat) (s : State) : (havoc as s).racedOut = s.racedOut := by
  rw [havoc_frame]
@[simp] theorem havoc_busHoles (as : List Nat) (s : State) : (havoc as s).busHoles = s.busHoles := by
  rw [havoc_frame]
@[simp] theorem havoc_entropy (as : List Nat) (s : State) : (havoc as s).entropy = s.entropy := by
  rw [havoc_frame]
@[simp] theorem havoc_inputs (as : List Nat) (s : State) : (havoc as s).inputs = s.inputs := by
  rw [havoc_frame]
@[simp] theorem havoc_rdata (as : List Nat) (s : State) : (havoc as s).rdata = s.rdata := by
  rw [havoc_frame]

theorem havoc_free (as : List Nat) (s : State) : (havoc as s).free = s.free + as.length := by
  induction as generalizing s with
  | nil => rfl
  | cons a as ih =>
    rw [havoc, ih]
    simp only [List.length_cons]
    omega

/-- A byte outside the havoc is unchanged. -/
theorem havoc_read_outside (as : List Nat) (s : State) (b : Nat) (h : b ∉ as) :
    (havoc as s).mem.read b = s.mem.read b := by
  induction as generalizing s with
  | nil => rfl
  | cons a as ih =>
    rw [List.mem_cons, not_or] at h
    rw [havoc, ih _ h.2]
    exact Memory.read_write_ne _ _ h.1

theorem havoc_wf (as : List Nat) (s : State) (hm : s.mem.wf) (h : ∀ a ∈ as, a < Config.dmaSpace) :
    (havoc as s).mem.wf := by
  induction as generalizing s with
  | nil => exact hm
  | cons a as ih =>
    exact ih _ (Memory.write_wf hm (h a (by simp)) _) fun b hb => h b (by simp [hb])

/-- A byte of the havoc holds a free value not met before it. -/
theorem havoc_read_inside (as : List Nat) (s : State) (hm : s.mem.wf)
    (h : ∀ a ∈ as, a < Config.dmaSpace) {b : Nat} (hb : b ∈ as) :
    ∃ n, s.free ≤ n ∧ (havoc as s).mem.read b = Config.freeByte n := by
  induction as generalizing s with
  | nil => cases hb
  | cons a as ih =>
    rw [havoc]
    have hw := Memory.write_wf hm (h a (by simp)) (Config.freeByte s.free)
    by_cases hin : b ∈ as
    · obtain ⟨n, hn, hr⟩ := ih { s with mem := s.mem.write a (Config.freeByte s.free)
                                        free := s.free + 1 } hw (fun c hc => h c (by simp [hc])) hin
      exact ⟨n, Nat.le_of_succ_le hn, hr⟩
    · have hba : b = a := by simpa [hin] using hb
      subst hba
      refine ⟨s.free, Nat.le_refl _, ?_⟩
      rw [havoc_read_outside _ _ _ hin]
      exact Memory.read_write_same _ hm _ _

/-- The bytes a havoc leaves depend on the DMA space and the free-value counter only. -/
theorem havoc_mem_congr (as : List Nat) {s t : State} (hm : s.mem = t.mem) (hf : s.free = t.free) :
    (havoc as s).mem = (havoc as t).mem ∧ (havoc as s).free = (havoc as t).free := by
  induction as generalizing s t with
  | nil => exact ⟨hm, hf⟩
  | cons a as ih =>
    rw [havoc, havoc]
    exact ih (by simp [hm, hf]) (by simp [hf])

/-! ### DMA reads -/

/-- The bytes and the counter a command's reads give depend on the DMA space, the races and the
counter; the state they leave differs in the counter alone. -/
theorem dmaReadBytes_frame (a n : Nat) (s : State) :
    (dmaReadBytes a n s).2 = { s with free := (dmaReadBytes a n s).2.free } := by
  induction n generalizing a s with
  | zero => rfl
  | succ n ih =>
    simp only [dmaReadBytes]
    rw [ih]
    unfold dmaReadByte
    split <;> rfl

theorem dmaReadBytes_length (a n : Nat) (s : State) : (dmaReadBytes a n s).1.length = n := by
  induction n generalizing a s with
  | zero => rfl
  | succ n ih => simp [dmaReadBytes, ih]

/-- With no race on the inputs, the reads give the bytes of the DMA space and leave the state alone. -/
theorem dmaReadBytes_calm (a n : Nat) (s : State) (h : s.racedIn = []) :
    dmaReadBytes a n s = (s.mem.readBytes a n, s) := by
  induction n generalizing a with
  | zero => rfl
  | succ n ih => simp [dmaReadBytes, dmaReadByte, h, ih, Memory.readBytes]

theorem memRead_frame (a n : Nat) (s : State) :
    (memRead a n s).2 = { s with work := (memRead a n s).2.work, free := (memRead a n s).2.free } := by
  unfold memRead
  simp only
  rw [dmaReadBytes_frame]

@[simp] theorem memRead_length (a n : Nat) (s : State) : (memRead a n s).1.length = n :=
  dmaReadBytes_length a n s

/-- MemRead with no race on the inputs. -/
theorem memRead_calm (a n : Nat) (s : State) (h : s.racedIn = []) :
    memRead a n s = (s.mem.readBytes a n, { s with work := s.work ++ s.mem.readBytes a n }) := by
  unfold memRead
  rw [dmaReadBytes_calm a n s h]

/-- A read meets free values, it gives none back. -/
theorem memRead_free_le (a n : Nat) (s : State) : s.free ≤ (memRead a n s).2.free := by
  have h : ∀ a, s.free ≤ (dmaReadBytes a n s).2.free := by
    induction n generalizing s with
    | zero => exact fun _ => Nat.le_refl _
    | succ n ih =>
      intro a
      refine Nat.le_trans ?_ (ih (dmaReadByte a s).2 (a + 1))
      unfold dmaReadByte
      split
      · exact Nat.le_succ _
      · exact Nat.le_refl _
  exact h a

@[simp] theorem memRead_irqEn (a n : Nat) (s : State) : (memRead a n s).2.irqEn = s.irqEn := by
  rw [memRead_frame]
@[simp] theorem memRead_busy (a n : Nat) (s : State) : (memRead a n s).2.busy = s.busy := by
  rw [memRead_frame]
@[simp] theorem memRead_done (a n : Nat) (s : State) : (memRead a n s).2.done = s.done := by
  rw [memRead_frame]
@[simp] theorem memRead_vfail (a n : Nat) (s : State) : (memRead a n s).2.vfail = s.vfail := by
  rw [memRead_frame]
@[simp] theorem memRead_overrun (a n : Nat) (s : State) : (memRead a n s).2.overrun = s.overrun := by
  rw [memRead_frame]
@[simp] theorem memRead_ctxValid (a n : Nat) (s : State) : (memRead a n s).2.ctxValid = s.ctxValid := by
  rw [memRead_frame]
@[simp] theorem memRead_err (a n : Nat) (s : State) : (memRead a n s).2.err = s.err := by
  rw [memRead_frame]
@[simp] theorem memRead_cmd (a n : Nat) (s : State) : (memRead a n s).2.cmd = s.cmd := by
  rw [memRead_frame]
@[simp] theorem memRead_aAddr (a n : Nat) (s : State) : (memRead a n s).2.aAddr = s.aAddr := by
  rw [memRead_frame]
@[simp] theorem memRead_aLen (a n : Nat) (s : State) : (memRead a n s).2.aLen = s.aLen := by
  rw [memRead_frame]
@[simp] theorem memRead_bAddr (a n : Nat) (s : State) : (memRead a n s).2.bAddr = s.bAddr := by
  rw [memRead_frame]
@[simp] theorem memRead_cAddr (a n : Nat) (s : State) : (memRead a n s).2.cAddr = s.cAddr := by
  rw [memRead_frame]
@[simp] theorem memRead_dAddr (a n : Nat) (s : State) : (memRead a n s).2.dAddr = s.dAddr := by
  rw [memRead_frame]
@[simp] theorem memRead_outLen (a n : Nat) (s : State) : (memRead a n s).2.outLen = s.outLen := by
  rw [memRead_frame]
@[simp] theorem memRead_errAddr (a n : Nat) (s : State) : (memRead a n s).2.errAddr = s.errAddr := by
  rw [memRead_frame]
@[simp] theorem memRead_lat (a n : Nat) (s : State) : (memRead a n s).2.lat = s.lat := by
  rw [memRead_frame]
@[simp] theorem memRead_ctxH (a n : Nat) (s : State) : (memRead a n s).2.ctxH = s.ctxH := by
  rw [memRead_frame]
@[simp] theorem memRead_ctxMlen (a n : Nat) (s : State) : (memRead a n s).2.ctxMlen = s.ctxMlen := by
  rw [memRead_frame]
@[simp] theorem memRead_ctxBuf (a n : Nat) (s : State) : (memRead a n s).2.ctxBuf = s.ctxBuf := by
  rw [memRead_frame]
@[simp] theorem memRead_mem (a n : Nat) (s : State) : (memRead a n s).2.mem = s.mem := by
  rw [memRead_frame]
@[simp] theorem memRead_inReset (a n : Nat) (s : State) : (memRead a n s).2.inReset = s.inReset := by
  rw [memRead_frame]
@[simp] theorem memRead_racedIn (a n : Nat) (s : State) : (memRead a n s).2.racedIn = s.racedIn := by
  rw [memRead_frame]
@[simp] theorem memRead_racedOut (a n : Nat) (s : State) : (memRead a n s).2.racedOut = s.racedOut := by
  rw [memRead_frame]
@[simp] theorem memRead_busHoles (a n : Nat) (s : State) : (memRead a n s).2.busHoles = s.busHoles := by
  rw [memRead_frame]
@[simp] theorem memRead_entropy (a n : Nat) (s : State) : (memRead a n s).2.entropy = s.entropy := by
  rw [memRead_frame]
@[simp] theorem memRead_inputs (a n : Nat) (s : State) : (memRead a n s).2.inputs = s.inputs := by
  rw [memRead_frame]
@[simp] theorem memRead_rdata (a n : Nat) (s : State) : (memRead a n s).2.rdata = s.rdata := by
  rw [memRead_frame]

/-! ### The entropy port -/

/-- A read of the entropy port changes the draws to come and the free-value counter, nothing else. -/
theorem entropyRead_frame (s : State) :
    (entropyRead s).2 =
      { s with entropy := (entropyRead s).2.entropy, free := (entropyRead s).2.free } := by
  unfold entropyRead
  split <;> rfl

theorem entropyRead_offered {d : Option (BitVec 256)} {ds : List (Option (BitVec 256))} (s : State)
    (h : s.entropy = d :: ds) : entropyRead s = (d, { s with entropy := ds }) := by
  unfold entropyRead
  rw [h]

theorem entropyRead_empty (s : State) (h : s.entropy = []) :
    entropyRead s = (Config.freeDraw s.free, { s with free := s.free + 1 }) := by
  unfold entropyRead
  rw [h]

/-- The draw a read gets. -/
theorem entropyRead_draw (s : State) :
    (entropyRead s).1 = s.entropy.head?.getD (Config.freeDraw s.free) := by
  unfold entropyRead
  cases s.entropy <;> rfl

@[simp] theorem entropyRead_irqEn (s : State) : (entropyRead s).2.irqEn = s.irqEn := by
  rw [entropyRead_frame]
@[simp] theorem entropyRead_busy (s : State) : (entropyRead s).2.busy = s.busy := by
  rw [entropyRead_frame]
@[simp] theorem entropyRead_done (s : State) : (entropyRead s).2.done = s.done := by
  rw [entropyRead_frame]
@[simp] theorem entropyRead_vfail (s : State) : (entropyRead s).2.vfail = s.vfail := by
  rw [entropyRead_frame]
@[simp] theorem entropyRead_overrun (s : State) : (entropyRead s).2.overrun = s.overrun := by
  rw [entropyRead_frame]
@[simp] theorem entropyRead_ctxValid (s : State) : (entropyRead s).2.ctxValid = s.ctxValid := by
  rw [entropyRead_frame]
@[simp] theorem entropyRead_err (s : State) : (entropyRead s).2.err = s.err := by
  rw [entropyRead_frame]
@[simp] theorem entropyRead_cmd (s : State) : (entropyRead s).2.cmd = s.cmd := by
  rw [entropyRead_frame]
@[simp] theorem entropyRead_aAddr (s : State) : (entropyRead s).2.aAddr = s.aAddr := by
  rw [entropyRead_frame]
@[simp] theorem entropyRead_aLen (s : State) : (entropyRead s).2.aLen = s.aLen := by
  rw [entropyRead_frame]
@[simp] theorem entropyRead_bAddr (s : State) : (entropyRead s).2.bAddr = s.bAddr := by
  rw [entropyRead_frame]
@[simp] theorem entropyRead_cAddr (s : State) : (entropyRead s).2.cAddr = s.cAddr := by
  rw [entropyRead_frame]
@[simp] theorem entropyRead_dAddr (s : State) : (entropyRead s).2.dAddr = s.dAddr := by
  rw [entropyRead_frame]
@[simp] theorem entropyRead_outLen (s : State) : (entropyRead s).2.outLen = s.outLen := by
  rw [entropyRead_frame]
@[simp] theorem entropyRead_errAddr (s : State) : (entropyRead s).2.errAddr = s.errAddr := by
  rw [entropyRead_frame]
@[simp] theorem entropyRead_lat (s : State) : (entropyRead s).2.lat = s.lat := by
  rw [entropyRead_frame]
@[simp] theorem entropyRead_ctxH (s : State) : (entropyRead s).2.ctxH = s.ctxH := by
  rw [entropyRead_frame]
@[simp] theorem entropyRead_ctxMlen (s : State) : (entropyRead s).2.ctxMlen = s.ctxMlen := by
  rw [entropyRead_frame]
@[simp] theorem entropyRead_ctxBuf (s : State) : (entropyRead s).2.ctxBuf = s.ctxBuf := by
  rw [entropyRead_frame]
@[simp] theorem entropyRead_work (s : State) : (entropyRead s).2.work = s.work := by
  rw [entropyRead_frame]
@[simp] theorem entropyRead_mem (s : State) : (entropyRead s).2.mem = s.mem := by
  rw [entropyRead_frame]
@[simp] theorem entropyRead_inReset (s : State) : (entropyRead s).2.inReset = s.inReset := by
  rw [entropyRead_frame]
@[simp] theorem entropyRead_racedIn (s : State) : (entropyRead s).2.racedIn = s.racedIn := by
  rw [entropyRead_frame]
@[simp] theorem entropyRead_racedOut (s : State) : (entropyRead s).2.racedOut = s.racedOut := by
  rw [entropyRead_frame]
@[simp] theorem entropyRead_busHoles (s : State) : (entropyRead s).2.busHoles = s.busHoles := by
  rw [entropyRead_frame]
@[simp] theorem entropyRead_inputs (s : State) : (entropyRead s).2.inputs = s.inputs := by
  rw [entropyRead_frame]
@[simp] theorem entropyRead_rdata (s : State) : (entropyRead s).2.rdata = s.rdata := by
  rw [entropyRead_frame]

/-! ### Completion -/

@[simp] theorem settleRaces_irqEn (s : State) : (settleRaces s).irqEn = s.irqEn := by
  simp [settleRaces]
@[simp] theorem settleRaces_busy (s : State) : (settleRaces s).busy = s.busy := by
  simp [settleRaces]
@[simp] theorem settleRaces_done (s : State) : (settleRaces s).done = s.done := by
  simp [settleRaces]
@[simp] theorem settleRaces_vfail (s : State) : (settleRaces s).vfail = s.vfail := by
  simp [settleRaces]
@[simp] theorem settleRaces_overrun (s : State) : (settleRaces s).overrun = s.overrun := by
  simp [settleRaces]
@[simp] theorem settleRaces_ctxValid (s : State) : (settleRaces s).ctxValid = s.ctxValid := by
  simp [settleRaces]
@[simp] theorem settleRaces_err (s : State) : (settleRaces s).err = s.err := by
  simp [settleRaces]
@[simp] theorem settleRaces_cmd (s : State) : (settleRaces s).cmd = s.cmd := by
  simp [settleRaces]
@[simp] theorem settleRaces_aAddr (s : State) : (settleRaces s).aAddr = s.aAddr := by
  simp [settleRaces]
@[simp] theorem settleRaces_aLen (s : State) : (settleRaces s).aLen = s.aLen := by
  simp [settleRaces]
@[simp] theorem settleRaces_bAddr (s : State) : (settleRaces s).bAddr = s.bAddr := by
  simp [settleRaces]
@[simp] theorem settleRaces_cAddr (s : State) : (settleRaces s).cAddr = s.cAddr := by
  simp [settleRaces]
@[simp] theorem settleRaces_dAddr (s : State) : (settleRaces s).dAddr = s.dAddr := by
  simp [settleRaces]
@[simp] theorem settleRaces_outLen (s : State) : (settleRaces s).outLen = s.outLen := by
  simp [settleRaces]
@[simp] theorem settleRaces_errAddr (s : State) : (settleRaces s).errAddr = s.errAddr := by
  simp [settleRaces]
@[simp] theorem settleRaces_lat (s : State) : (settleRaces s).lat = s.lat := by
  simp [settleRaces]
@[simp] theorem settleRaces_ctxH (s : State) : (settleRaces s).ctxH = s.ctxH := by
  simp [settleRaces]
@[simp] theorem settleRaces_ctxMlen (s : State) : (settleRaces s).ctxMlen = s.ctxMlen := by
  simp [settleRaces]
@[simp] theorem settleRaces_ctxBuf (s : State) : (settleRaces s).ctxBuf = s.ctxBuf := by
  simp [settleRaces]
@[simp] theorem settleRaces_work (s : State) : (settleRaces s).work = s.work := by
  simp [settleRaces]
@[simp] theorem settleRaces_inReset (s : State) : (settleRaces s).inReset = s.inReset := by
  simp [settleRaces]
@[simp] theorem settleRaces_busHoles (s : State) : (settleRaces s).busHoles = s.busHoles := by
  simp [settleRaces]
@[simp] theorem settleRaces_entropy (s : State) : (settleRaces s).entropy = s.entropy := by
  simp [settleRaces]
@[simp] theorem settleRaces_inputs (s : State) : (settleRaces s).inputs = s.inputs := by
  simp [settleRaces]
@[simp] theorem settleRaces_rdata (s : State) : (settleRaces s).rdata = s.rdata := by
  simp [settleRaces]
@[simp] theorem settleRaces_racedIn (s : State) : (settleRaces s).racedIn = [] := rfl
@[simp] theorem settleRaces_racedOut (s : State) : (settleRaces s).racedOut = [] := rfl
theorem settleRaces_mem (s : State) : (settleRaces s).mem = (havoc s.racedOut s).mem := rfl

theorem settleRaces_calm (s : State) (h : DutyKept s) : settleRaces s = s := by
  obtain ⟨h1, h2⟩ := h
  cases s
  simp_all [settleRaces]

@[simp] theorem complete_irqEn (o : CmdOutcome) (s : State) : (complete o s).irqEn = s.irqEn := by
  simp [complete]
@[simp] theorem complete_busy (o : CmdOutcome) (s : State) : (complete o s).busy = false := by
  simp [complete]
@[simp] theorem complete_done (o : CmdOutcome) (s : State) : (complete o s).done = true := by
  simp [complete]
@[simp] theorem complete_overrun (o : CmdOutcome) (s : State) : (complete o s).overrun = s.overrun := by
  simp [complete]
@[simp] theorem complete_ctxValid (o : CmdOutcome) (s : State) : (complete o s).ctxValid = s.ctxValid := by
  simp [complete]
@[simp] theorem complete_cmd (o : CmdOutcome) (s : State) : (complete o s).cmd = s.cmd := by
  simp [complete]
@[simp] theorem complete_aAddr (o : CmdOutcome) (s : State) : (complete o s).aAddr = s.aAddr := by
  simp [complete]
@[simp] theorem complete_aLen (o : CmdOutcome) (s : State) : (complete o s).aLen = s.aLen := by
  simp [complete]
@[simp] theorem complete_bAddr (o : CmdOutcome) (s : State) : (complete o s).bAddr = s.bAddr := by
  simp [complete]
@[simp] theorem complete_cAddr (o : CmdOutcome) (s : State) : (complete o s).cAddr = s.cAddr := by
  simp [complete]
@[simp] theorem complete_dAddr (o : CmdOutcome) (s : State) : (complete o s).dAddr = s.dAddr := by
  simp [complete]
@[simp] theorem complete_lat (o : CmdOutcome) (s : State) : (complete o s).lat = s.lat := by
  simp [complete]
@[simp] theorem complete_ctxH (o : CmdOutcome) (s : State) : (complete o s).ctxH = s.ctxH := by
  simp [complete]
@[simp] theorem complete_ctxMlen (o : CmdOutcome) (s : State) : (complete o s).ctxMlen = s.ctxMlen := by
  simp [complete]
@[simp] theorem complete_ctxBuf (o : CmdOutcome) (s : State) : (complete o s).ctxBuf = s.ctxBuf := by
  simp [complete]
@[simp] theorem complete_work (o : CmdOutcome) (s : State) : (complete o s).work = [] := by
  simp [complete]
@[simp] theorem complete_inReset (o : CmdOutcome) (s : State) : (complete o s).inReset = s.inReset := by
  simp [complete]
@[simp] theorem complete_racedIn (o : CmdOutcome) (s : State) : (complete o s).racedIn = [] := by
  simp [complete]
@[simp] theorem complete_racedOut (o : CmdOutcome) (s : State) : (complete o s).racedOut = [] := by
  simp [complete]
@[simp] theorem complete_busHoles (o : CmdOutcome) (s : State) : (complete o s).busHoles = s.busHoles := by
  simp [complete]
@[simp] theorem complete_entropy (o : CmdOutcome) (s : State) : (complete o s).entropy = s.entropy := by
  simp [complete]
@[simp] theorem complete_inputs (o : CmdOutcome) (s : State) : (complete o s).inputs = s.inputs := by
  simp [complete]
@[simp] theorem complete_rdata (o : CmdOutcome) (s : State) : (complete o s).rdata = s.rdata := by
  simp [complete]
@[simp] theorem complete_mem (o : CmdOutcome) (s : State) :
    (complete o s).mem = (havoc s.racedOut s).mem := rfl

theorem complete_ok_calm (k : Nat) (s : State) (h : DutyKept s) :
    complete (.ok k) s = s.succeeded k := by
  rw [complete, settleRaces_calm s h]
  rfl

theorem verifyFail_calm (s : State) (h : DutyKept s) : verifyFail s = s.failedVerification := by
  rw [verifyFail, complete, settleRaces_calm s h]
  rfl

theorem raiseError_calm (c : ErrorCode) (s : State) (h : DutyKept s) :
    raiseError c s = s.failedWith c := by
  rw [raiseError, complete, settleRaces_calm s h]
  cases c <;> rfl

/-! ### The frame of a command -/

theorem runCommand_passes (i : Instr) (body : State → State) (s : State)
    (h : checkError i s = none) : runCommand i body s = .next (body s) := by
  rw [runCommand, h]

theorem runCommand_fails (i : Instr) (body : State → State) (s : State) (c : ErrorCode)
    (h : checkError i s = some c) : runCommand i body s = .next (raiseError c s) := by
  rw [runCommand, h]

theorem readsThen_ok (i : Instr) (onError rest : State → State) (s : State)
    (h : failingReads i s = []) : readsThen i onError rest s = rest s := by
  rw [readsThen, if_pos h]

theorem readsThen_fails (i : Instr) (onError rest : State → State) (s : State)
    (h : failingReads i s ≠ []) : readsThen i onError rest s = busFail i (onError s) := by
  rw [readsThen, if_neg h]

theorem writeOut_ok (i : Instr) (v : List Byte) (s : State) (h : failingWrites i s = []) :
    writeOut i v s =
      complete (.ok v.length) { s with mem := s.mem.writeBytes s.lat.dAddr.toNat v } := by
  rw [writeOut, if_pos h]

theorem writeOut_fails (i : Instr) (v : List Byte) (s : State) (h : failingWrites i s ≠ []) :
    writeOut i v s = busFail i s := by
  rw [writeOut, if_neg h]

/-- Out(v) with no race and no bus error. -/
theorem writeOut_calm (i : Instr) (v : List Byte) (s : State) (h : failingWrites i s = [])
    (hd : DutyKept s) : writeOut i v s = s.succeededWith v := by
  rw [writeOut_ok i v s h]
  exact complete_ok_calm v.length _ hd

/-! ### What the checks and BUS_RESP look at -/

/-- The checks look at the latches and CTX_VALID only. -/
theorem checkError_congr (i : Instr) {s t : State} (hl : s.lat = t.lat)
    (hc : s.ctxValid = t.ctxValid) : checkError i s = checkError i t := by
  unfold checkError seqFails
  rw [hl, hc]

/-- The failing reads depend on the latches and BUS_RESP only. -/
theorem failingReads_congr (i : Instr) {s t : State} (hl : s.lat = t.lat)
    (hb : s.busHoles = t.busHoles) : failingReads i s = failingReads i t := by
  unfold failingReads State.busError
  rw [hl, hb]

/-- The failing writes depend on the latches and BUS_RESP only. -/
theorem failingWrites_congr (i : Instr) {s t : State} (hl : s.lat = t.lat)
    (hb : s.busHoles = t.busHoles) : failingWrites i s = failingWrites i t := by
  unfold failingWrites State.busError
  rw [hl, hb]

/-- A region is in range as the check sees it when it is in the terms of claims. -/
theorem region_inRange (a : Word) (n : Nat) :
    Region.inRange ⟨a.toNat, n⟩ = true ↔ RegionInRange a n := by
  rw [Region.inRange, Bool.or_eq_true, beq_iff_eq, decide_eq_true_iff]
  exact Iff.rfl

/-- No byte of a region fails when BUS_RESP answers ok for each. -/
theorem addresses_filter_nil (s : State) (dir : AccessDir) (a : Word) (n : Nat) :
    (Region.addresses ⟨a.toNat, n⟩).filter (s.busError dir) = [] ↔ BusAnswersOk s dir a n := by
  simp only [Region.addresses, List.filter_eq_nil_iff, List.mem_range'_1, Bool.not_eq_true]
  constructor
  · intro h k hk
    exact h _ ⟨by omega, by omega⟩
  · rintro h b ⟨h1, h2⟩
    have := h (b - a.toNat) (by omega)
    rwa [Nat.add_sub_cancel' h1] at this

end Sys2Proof.Machine
end

