-- ==== Sys2Proof/Laws/Checks.lean ====
section
/-! SUPPORT. Laws/Checks.lean: the checks and BUS_RESP in the terms claims use (Safety.lean). -/

namespace Sys2Proof.Machine

theorem seqFails_iff (i : Instr) (s : State) : seqFails i s = false ↔ SequenceOk i s := by
  cases i <;> simp [seqFails]

theorem lengthFails_iff (i : Instr) (l : Latches) : lengthFails i l = false ↔ LengthOk i l := by
  cases i
  case sign =>
    simp only [lengthFails, decide_eq_false_iff_not, not_lt]
    exact ⟨fun h _ => h, fun h => h rfl⟩
  all_goals simp [lengthFails]

theorem rangeFails_iff (i : Instr) (l : Latches) : rangeFails i l = false ↔ RangesOk i l := by
  simp only [rangeFails, List.any_eq_false, Bool.not_eq_true, Bool.not_eq_false', Region.inRange,
    Bool.or_eq_true, beq_iff_eq, decide_eq_true_iff]
  exact Iff.rfl

/-- The output region overlapping A, for two regions given by their latches (R67). -/
theorem overlaps_iff (a d : Word) (n m : Nat) :
    Region.overlaps ⟨a.toNat, n⟩ ⟨d.toNat, m⟩ = true ↔ RegionsOverlap d m a n := by
  simp only [Region.overlaps, Bool.and_eq_true, decide_eq_true_iff]
  constructor
  · rintro ⟨⟨⟨h1, h2⟩, h3⟩, h4⟩
    exact ⟨h2, h1, h4, h3⟩
  · rintro ⟨h2, h1, h4, h3⟩
    exact ⟨⟨⟨h1, h2⟩, h3⟩, h4⟩

theorem overlapFails_iff (i : Instr) (l : Latches) :
    overlapFails i l = true ↔ OverlapRefused i l := by
  cases i
  case sign =>
    simp [overlapFails, outputOverlapsA, regionsOf, aRegion, dRegion, overlaps_iff, OverlapRefused]
  case signOpen =>
    by_cases h : 64 ≤ l.aLen.toNat
    · simp [overlapFails, outputOverlapsA, regionsOf, aRegion, dRegion, overlaps_iff,
        OverlapRefused, h]
    · simp [overlapFails, outputOverlapsA, regionsOf, aRegion, OverlapRefused, h]
  case streamXor =>
    simp [overlapFails, outputOverlapsA, regionsOf, aRegion, dRegion, overlaps_iff, OverlapRefused,
      and_comm]
  all_goals simp [overlapFails, OverlapRefused]

/-- The checks pass exactly when every check holds. -/
theorem checkError_none_iff (i : Instr) (s : State) : checkError i s = none ↔ ChecksPass i s := by
  have h1 := seqFails_iff i s
  have h2 := lengthFails_iff i s.lat
  have h3 := rangeFails_iff i s.lat
  have h4 := overlapFails_iff i s.lat
  unfold checkError
  split
  · rename_i h; rw [h] at h1; simp [ChecksPass, ← h1]
  · split
    · rename_i h; rw [h] at h2; simp [ChecksPass, ← h2]
    · split
      · rename_i h; rw [h] at h3; simp [ChecksPass, ← h3]
      · split
        · rename_i h; simp [ChecksPass, h4.mp h]
        · rename_i h5
          simp only [Bool.not_eq_true] at *
          exact ⟨fun _ => ⟨h1.mp ‹_›, h2.mp ‹_›, h3.mp ‹_›, fun ho => by rw [h4.mpr ho] at h5; cases h5⟩,
            fun _ => trivial⟩

/-- What each check error means (R114 to R116, R304). -/
theorem checkError_some (i : Instr) (s : State) {c : ErrorCode} (h : checkError i s = some c) :
    (c = .seq ∧ ¬ SequenceOk i s)
    ∨ (c = .length ∧ SequenceOk i s ∧ ¬ LengthOk i s.lat)
    ∨ (c = .range ∧ SequenceOk i s ∧ LengthOk i s.lat ∧ ¬ RangesOk i s.lat)
    ∨ (c = .overlap ∧ SequenceOk i s ∧ LengthOk i s.lat ∧ RangesOk i s.lat
        ∧ OverlapRefused i s.lat) := by
  rw [← seqFails_iff, ← lengthFails_iff, ← rangeFails_iff, ← overlapFails_iff]
  unfold checkError at h
  split at h
  · exact .inl ⟨by simp_all, by simp_all⟩
  · split at h
    · exact .inr (.inl ⟨by simp_all, by simp_all, by simp_all⟩)
    · split at h
      · exact .inr (.inr (.inl ⟨by simp_all, by simp_all, by simp_all, by simp_all⟩))
      · split at h
        · exact .inr (.inr (.inr ⟨by simp_all, by simp_all, by simp_all, by simp_all, by simp_all⟩))
        · cases h

theorem failingReads_nil_iff (i : Instr) (s : State) :
    failingReads i s = [] ↔ ∀ a ∈ inputAddresses i s.lat, s.busError .read a = false := by
  simp [failingReads]

theorem failingWrites_nil_iff (i : Instr) (s : State) :
    failingWrites i s = [] ↔ ∀ a ∈ outputAddresses i s.lat, s.busError .write a = false := by
  simp [failingWrites]

/-- Every address of a region answers ok when BUS_RESP does for the region. -/
theorem busOk_of_mem {s : State} {dir : AccessDir} {a : Word} {n : Nat}
    (h : BusAnswersOk s dir a n) {b : Nat} (hb : b ∈ Region.addresses ⟨a.toNat, n⟩) :
    s.busError dir b = false := by
  simp only [Region.addresses, List.mem_range'_1] at hb
  have := h (b - a.toNat) (by omega)
  rwa [Nat.add_sub_cancel' hb.1] at this

/-- The bytes of a region that is in range lie in the DMA space. -/
theorem outputAddresses_lt (i : Instr) (l : Latches) (h : RangesOk i l) :
    ∀ a ∈ outputAddresses i l, a < Config.dmaSpace := by
  intro a ha
  simp only [outputAddresses, List.mem_flatMap, Region.addresses, List.mem_range'_1] at ha
  obtain ⟨r, hr, h1, h2⟩ := ha
  have := h r (by simp [Regions.all, hr])
  unfold Config.dmaSpace
  omega

/-- Every input byte of the command can be read when BUS_RESP answers ok for each input region. -/
theorem failingReads_nil {i : Instr} {s : State}
    (h : ∀ r ∈ (regionsOf i s.lat).ins, ∃ a : Word, r.addr = a.toNat ∧ BusAnswersOk s .read a r.len) :
    failingReads i s = [] := by
  rw [failingReads_nil_iff]
  intro a ha
  simp only [inputAddresses, List.mem_flatMap] at ha
  obtain ⟨r, hr, hm⟩ := ha
  obtain ⟨w, h1, h2⟩ := h r hr
  obtain ⟨ra, rl⟩ := r
  simp only at h1 h2
  subst h1
  exact busOk_of_mem h2 hm

/-- Every output byte can be written when BUS_RESP answers ok for the output region. -/
theorem failingWrites_nil {i : Instr} {s : State} {n : Nat}
    (hd : (regionsOf i s.lat).d = some ⟨s.lat.dAddr.toNat, n⟩)
    (h : BusAnswersOk s .write s.lat.dAddr n) : failingWrites i s = [] := by
  rw [failingWrites_nil_iff]
  intro a ha
  simp only [outputAddresses, hd, Option.toList, List.flatMap_cons, List.flatMap_nil,
    List.append_nil] at ha
  exact busOk_of_mem h ha

/-- The range check of a command is that of its four operands. -/
theorem rangesOk_of {i : Instr} {l : Latches}
    (ha : ∀ r, (regionsOf i l).a = some r → r.len = 0 ∨ r.addr + r.len ≤ 4294967296)
    (hb : ∀ r, (regionsOf i l).b = some r → r.len = 0 ∨ r.addr + r.len ≤ 4294967296)
    (hc : ∀ r, (regionsOf i l).c = some r → r.len = 0 ∨ r.addr + r.len ≤ 4294967296)
    (hd : ∀ r, (regionsOf i l).d = some r → r.len = 0 ∨ r.addr + r.len ≤ 4294967296) :
    RangesOk i l := by
  intro r hr
  simp only [Regions.all, List.mem_append, Option.mem_toList] at hr
  rcases hr with ((hr | hr) | hr) | hr
  exacts [ha _ hr, hb _ hr, hc _ hr, hd _ hr]

end Sys2Proof.Machine
end

