-- ==== Sys2Proof/Laws/Lengths.lean ====
section
/-! SUPPORT. Laws/Lengths.lean: how many bytes each algorithm's output has (30_encoding.md R94, the
OUT_LEN column). -/

namespace Sys2Proof.Machine

theorem slice_length (s : List Byte) (i j : Nat) (h : j ≤ s.length) :
    (slice s i j).length = j - i := by
  simp only [slice, List.length_take, List.length_drop]
  omega

@[simp] theorem xorBytes_length (x y : List Byte) :
    (xorBytes x y).length = min x.length y.length := by
  simp [xorBytes]

@[simp] theorem digestBytes_length (h : ChainWords) : (digestBytes h).length = 64 := by
  simp [digestBytes]

@[simp] theorem sha512Hash_length (m : List Byte) : (sha512Hash m).length = 64 :=
  digestBytes_length _

@[simp] theorem finalize_length (s : State) : (finalize s).length = 64 := digestBytes_length _

@[simp] theorem macTag_length (m key : List Byte) : (macTag m key).length = 32 :=
  slice_length _ 0 32 (by simp)

@[simp] theorem encodePoint_length (q : CurvePoint) : (encodePoint q).length = 32 :=
  leBytes_length 32 _

@[simp] theorem affineBytes_length (q : CurvePoint) : (affineBytes q).length = 64 := by
  simp [affineBytes]

theorem addEncoded_length {e1 e2 v : List Byte} (h : addEncoded e1 e2 = some v) : v.length = 32 := by
  unfold addEncoded at h
  split at h
  · cases h; exact encodePoint_length _
  · cases h

@[simp] theorem keyPairBytes_length (seed : List Byte) :
    (keyPairBytes seed).length = 64 + seed.length := by
  simp [keyPairBytes, verifyKeyOf]
  omega

@[simp] theorem signatureBytes_length (mn mc sk : List Byte) :
    (signatureBytes mn mc sk).length = 64 := by
  simp [signatureBytes]

@[simp] theorem signMessage_length (m sk : List Byte) : (signMessage m sk).length = 64 + m.length := by
  simp [signMessage]

@[simp] theorem wordBytes_length (ws : List Word) : (wordBytes ws).length = 4 * ws.length := by
  induction ws with
  | nil => rfl
  | cons w ws ih =>
    simp only [wordBytes, List.flatMap_cons, List.length_append, leBytes_length,
      List.length_cons] at ih ⊢
    omega

@[simp] theorem quarterRound_length (a b c d : Nat) (y : List Word) :
    (quarterRound a b c d y).length = y.length := by
  simp [quarterRound, salsaStep]

@[simp] theorem doubleRounds_length (n : Nat) (y : List Word) :
    (doubleRounds n y).length = y.length := by
  induction n generalizing y with
  | zero => rfl
  | succ n ih => simp [doubleRounds, ih, doubleRound, rowRound, columnRound]

@[simp] theorem salsaPerm_length (y : List Word) : (salsaPerm y).length = y.length :=
  doubleRounds_length 10 y

@[simp] theorem salsaInit_length (k i : List Byte) : (salsaInit k i).length = 16 := rfl

@[simp] theorem salsa20_length (k i : List Byte) : (salsa20 k i).length = 64 := by
  simp [salsa20]

@[simp] theorem hsalsa20_length (k i : List Byte) : (hsalsa20 k i).length = 32 := by
  simp [hsalsa20]

theorem xsalsaBlocks_length (k2 nonce : List Byte) (n : Nat) :
    ((List.range n).flatMap (xsalsaBlock k2 nonce)).length = 64 * n := by
  induction n with
  | zero => rfl
  | succ n ih =>
    rw [List.range_succ, List.flatMap_append, List.length_append, ih]
    simp [xsalsaBlock]
    omega

/-- XS(n, nonce, key) has n bytes (R271). -/
@[simp] theorem xsalsa20_length (n : Nat) (nonce key : List Byte) :
    (xsalsa20 n nonce key).length = n := by
  simp only [xsalsa20, List.length_take, xsalsaBlocks_length]
  omega

end Sys2Proof.Machine
end

