-- ==== Sys2Proof/Laws/Exec.lean ====
section
/-! SUPPORT. Laws/Exec.lean: once, what any command can do: exec_ends. The frames, the invariant and
the error statements follow from it without unfolding a meaning. -/

namespace Sys2Proof.Machine

/-- What the memory just before Complete, and the outcome, are: `s` at the start of the command's
rule, `m` its memory at the end. -/
def OutcomeFits (i : Instr) (s : State) (m : Memory) : CmdOutcome → Prop
  | .ok k =>
    (m = s.mem ∧ k = 0)
    ∨ ∃ v : List Byte, m = s.mem.writeBytes s.lat.dAddr.toNat v ∧ k = v.length
        ∧ (regionsOf i s.lat).d = some ⟨s.lat.dAddr.toNat, v.length⟩
  | .vf => m = s.mem
  | .err c a =>
    (m = s.mem ∧ a = 0#32 ∧ (c = .point ∨ c = .entropy))
    ∨ (c = .bus ∧ (∃ n, m = (havoc (outputAddresses i s.lat) { s with free := n }).mem ∧ s.free ≤ n)
        ∧ ∃ f ∈ failingReads i s ++ failingWrites i s, a = beatAlign Config.dmaBeat f)

/-- `t` is how a command's rule ends from `s`: one completion, with nothing but the output region,
working storage, the entropy port and the free-value counter changed before it. -/
def Ends (i : Instr) (s t : State) : Prop :=
  ∃ (o : CmdOutcome) (s1 : State),
    t = complete o s1
    ∧ s1 = { s with mem := s1.mem, work := s1.work, free := s1.free, entropy := s1.entropy }
    ∧ s.free ≤ s1.free
    ∧ (i ≠ .signKeypair → s1.entropy = s.entropy)
    ∧ OutcomeFits i s s1.mem o

theorem ends_ok (i : Instr) (s : State) : Ends i s (complete (.ok 0) s) :=
  ⟨.ok 0, s, rfl, rfl, Nat.le_refl _, fun _ => rfl, .inl ⟨rfl, rfl⟩⟩

theorem ends_verifyFail (i : Instr) (s : State) : Ends i s (verifyFail s) :=
  ⟨.vf, s, rfl, rfl, Nat.le_refl _, fun _ => rfl, rfl⟩

theorem ends_verdict (i : Instr) (b : Bool) (s : State) : Ends i s (verdict b s) := by
  unfold verdict
  split
  · exact ends_ok i s
  · exact ends_verifyFail i s

theorem ends_raise (i : Instr) (c : ErrorCode) (s : State) (h : c = .point ∨ c = .entropy) :
    Ends i s (raiseError c s) :=
  ⟨.err c 0#32, s, rfl, rfl, Nat.le_refl _, fun _ => rfl, .inl ⟨rfl, rfl, h⟩⟩

/-- A free choice among failing bytes is one of them. -/
theorem chooseFailing_mem {fs : List Nat} (n : Nat) (h : fs ≠ []) : chooseFailing fs n ∈ fs := by
  have hl : Config.freeIndex n % fs.length < fs.length :=
    Nat.mod_lt _ (List.length_pos_iff.mpr h)
  unfold chooseFailing
  rw [List.getD_eq_getElem fs 0 hl]
  exact List.getElem_mem hl

theorem ends_busFail (i : Instr) (s : State) (h : failingReads i s ++ failingWrites i s ≠ []) :
    Ends i s (busFail i s) := by
  refine ⟨_, havoc (outputAddresses i s.lat) { s with free := s.free + 1 }, rfl, ?_, ?_, ?_, ?_⟩
  · rw [havoc_frame]
  · rw [havoc_free]
    exact Nat.le_add_right_of_le (Nat.le_succ _)
  · intro _
    simp
  · exact .inr ⟨rfl, ⟨_, rfl, Nat.le_succ _⟩, _, chooseFailing_mem _ h, rfl⟩

theorem ends_writeOut (i : Instr) (v : List Byte) (s : State)
    (h : (regionsOf i s.lat).d = some ⟨s.lat.dAddr.toNat, v.length⟩) :
    Ends i s (writeOut i v s) := by
  by_cases hw : failingWrites i s = []
  · rw [writeOut_ok i v s hw]
    exact ⟨.ok v.length, _, rfl, rfl, Nat.le_refl _, fun _ => rfl, .inr ⟨v, rfl, rfl, h⟩⟩
  · rw [writeOut_fails i v s hw]
    exact ends_busFail i s (by simp [hw])

theorem ends_writePoint (i : Instr) (v : Option (List Byte)) (s : State)
    (h : ∀ w, v = some w → (regionsOf i s.lat).d = some ⟨s.lat.dAddr.toNat, w.length⟩) :
    Ends i s (writePoint i v s) := by
  unfold writePoint
  split
  · exact ends_writeOut i _ s (h _ rfl)
  · exact ends_raise i .point s (.inl rfl)

theorem ends_ite {i : Instr} {s t u : State} {c : Prop} [Decidable c] (ht : c → Ends i s t)
    (hu : ¬ c → Ends i s u) : Ends i s (if c then t else u) := by
  split
  · exact ht ‹_›
  · exact hu ‹_›

/-- Changes before the rest of a rule that the frame allows. -/
theorem ends_of_frame {i : Instr} {s s' t : State}
    (hf : s' = { s with work := s'.work, free := s'.free, entropy := s'.entropy })
    (hle : s.free ≤ s'.free) (he : i ≠ .signKeypair → s'.entropy = s.entropy) (h : Ends i s' t) :
    Ends i s t := by
  obtain ⟨o, s1, ht, h1, hfree, hent, hout⟩ := h
  have hl : s'.lat = s.lat := by rw [hf]
  have hb : s'.busHoles = s.busHoles := by rw [hf]
  have hm : s'.mem = s.mem := by rw [hf]
  refine ⟨o, s1, ht, ?_, Nat.le_trans hle hfree, fun hi => (hent hi).trans (he hi), ?_⟩
  · rw [h1, hf]
  · cases o with
    | ok k => simpa [OutcomeFits, hl, hm] using hout
    | vf => simpa [OutcomeFits, hm] using hout
    | err c a =>
      rcases hout with h | ⟨hc, ⟨n, hn, hle'⟩, f, hfm, ha⟩
      · exact .inl (by simpa [hm] using h)
      · refine .inr ⟨hc, ⟨n, ?_, Nat.le_trans hle hle'⟩, f, ?_, ha⟩
        · rw [hn]
          simp only [hl]
          refine (havoc_mem_congr _ ?_ ?_).1
          · exact hm
          · rfl
        · rwa [failingReads_congr i hl hb, failingWrites_congr i hl hb] at hfm

theorem ends_memRead {i : Instr} {a n : Nat} {s t : State} (h : Ends i (memRead a n s).2 t) :
    Ends i s t :=
  ends_of_frame (by rw [memRead_frame]) (memRead_free_le a n s) (fun _ => by simp) h

theorem ends_readsThen {i : Instr} {rest : State → State} {s : State} (h : Ends i s (rest s)) :
    Ends i s (readsThen i id rest s) := by
  by_cases hr : failingReads i s = []
  · rwa [readsThen_ok i id rest s hr]
  · rw [readsThen_fails i id rest s hr]
    exact ends_busFail i s (by simp [hr])

/-- The context a command's rule works on, before its completion (R122, R139 to R143). -/
def CtxStep (i : Instr) (s s0 : State) : Prop :=
  if usesHashPipeline i = true ∨ i = .zeroize ∨ i = .sha512Final then s0 = invalidateCtx s
  else if i = .sha512Init then s0 = startCtx s
  else if i = .sha512Update then
    (failingReads i s ≠ [] ∧ s0 = invalidateCtx s)
    ∨ (failingReads i s = [] ∧ ∃ data : List Byte, data.length = s.lat.aLen.toNat ∧ s0 = absorb data s)
  else s0 = s

theorem signatureValid_length {sm vk : List Byte} (h : signatureValid sm vk = true) :
    64 ≤ sm.length := by
  unfold signatureValid at h
  split at h
  · cases h
  · omega

/-- What any command can do: a check error, or an end of its rule. -/
theorem exec_ends (i : Instr) (s : State) :
    (∃ c, checkError i s = some c ∧ exec i s = .next (raiseError c s))
    ∨ (checkError i s = none ∧ ∃ s0 t, exec i s = .next t ∧ CtxStep i s s0 ∧ Ends i s0 t) := by
  cases hc : checkError i s with
  | some c =>
    refine .inl ⟨c, rfl, ?_⟩
    cases i <;> (dsimp only [exec]; exact runCommand_fails _ _ s c hc)
  | none =>
    refine .inr ⟨rfl, ?_⟩
    cases i
    case nop => exact ⟨s, _, runCommand_passes _ _ s hc, rfl, ends_ok _ _⟩
    case zeroize =>
      refine ⟨invalidateCtx s, _, by unfold exec execZeroize; exact runCommand_passes _ _ s hc, rfl, ?_⟩
      exact ends_of_frame (s' := { invalidateCtx s with work := [] }) rfl (Nat.le_refl _)
        (fun _ => rfl) (ends_ok _ _)
    case sha512 =>
      refine ⟨invalidateCtx s, _, by unfold exec execSha512; exact runCommand_passes _ _ s hc, rfl, ends_readsThen ?_⟩
      exact ends_memRead (ends_writeOut _ _ _ (by simp [regionsOf, dRegion]))
    case sha512Init => exact ⟨startCtx s, _, by unfold exec execSha512Init; exact runCommand_passes _ _ s hc, rfl, ends_ok _ _⟩
    case sha512Update =>
      by_cases hr : failingReads .sha512Update s = []
      · refine ⟨absorb (memRead s.lat.aAddr.toNat s.lat.aLen.toNat s).1 s, _,
          by unfold exec execSha512Update; exact runCommand_passes _ _ s hc, .inr ⟨hr, _, memRead_length _ _ _, rfl⟩, ?_⟩
        rw [readsThen_ok _ _ _ _ hr]
        refine ends_of_frame ?_ ?_ ?_ (ends_ok _ _)
        · simp only [absorb]
          rw [memRead_frame]
        · exact memRead_free_le s.lat.aAddr.toNat s.lat.aLen.toNat s
        · intro _
          simp
      · refine ⟨invalidateCtx s, _, by unfold exec execSha512Update; exact runCommand_passes _ _ s hc, .inl ⟨hr, rfl⟩, ?_⟩
        rw [readsThen_fails _ _ _ _ hr]
        exact ends_busFail _ _ (by
          rw [failingReads_congr (s := invalidateCtx s) (t := s) _ rfl rfl]; simp [hr])
    case sha512Final =>
      refine ⟨invalidateCtx s, _, by unfold exec execSha512Final; exact runCommand_passes _ _ s hc, rfl, ?_⟩
      exact ends_writeOut _ _ _ (by simp [regionsOf, dRegion])
    case auth =>
      refine ⟨invalidateCtx s, _, by unfold exec execAuth; exact runCommand_passes _ _ s hc, rfl, ends_readsThen ?_⟩
      exact ends_memRead (ends_memRead (ends_writeOut _ _ _ (by simp [regionsOf, dRegion])))
    case authVerify =>
      refine ⟨invalidateCtx s, _, by unfold exec execAuthVerify; exact runCommand_passes _ _ s hc, rfl, ends_readsThen ?_⟩
      exact ends_memRead (ends_memRead (ends_memRead (ends_verdict _ _ _)))
    case ctCompare =>
      refine ⟨s, _, runCommand_passes _ _ s hc, rfl, ends_readsThen ?_⟩
      exact ends_memRead (ends_memRead (ends_verdict _ _ _))
    case feAdd =>
      refine ⟨s, _, runCommand_passes _ _ s hc, rfl, ends_readsThen ?_⟩
      exact ends_memRead (ends_memRead (ends_writeOut _ _ _ (by simp [regionsOf, dRegion])))
    case feSub =>
      refine ⟨s, _, runCommand_passes _ _ s hc, rfl, ends_readsThen ?_⟩
      exact ends_memRead (ends_memRead (ends_writeOut _ _ _ (by simp [regionsOf, dRegion])))
    case feMul =>
      refine ⟨s, _, runCommand_passes _ _ s hc, rfl, ends_readsThen ?_⟩
      exact ends_memRead (ends_memRead (ends_writeOut _ _ _ (by simp [regionsOf, dRegion])))
    case feInv =>
      refine ⟨s, _, runCommand_passes _ _ s hc, rfl, ends_readsThen ?_⟩
      exact ends_memRead (ends_writeOut _ _ _ (by simp [regionsOf, dRegion]))
    case scReduce =>
      refine ⟨s, _, runCommand_passes _ _ s hc, rfl, ends_readsThen ?_⟩
      exact ends_memRead (ends_writeOut _ _ _ (by simp [regionsOf, dRegion]))
    case scMuladd =>
      refine ⟨s, _, runCommand_passes _ _ s hc, rfl, ends_readsThen ?_⟩
      exact ends_memRead (ends_memRead (ends_memRead
        (ends_writeOut _ _ _ (by simp [regionsOf, dRegion]))))
    case ptDecode =>
      refine ⟨s, _, runCommand_passes _ _ s hc, rfl, ends_readsThen ?_⟩
      refine ends_memRead (ends_writePoint _ _ _ fun w hw => ?_)
      obtain ⟨q, -, rfl⟩ := Option.map_eq_some_iff.mp hw
      simp [regionsOf, dRegion]
    case ptEncode =>
      refine ⟨s, _, runCommand_passes _ _ s hc, rfl, ends_readsThen ?_⟩
      refine ends_memRead (ends_writePoint _ _ _ fun w hw => ?_)
      obtain ⟨q, -, rfl⟩ := Option.map_eq_some_iff.mp hw
      simp [regionsOf, dRegion]
    case ptAdd =>
      refine ⟨s, _, runCommand_passes _ _ s hc, rfl, ends_readsThen ?_⟩
      refine ends_memRead (ends_memRead (ends_writePoint _ _ _ fun w hw => ?_))
      simp [regionsOf, dRegion, addEncoded_length hw]
    case ptScalarmult =>
      refine ⟨s, _, runCommand_passes _ _ s hc, rfl, ends_readsThen ?_⟩
      refine ends_memRead (ends_memRead (ends_writePoint _ _ _ fun w hw => ?_))
      obtain ⟨q, -, rfl⟩ := Option.map_eq_some_iff.mp hw
      simp [regionsOf, dRegion]
    case ptScalarmultBase =>
      refine ⟨s, _, runCommand_passes _ _ s hc, rfl, ends_readsThen ?_⟩
      exact ends_memRead (ends_writeOut _ _ _ (by simp [regionsOf, dRegion]))
    case signKeypair =>
      refine ⟨invalidateCtx s, _, by unfold exec execSignKeypair; exact runCommand_passes _ _ s hc, rfl, ?_⟩
      have hle : (invalidateCtx s).free ≤ (entropyRead (invalidateCtx s)).2.free := by
        unfold entropyRead
        split
        · exact Nat.le_refl _
        · exact Nat.le_succ _
      refine ends_of_frame (s' := (entropyRead (invalidateCtx s)).2) (by rw [entropyRead_frame]) hle
        (fun h => absurd rfl h) ?_
      dsimp only
      split
      · exact ends_raise _ _ _ (.inr rfl)
      · exact ends_writeOut _ _ _ (by simp [regionsOf, dRegion])
    case signPublickey =>
      refine ⟨invalidateCtx s, _, by unfold exec execSignPublickey; exact runCommand_passes _ _ s hc, rfl, ends_readsThen ?_⟩
      exact ends_memRead (ends_writeOut _ _ _ (by simp [regionsOf, dRegion]))
    case sign =>
      refine ⟨invalidateCtx s, _, by unfold exec execSign; exact runCommand_passes _ _ s hc, rfl, ends_readsThen ?_⟩
      exact ends_memRead (ends_memRead (ends_memRead (ends_memRead
        (ends_writeOut _ _ _ (by simp [regionsOf, dRegion])))))
    case signOpen =>
      refine ⟨invalidateCtx s, _, by unfold exec execSignOpen; exact runCommand_passes _ _ s hc, rfl, ends_readsThen ?_⟩
      refine ends_memRead (a := s.lat.aAddr.toNat) (n := s.lat.aLen.toNat)
        (ends_memRead (a := s.lat.cAddr.toNat) (n := 32)
          (ends_memRead (a := s.lat.aAddr.toNat + 64) (n := s.lat.aLen.toNat - 64) ?_))
      dsimp only [invalidateCtx_lat, id]
      refine ends_ite (fun hv => ?_) fun _ => ends_verifyFail _ _
      have := signatureValid_length hv
      rw [memRead_length] at this
      exact ends_writeOut _ _ _ (by simpa [regionsOf, dRegion] using this)
    case hsalsa20 =>
      refine ⟨s, _, runCommand_passes _ _ s hc, rfl, ends_readsThen ?_⟩
      exact ends_memRead (ends_memRead (ends_writeOut _ _ _ (by simp [regionsOf, dRegion])))
    case salsa20Block =>
      refine ⟨s, _, runCommand_passes _ _ s hc, rfl, ends_readsThen ?_⟩
      exact ends_memRead (ends_memRead (ends_writeOut _ _ _ (by simp [regionsOf, dRegion])))
    case stream =>
      refine ⟨s, _, runCommand_passes _ _ s hc, rfl, ends_readsThen ?_⟩
      exact ends_memRead (ends_memRead (ends_writeOut _ _ _ (by simp [regionsOf, dRegion])))
    case streamXor =>
      refine ⟨s, _, runCommand_passes _ _ s hc, rfl, ends_readsThen ?_⟩
      exact ends_memRead (ends_memRead (ends_memRead
        (ends_writeOut _ _ _ (by simp [regionsOf, dRegion]))))

/-- The context work of a command changes the context and nothing else. -/
theorem ctxStep_frame {i : Instr} {s s0 : State} (h : CtxStep i s s0) :
    s0 = { s with
      ctxValid := s0.ctxValid, ctxH := s0.ctxH, ctxMlen := s0.ctxMlen, ctxBuf := s0.ctxBuf } := by
  unfold CtxStep at h
  split at h
  · rw [h]
    rfl
  · split at h
    · rw [h]
      rfl
    · split at h
      · rcases h with ⟨_, h⟩ | ⟨_, _, _, h⟩ <;> rw [h] <;> rfl
      · rw [h]

/-- Every command answers a next state. -/
theorem exec_next (i : Instr) (s : State) : ∃ t, exec i s = .next t := by
  rcases exec_ends i s with ⟨c, -, h⟩ | ⟨-, _, t, h, -⟩
  · exact ⟨_, h⟩
  · exact ⟨t, h⟩

/-- The error a completion reports. -/
theorem complete_err_code (c : ErrorCode) (a : Word) (s : State) :
    (complete (.err c a) s).err = c := by
  cases c <;> rfl

/-- The memory just before a completion is in canonical form when it was so at the START. -/
theorem outcomeFits_wf {i : Instr} {s s1 : State} {o : CmdOutcome} (ho : OutcomeFits i s s1.mem o)
    (hm : s.mem.wf) (hr : RangesOk i s.lat) : s1.mem.wf := by
  cases o with
  | ok k =>
    rcases ho with ⟨h, -⟩ | ⟨v, h, -, hd⟩
    · rw [h]
      exact hm
    · rw [h]
      have hv := hr _ (show (⟨s.lat.dAddr.toNat, v.length⟩ : Region) ∈ _ by simp [Regions.all, hd])
      refine Memory.writeBytes_wf hm ?_
      rcases hv with h | h
      · exact .inl (List.eq_nil_of_length_eq_zero h)
      · exact .inr h
  | vf =>
    rw [show s1.mem = s.mem from ho]
    exact hm
  | err c a =>
    rcases ho with ⟨h, -⟩ | ⟨-, ⟨n, h, -⟩, -⟩
    · rw [h]
      exact hm
    · rw [h]
      exact havoc_wf _ _ hm (outputAddresses_lt i s.lat hr)

end Sys2Proof.Machine
end

