-- ==== Sys2Proof/Laws/FieldPrime.lean ====
section
/-! SUPPORT. Laws/FieldPrime.lean: p = 2^255 - 19 is prime (R180), by Lucas's test down the chain of the
prime factors of p - 1; and the field operations in the integers mod p (R182 to R184). -/

namespace Sys2Proof.Machine

/-- Lucas's primality test: a has order n - 1 mod n. -/
theorem prime_of_lucas (n a : Nat) (fs : List Nat) (h1 : 1 < n) (hn : n < 2 ^ 256)
    (hf : ∀ q ∈ fs, q.Prime) (hprod : fs.prod = n - 1) (ha : powMod a (n - 1) n = 1)
    (hq : ∀ q ∈ fs, powMod a ((n - 1) / q) n ≠ 1) : n.Prime := by
  have cast : ∀ e, e < 2 ^ 256 → ((powMod a e n : Nat) : ZMod n) = (a : ZMod n) ^ e := by
    intro e he
    rw [powMod_eq _ _ _ he, ZMod.natCast_mod, Nat.cast_pow]
  refine lucas_primality n (a : ZMod n) ?_ fun q hqp hd h => ?_
  · rw [← cast _ (by omega), ha, Nat.cast_one]
  · rw [← hprod] at hd
    obtain ⟨r, hr, hqr⟩ := (Nat.Prime.prime hqp).dvd_prod_iff.mp hd
    obtain rfl := (Nat.prime_dvd_prime_iff_eq hqp (hf r hr)).mp hqr
    have hlt : (n - 1) / q < 2 ^ 256 := lt_of_le_of_lt (Nat.div_le_self _ _) (by omega)
    refine hq q hr ?_
    rw [← cast _ hlt] at h
    have := (ZMod.natCast_eq_natCast_iff' _ 1 n).mp (by simpa using h)
    rw [powMod_eq _ _ _ hlt] at this ⊢
    rwa [Nat.mod_mod, Nat.mod_eq_of_lt h1] at this

theorem prime_569003 : Nat.Prime 569003 := by
  refine prime_of_lucas _ 2
    [2, 7, 97, 419]
    (by norm_num) (by norm_num) ?_ (by norm_num) (by decide +kernel) (by decide +kernel)
  simp only [List.mem_cons, List.not_mem_nil, or_false, forall_eq_or_imp, forall_eq]
  exact ⟨by norm_num, by norm_num, by norm_num, by norm_num⟩

theorem prime_2773320623 : Nat.Prime 2773320623 := by
  refine prime_of_lucas _ 5
    [2, 2437, 569003]
    (by norm_num) (by norm_num) ?_ (by norm_num) (by decide +kernel) (by decide +kernel)
  simp only [List.mem_cons, List.not_mem_nil, or_false, forall_eq_or_imp, forall_eq]
  exact ⟨by norm_num, by norm_num, prime_569003⟩

theorem prime_72106336199 : Nat.Prime 72106336199 := by
  refine prime_of_lucas _ 7
    [2, 13, 2773320623]
    (by norm_num) (by norm_num) ?_ (by norm_num) (by decide +kernel) (by decide +kernel)
  simp only [List.mem_cons, List.not_mem_nil, or_false, forall_eq_or_imp, forall_eq]
  exact ⟨by norm_num, by norm_num, prime_2773320623⟩

theorem prime_8574133 : Nat.Prime 8574133 := by
  refine prime_of_lucas _ 2
    [2, 2, 3, 7, 103, 991]
    (by norm_num) (by norm_num) ?_ (by norm_num) (by decide +kernel) (by decide +kernel)
  simp only [List.mem_cons, List.not_mem_nil, or_false, forall_eq_or_imp, forall_eq]
  exact ⟨by norm_num, by norm_num, by norm_num, by norm_num, by norm_num, by norm_num⟩

theorem prime_p4 : Nat.Prime 1919519569386763 := by
  refine prime_of_lucas _ 2
    [2, 3, 7, 19, 47, 47, 127, 8574133]
    (by norm_num) (by norm_num) ?_ (by norm_num) (by decide +kernel) (by decide +kernel)
  simp only [List.mem_cons, List.not_mem_nil, or_false, forall_eq_or_imp, forall_eq]
  exact ⟨
    by norm_num, by norm_num, by norm_num, by norm_num, by norm_num, by norm_num, by norm_num,
    prime_8574133⟩

theorem prime_p3 : Nat.Prime 75445702479781427272750846543864801 := by
  refine prime_of_lucas _ 7
    [2, 2, 2, 2, 2, 3, 3, 5, 5, 75707, 72106336199, 1919519569386763]
    (by norm_num) (by norm_num) ?_ (by norm_num) (by decide +kernel) (by decide +kernel)
  simp only [List.mem_cons, List.not_mem_nil, or_false, forall_eq_or_imp, forall_eq]
  exact ⟨
    by norm_num, by norm_num, by norm_num, by norm_num, by norm_num, by norm_num, by norm_num,
    by norm_num, by norm_num, by norm_num, prime_72106336199, prime_p4⟩

theorem prime_430751 : Nat.Prime 430751 := by
  refine prime_of_lucas _ 17
    [2, 5, 5, 5, 1723]
    (by norm_num) (by norm_num) ?_ (by norm_num) (by decide +kernel) (by decide +kernel)
  simp only [List.mem_cons, List.not_mem_nil, or_false, forall_eq_or_imp, forall_eq]
  exact ⟨by norm_num, by norm_num, by norm_num, by norm_num, by norm_num⟩

theorem prime_p5 : Nat.Prime 31757755568855353 := by
  refine prime_of_lucas _ 10
    [2, 2, 2, 3, 31, 107, 223, 4153, 430751]
    (by norm_num) (by norm_num) ?_ (by norm_num) (by decide +kernel) (by decide +kernel)
  simp only [List.mem_cons, List.not_mem_nil, or_false, forall_eq_or_imp, forall_eq]
  exact ⟨
    by norm_num, by norm_num, by norm_num, by norm_num, by norm_num, by norm_num, by norm_num,
    by norm_num, prime_430751⟩

theorem prime_p2 : Nat.Prime 74058212732561358302231226437062788676166966415465897661863160754340907 := by
  refine prime_of_lucas _ 2
    [2, 3, 353, 57467, 132049, 1923133, 31757755568855353, 75445702479781427272750846543864801]
    (by norm_num) (by norm_num) ?_ (by norm_num) (by decide +kernel) (by decide +kernel)
  simp only [List.mem_cons, List.not_mem_nil, or_false, forall_eq_or_imp, forall_eq]
  exact ⟨
    by norm_num, by norm_num, by norm_num, by norm_num, by norm_num, by norm_num, prime_p5,
    prime_p3⟩

/-- p is prime (R180). -/
theorem fieldP_prime : fieldP.Prime := by
  refine prime_of_lucas _ 2
    [2, 2, 3, 65147, 74058212732561358302231226437062788676166966415465897661863160754340907]
    (by decide) (by unfold fieldP; norm_num) ?_ (by unfold fieldP; norm_num) (by decide +kernel)
    (by decide +kernel)
  simp only [List.mem_cons, List.not_mem_nil, or_false, forall_eq_or_imp, forall_eq]
  exact ⟨by norm_num, by norm_num, by norm_num, by norm_num, prime_p2⟩

/-! ### The field operations mod p -/

theorem fieldAdd_cast (x y : Nat) : ((fieldAdd x y : Nat) : ZMod fieldP) = x + y := by
  rw [fieldAdd, ZMod.natCast_mod, Nat.cast_add]

theorem fieldSub_cast (x y : Nat) : ((fieldSub x y : Nat) : ZMod fieldP) = x - y := by
  rw [fieldSub, ZMod.natCast_mod, Nat.cast_add,
    Nat.cast_sub (Nat.le_of_lt (Nat.mod_lt _ fieldP_prime.pos)), ZMod.natCast_mod,
    ZMod.natCast_self]
  ring

theorem fieldMul_cast (x y : Nat) : ((fieldMul x y : Nat) : ZMod fieldP) = x * y := by
  rw [fieldMul, ZMod.natCast_mod, Nat.cast_mul]

end Sys2Proof.Machine
end

