-- ==== Sys2Proof/Laws/Hash.lean ====
section
/-! SUPPORT. Laws/Hash.lean: compression of a long message in parts (41_sha512.md R130, R140). -/

namespace Sys2Proof.Machine

/-- Compressing a + b blocks is compressing the first a and then the b after them. -/
theorem compressBlocks_add (a b : Nat) (h : ChainWords) (m : List Byte) :
    compressBlocks (a + b) h m = compressBlocks b (compressBlocks a h m) (m.drop (128 * a)) := by
  induction a generalizing h m with
  | zero => simp [compressBlocks]
  | succ a ih =>
    rw [Nat.succ_add, compressBlocks, compressBlocks, ih, List.drop_drop]
    congr 2
    omega

/-- Bytes after the n blocks that are compressed do not matter. -/
theorem compressBlocks_append (n : Nat) (h : ChainWords) (m x : List Byte) (hl : 128 * n ≤ m.length) :
    compressBlocks n h (m ++ x) = compressBlocks n h m := by
  induction n generalizing h m with
  | zero => rfl
  | succ n ih =>
    rw [compressBlocks, compressBlocks, List.take_append_of_le_length (by omega),
      List.drop_append_of_le_length (by omega), ih _ _ (by rw [List.length_drop]; omega)]

/-- The padding depends on the length of the last block only, but for the bit length. -/
theorem shaPadding_mod (n bytes : Nat) : shaPadding (n % 128) bytes = shaPadding n bytes := by
  simp [shaPadding, padZeros]

end Sys2Proof.Machine
end

