-- ==== Sys2Proof/Laws/HostPort.lean ====
section
/-! SUPPORT. Laws/HostPort.lean: what the operations of the outside world do, once each: an access to
the register window, a reset, a write of STATUS, another agent's load of a DMA byte. -/

namespace Sys2Proof.Machine

/-- A 32-bit access at an aligned offset touches the window and is aligned in it (R60). -/
theorem window_access_aligned (off : Nat) (h : off < 256) (h4 : off % 4 = 0) :
    touchesWindow (Config.mmioBase + off) .b32 = true
    ∧ alignedInWindow (Config.mmioBase + off) .b32 = true := by
  simp only [touchesWindow, alignedInWindow, Bool.and_eq_true, decide_eq_true_iff,
    Nat.add_sub_cancel_left]
  simp only [Config.mmioSize, AccessSize.bytes]
  exact ⟨⟨by omega, by omega⟩, ⟨trivial, by omega⟩, h4⟩

/-- Every access that starts in the window touches it. -/
theorem touchesWindow_inside (off : Nat) (size : AccessSize) (h : off < 256) :
    touchesWindow (Config.mmioBase + off) size = true := by
  simp only [touchesWindow, Bool.and_eq_true, decide_eq_true_iff]
  cases size <;> simp only [Config.mmioSize, AccessSize.bytes] <;> constructor <;> omega

/-- An access that starts in the window is aligned when it is 32 bits wide at an aligned offset. -/
theorem alignedInWindow_inside (off : Nat) (size : AccessSize) :
    alignedInWindow (Config.mmioBase + off) size = decide (size = .b32 ∧ off % 4 = 0) := by
  unfold alignedInWindow
  rw [Nat.add_sub_cancel_left, decide_eq_true (Nat.le_add_right _ _), Bool.and_true]
  exact (Bool.decide_and _ _).symm

/-- An aligned write of a window offset does that offset's write (R22, R60). -/
theorem windowAccess_aligned (off : Nat) (act : Nat → State → State) (s : State)
    (hr : s.inReset = false) (h : off < 256) (h4 : off % 4 = 0) :
    windowAccess (Config.mmioBase + off) .b32 act s = .next (act off s) := by
  obtain ⟨h1, h2⟩ := window_access_aligned off h h4
  simp only [windowAccess, h1, h2, if_true, hr, Nat.add_sub_cancel_left]
  rfl

/-- A read of STATUS outside reset returns its word and changes nothing else (R23, R27). -/
theorem readStatus_eq (s : State) (hr : s.inReset = false) :
    readStatus s = .next { s with rdata := statusWord s } := by
  rw [readStatus, windowAccess_aligned (regOffset .status) loadWindow s hr (by decide) (by decide),
    loadWindow]
  rfl

/-- BUSY is bit 0 of STATUS (R27). -/
theorem statusWord_busy (s : State) : (statusWord s).getLsbD 0 = s.busy := by
  unfold statusWord flagBit
  rw [BitVec.getLsbD_append]
  cases s.busy <;> rfl

/-- One turn of the loop `wait` outside reset: it goes on exactly when the core is BUSY (R99). -/
theorem pollStatus_eq (again : HostEvent) (s : State) (hr : s.inReset = false) :
    pollStatus again s = .next
      (if s.busy then { s with inputs := again :: s.inputs, rdata := statusWord s }
        else { s with rdata := statusWord s }) := by
  have hb := statusWord_busy s
  unfold pollStatus
  rw [readStatus_eq s hr]
  generalize statusWord s = w at hb
  simp only [hb]

/-- While the reset input is asserted no turn of the loop `wait` is modelled (R340, I14). -/
theorem pollStatus_reset (again : HostEvent) (s : State) (hr : s.inReset = true) :
    pollStatus again s = .refused (.windowInReset (Config.mmioBase + regOffset .status)) := by
  have h : readStatus s
      = .refused (.windowInReset (Config.mmioBase + regOffset .status)) := by
    unfold readStatus windowAccess
    rw [if_pos (touchesWindow_inside _ _ (by decide)), if_pos hr]
  unfold pollStatus
  rw [h]

/-- Once its reads of the BUSY core are done, the loop `wait` gives the core its turn (R119). -/
theorem waitStep_turn (s : State) (hb : s.busy = true) :
    waitStep 0 s = coreStep { s with inputs := .wait 0 :: s.inputs } := by
  unfold waitStep
  exact if_pos hb

/-- A write of STATUS changes DONE and OVERRUN only (R27). -/
theorem writeStatus_frame (v : Word) (s : State) :
    writeStatus v s =
      { s with done := (writeStatus v s).done, overrun := (writeStatus v s).overrun } := rfl

/-- Reset leaves the core's state at its reset values and the world outside as it was (R46, R340). -/
theorem resetStep_frame (s : State) :
    resetStep s = { State.reset with
      mem := (resetStep s).mem, free := (resetStep s).free, inputs := s.inputs
      inReset := s.inReset, busHoles := s.busHoles, entropy := s.entropy, rdata := s.rdata } := by
  unfold resetStep resetCore abortCommand
  rw [havoc_frame]

/-- What another agent's load takes: at most one free value. -/
theorem countLoad_frame (a : Word) (s : State) :
    countLoad a s = { s with free := (countLoad a s).free } := by
  unfold countLoad
  split <;> rfl

/-- Another agent's load changes the value returned and the free-value counter only (R78). -/
theorem dmaLoadByte_frame (a : Word) (s : State) :
    dmaLoadByte a s =
      { s with rdata := (dmaLoadByte a s).rdata, free := (dmaLoadByte a s).free } := by
  unfold dmaLoadByte
  rw [countLoad_frame]

/-- Another agent's load of a byte that is no active output byte returns the byte. -/
theorem dmaLoadByte_idle (a : Word) (s : State) (h : a.toNat ∉ activeOutputs s) :
    dmaLoadByte a s = { s with rdata := (s.mem.read a.toNat).setWidth 32 } := by
  simp only [dmaLoadByte, countLoad, if_neg h]

/-- Another agent's load of an active output byte meets one free value. -/
theorem dmaLoadByte_active (a : Word) (s : State) (h : a.toNat ∈ activeOutputs s) :
    dmaLoadByte a s =
      { s with rdata := (activeOutputByte a.toNat s).setWidth 32, free := s.free + 1 } := by
  simp only [dmaLoadByte, countLoad, if_pos h]

/-- What a look ahead finds: a later end, or a step that ends BUSY and sets DONE. -/
theorem endOr_some {go : State → Option (State × State)} {s last u : State}
    {o : Host.Outcome State Fault Refusal} (h : endOr go s o = some (last, u)) :
    ∃ t, o = .next t ∧ ((t.busy = true ∧ go t = some (last, u))
      ∨ (last = s ∧ t = u ∧ u.busy = false ∧ u.done = true)) := by
  cases o with
  | next t =>
    simp only [endOr] at h
    refine ⟨t, rfl, ?_⟩
    split at h
    · exact .inl ⟨‹_›, h⟩
    · split at h
      · obtain ⟨rfl, rfl⟩ := Prod.mk.inj (Option.some.inj h)
        exact .inr ⟨rfl, rfl, by simp_all, ‹_›⟩
      · cases h
  | fault _ => cases h
  | refused _ => cases h

theorem waitEnd_done {polls : Nat} {s last u : State} (h : waitEnd polls s = some (last, u)) :
    u.busy = false ∧ u.done = true := by
  induction polls generalizing s with
  | zero =>
    obtain ⟨t, -, ⟨-, h⟩ | ⟨-, -, h⟩⟩ := endOr_some h
    · cases h
    · exact h
  | succ polls ih =>
    obtain ⟨t, -, ⟨-, h⟩ | ⟨-, -, h⟩⟩ := endOr_some h
    · exact ih h
    · exact h

/-- One event of a look ahead that is no `wait`. -/
theorem commandEnd_cons (e : HostEvent) (es : List HostEvent) (s : State)
    (h : ∀ polls, e ≠ .wait polls) :
    commandEnd (e :: es) s = endOr (commandEnd es) s (eventStep countLoad e s) := by
  cases e with
  | wait polls => exact absurd rfl (h polls)
  | _ => rfl

/-- The state a command completes in is IDLE with DONE set (R117). -/
theorem commandEnd_done {es : List HostEvent} {s last u : State}
    (h : commandEnd es s = some (last, u)) : u.busy = false ∧ u.done = true := by
  induction es generalizing s with
  | nil =>
    obtain ⟨t, -, ⟨-, h⟩ | ⟨-, -, h⟩⟩ := endOr_some h
    · cases h
    · exact h
  | cons e es ih =>
    by_cases he : ∃ polls, e = .wait polls
    · obtain ⟨polls, rfl⟩ := he
      exact waitEnd_done (polls := polls) h
    · rw [commandEnd_cons e es s fun polls hp => he ⟨polls, hp⟩] at h
      obtain ⟨t, -, ⟨-, h⟩ | ⟨-, -, h⟩⟩ := endOr_some h
      · exact ih h
      · exact h

/-- What a load of an active output byte returns when the command completes without E_BUS and no
agent writes the byte while BUSY: its value before the START or its final value (R78, I11). -/
theorem activeOutputByte_completes {a : Nat} {s last t : State}
    (ht : commandEnd s.inputs { s with free := s.free + 1 } = some (last, t)) (he : t.err ≠ .bus)
    (ha : a ∉ last.racedOut) :
    activeOutputByte a s = s.mem.read a ∨ activeOutputByte a s = t.mem.read a := by
  simp only [activeOutputByte, ht, he, ha, or_self, if_false]
  split
  · exact .inr rfl
  · exact .inl rfl

/-- What it returns when the command completes with E_BUS or another agent writes the byte while BUSY:
any value. -/
theorem activeOutputByte_any {a : Nat} {s last t : State}
    (ht : commandEnd s.inputs { s with free := s.free + 1 } = some (last, t))
    (h : t.err = .bus ∨ a ∈ last.racedOut) : activeOutputByte a s = Config.freeByte s.free := by
  simp only [activeOutputByte, ht, h, if_true]

end Sys2Proof.Machine
end

