-- ==== Sys2Proof/Laws/PerInstr.lean ====
section
/-! SUPPORT. Laws/PerInstr.lean: the family CommandWord: what every command's encoding is as a word of
30_encoding.md R90 and R95, one lemma per command. -/

namespace Sys2Proof.Laws.CommandWord

/-- The command's encoding is a well-formed command word: its OPCODE field is the command's assigned
opcode, its RSVD field is 0, and the word is below 0x100 (R90, R92, R95). -/
def Statement (i : Instr) : Prop :=
  opcodeField (encode i) = opcodeOf i ∧ commandWordWf (encode i) = true ∧ (encode i).toNat < 256

theorem nop : Statement .nop := by unfold Statement; decide
theorem zeroize : Statement .zeroize := by unfold Statement; decide
theorem sha512 : Statement .sha512 := by unfold Statement; decide
theorem sha512Init : Statement .sha512Init := by unfold Statement; decide
theorem sha512Update : Statement .sha512Update := by unfold Statement; decide
theorem sha512Final : Statement .sha512Final := by unfold Statement; decide
theorem auth : Statement .auth := by unfold Statement; decide
theorem authVerify : Statement .authVerify := by unfold Statement; decide
theorem ctCompare : Statement .ctCompare := by unfold Statement; decide
theorem feAdd : Statement .feAdd := by unfold Statement; decide
theorem feSub : Statement .feSub := by unfold Statement; decide
theorem feMul : Statement .feMul := by unfold Statement; decide
theorem feInv : Statement .feInv := by unfold Statement; decide
theorem scReduce : Statement .scReduce := by unfold Statement; decide
theorem scMuladd : Statement .scMuladd := by unfold Statement; decide
theorem ptDecode : Statement .ptDecode := by unfold Statement; decide
theorem ptEncode : Statement .ptEncode := by unfold Statement; decide
theorem ptAdd : Statement .ptAdd := by unfold Statement; decide
theorem ptScalarmult : Statement .ptScalarmult := by unfold Statement; decide
theorem ptScalarmultBase : Statement .ptScalarmultBase := by unfold Statement; decide
theorem signKeypair : Statement .signKeypair := by unfold Statement; decide
theorem signPublickey : Statement .signPublickey := by unfold Statement; decide
theorem sign : Statement .sign := by unfold Statement; decide
theorem signOpen : Statement .signOpen := by unfold Statement; decide
theorem hsalsa20 : Statement .hsalsa20 := by unfold Statement; decide
theorem salsa20Block : Statement .salsa20Block := by unfold Statement; decide
theorem stream : Statement .stream := by unfold Statement; decide
theorem streamXor : Statement .streamXor := by unfold Statement; decide

end Sys2Proof.Laws.CommandWord
end

