-- ==== Sys2Proof/Tests/Slice0.lean ====
section
/-! SUPPORT. Tests/Slice0.lean: the package's own tests. Expected values come from the spec: the opcode
map of 30_encoding.md R92 and R95, the vectors of 95_test_vectors.md (named K, H, M, F, Q, S, X, V as
there), and the numbered rules where a docstring says so. The witness theorems show, for each
statement of Certificates/Slice0/Obligations.lean with hypotheses, states and operands that meet
them. -/

namespace Sys2Proof.Tests

open Sys2Proof Sys2Proof.Machine

-- one test at a time: together they would need too much memory
set_option Elab.async false

/-! ### Decoding: words written out from R90 and R92 -/

theorem test_decode_control :
    decodeWord 0x00000000#32 = .command .nop ∧ decodeWord 0x00000001#32 = .command .zeroize := by
  decide

theorem test_decode_hash :
    decodeWord 0x00000010#32 = .command .sha512 ∧ decodeWord 0x00000011#32 = .command .sha512Init
    ∧ decodeWord 0x00000012#32 = .command .sha512Update
    ∧ decodeWord 0x00000013#32 = .command .sha512Final := by
  decide

theorem test_decode_mac :
    decodeWord 0x00000020#32 = .command .auth ∧ decodeWord 0x00000021#32 = .command .authVerify
    ∧ decodeWord 0x00000022#32 = .command .ctCompare := by
  decide

theorem test_decode_field :
    decodeWord 0x00000030#32 = .command .feAdd ∧ decodeWord 0x00000031#32 = .command .feSub
    ∧ decodeWord 0x00000032#32 = .command .feMul ∧ decodeWord 0x00000033#32 = .command .feInv
    ∧ decodeWord 0x00000038#32 = .command .scReduce
    ∧ decodeWord 0x00000039#32 = .command .scMuladd := by
  decide

theorem test_decode_point :
    decodeWord 0x00000040#32 = .command .ptDecode ∧ decodeWord 0x00000041#32 = .command .ptEncode
    ∧ decodeWord 0x00000042#32 = .command .ptAdd
    ∧ decodeWord 0x00000043#32 = .command .ptScalarmult
    ∧ decodeWord 0x00000044#32 = .command .ptScalarmultBase := by
  decide

theorem test_decode_signature :
    decodeWord 0x00000050#32 = .command .signKeypair
    ∧ decodeWord 0x00000051#32 = .command .signPublickey
    ∧ decodeWord 0x00000052#32 = .command .sign ∧ decodeWord 0x00000053#32 = .command .signOpen := by
  decide

theorem test_decode_stream :
    decodeWord 0x00000060#32 = .command .hsalsa20
    ∧ decodeWord 0x00000061#32 = .command .salsa20Block
    ∧ decodeWord 0x00000062#32 = .command .stream
    ∧ decodeWord 0x00000063#32 = .command .streamXor := by
  decide

/-- K3, K4, K5, K6. -/
theorem test_decode_illegal :
    decodeWord 0x00000002#32 = .badOpcode 0x02#8 ∧ decodeWord 0x000000FF#32 = .badOpcode 0xFF#8
    ∧ decodeWord 0x00000110#32 = .badRsvd 1#24 ∧ decodeWord 0x00000164#32 = .badOpcode 0x64#8 := by
  decide

/-- The two ends of every unassigned range of R95. -/
theorem test_decode_unassigned :
    ([0x02, 0x0F, 0x14, 0x1F, 0x23, 0x2F, 0x34, 0x37, 0x3A, 0x3F, 0x45, 0x4F, 0x54, 0x5F, 0x64,
      0xFF].all fun op => decodeWord (BitVec.ofNat 32 op) == .badOpcode (BitVec.ofNat 8 op)) = true := by
  decide

/-- Byte lanes (R61), bytes left over, and a string too short for a command word (R96). -/
theorem test_decode_bytes :
    decodeBytes [0x63#8, 0#8, 0#8, 0#8, 7#8] = (.command .streamXor, [7#8])
    ∧ decodeBytes [0x10#8, 1#8, 0#8, 0#8] = (.badRsvd 1#24, [])
    ∧ decodeBytes [0x10#8, 0#8, 0#8] = (.truncated, [0x10#8, 0#8, 0#8]) := by
  decide

theorem test_decode_table_word :
    decodeTableWord 32 0x53 = some .signOpen ∧ decodeTableWord 32 0x110 = none
    ∧ decodeTableWord 32 0x02 = none := by
  decide

/-! ### WellFormed: one ill-formed term for each check -/

theorem test_wf_word_unassigned : commandWordWf 0x00000014#32 = false := by decide

theorem test_wf_word_rsvd : commandWordWf 0x80000010#32 = false := by decide

theorem test_wf_word_good : commandWordWf 0x00000010#32 = true := by decide

/-- FE_ADD needs b, c and d and takes no a and no length (R94, R98). -/
theorem test_wf_operand_missing :
    (HostStmt.command .feAdd ⟨none, none, none, some 1#32, some 2#32⟩).wf = false
    ∧ (HostStmt.command .feAdd ⟨none, none, some 0#32, none, some 2#32⟩).wf = false
    ∧ (HostStmt.command .feAdd ⟨none, none, some 0#32, some 1#32, none⟩).wf = false
    ∧ (HostStmt.command .sha512 ⟨none, some 3#32, none, none, some 2#32⟩).wf = false
    ∧ (HostStmt.command .stream ⟨none, none, some 0#32, some 1#32, some 2#32⟩).wf = false := by
  decide

theorem test_wf_operand_extra :
    (HostStmt.call .feInv ⟨some 9#32, none, some 0#32, none, some 2#32⟩).wf = false
    ∧ (HostStmt.call .feInv ⟨none, some 9#32, some 0#32, none, some 2#32⟩).wf = false
    ∧ (HostStmt.call .feInv ⟨none, none, some 0#32, some 1#32, some 2#32⟩).wf = false
    ∧ (HostStmt.call .nop ⟨none, none, some 0#32, none, none⟩).wf = false
    ∧ (HostStmt.call .nop ⟨none, none, none, none, some 0#32⟩).wf = false := by
  decide

theorem test_wf_command_good :
    (HostStmt.call .feInv ⟨none, none, some 0#32, none, some 2#32⟩).wf = true := by
  decide

theorem test_wf_offset :
    (HostStmt.wr 0x00A 0#32).wf = false ∧ (HostStmt.rd 0x100).wf = false
    ∧ (HostStmt.wr 0x0FC 0#32).wf = true := by
  decide

theorem test_wf_mem_past_end :
    (HostStmt.mem 0xFFFFFFFF#32 [1#8, 2#8]).wf = false
    ∧ (HostStmt.mem 0xFFFFFFFF#32 [1#8]).wf = true := by
  decide

/-! ### One command from a small state -/

/-- The n bytes a hexadecimal numeral of 2n digits spells, first digits first. -/
def hexBytes (n v : Nat) : List Byte :=
  (List.range n).map fun k => BitVec.ofNat 8 (v / 256 ^ (n - 1 - k))

/-- A memory holding these byte strings. -/
def memOf (l : List (Nat × List Byte)) : Memory := l.foldl (fun m c => m.writeBytes c.1 c.2) []

/-- The core BUSY with a command, its latched operands and a DMA space. -/
def ready (i : Instr) (a n b c d : Nat) (m : Memory) : State :=
  { State.reset with
    busy := true, mem := m
    lat := ⟨encode i, BitVec.ofNat 32 a, BitVec.ofNat 32 n, BitVec.ofNat 32 b, BitVec.ofNat 32 c,
      BitVec.ofNat 32 d⟩ }

/-- STATUS, OUT_LEN and the first `len` bytes at lat[D_ADDR] after one step. -/
def outcomeOf (s : State) (len : Nat) : Option (Word × Word × List Byte) :=
  match step s with
  | .next t => some (statusWord t, t.outLen, t.mem.readBytes s.lat.dAddr.toNat len)
  | _ => none

/-- STATUS after one step. -/
def statusOf (s : State) : Option Word := (outcomeOf s 0).map Prod.fst

/-- K1. -/
theorem test_nop : outcomeOf (ready .nop 0 0 0 0 0 []) 1 = some (0x00000002#32, 0#32, [0#8]) := by
  decide

/-- K2: after SHA512_INIT, ZEROIZE clears CTX_VALID. -/
theorem test_zeroize :
    statusOf { ready .zeroize 0 0 0 0 0 [] with ctxValid := true, ctxH := shaIv }
      = some 0x00000002#32 := by
  decide

/-- H2. -/
theorem test_sha512_abc :
    outcomeOf (ready .sha512 0x1000 3 0 0 0x2000 (memOf [(0x1000, hexBytes 3 0x616263)])) 64
      = some (0x00000002#32, 0x40#32, hexBytes 64
          0xddaf35a193617abacc417349ae20413112e6fa4e89a97ea20a9eeee64b55d39a2192992a274fc1a836ba3c23a3feebbd454d4423643ce80e2a9ac94fa54ca49f) := by
  decide +kernel

/-- K10. -/
theorem test_sha512_range : statusOf (ready .sha512 0xFFFFFFF0 0x20 0 0 0x100 []) = some 0x00000502#32 := by
  decide

/-- H9: STATUS after SHA512_INIT, and the first chaining word of R134. -/
theorem test_sha512_init :
    statusOf (ready .sha512Init 0 0 0 0 0 []) = some 0x00000012#32 := by
  decide

/-- A valid context with nothing absorbed. -/
def withCtx (s : State) : State := startCtx s

/-- H9, R140: STATUS after SHA512_UPDATE of two bytes; they wait in CTX_BUF. -/
theorem test_sha512_update :
    (match step (withCtx (ready .sha512Update 0x1000 2 0 0 0 (memOf [(0x1000, hexBytes 2 0x6162)]))) with
      | .next t => some (statusWord t, t.ctxBuf, t.ctxMlen)
      | _ => none)
      = some (0x00000012#32, [0x61#8, 0x62#8], 2#128) := by
  decide

/-- H13. -/
theorem test_sha512_update_range :
    statusOf (withCtx (ready .sha512Update 0xFFFFFFF0 0x20 0 0 0 [])) = some 0x00000512#32 := by
  decide

/-- H10: SHA512_INIT then SHA512_FINAL gives H1's digest. -/
theorem test_sha512_final :
    outcomeOf (withCtx (ready .sha512Final 0 0 0 0 0x3000 [])) 64
      = some (0x00000002#32, 0x40#32, hexBytes 64
          0xcf83e1357eefb8bdf1542850d66d8007d620e4050b5715dc83f4a921d36ce9ce47d0d13c5d85f2b0ff8318d2877eec2f63b931bd47417a81a538327af927da3e) := by
  decide +kernel

/-- K7. -/
theorem test_sha512_final_seq : statusOf (ready .sha512Final 0 0 0 0 0x3000 []) = some 0x00000302#32 := by
  decide

/-- The key 000102..1f of M1 to M6. -/
def macKey : List Byte := hexBytes 32 0x000102030405060708090a0b0c0d0e0f101112131415161718191a1b1c1d1e1f

/-- M6. -/
theorem test_auth :
    outcomeOf (ready .auth 0x100 5 0x200 0 0x300
        (memOf [(0x100, hexBytes 5 0x68656c6c6f), (0x200, macKey)])) 32
      = some (0x00000002#32, 0x20#32,
          hexBytes 32 0x1119cda219b4627affec99ade627df56247a9cc2f64a83ec76778b21d9398245) := by
  decide +kernel

/-- M2. -/
theorem test_auth_verify_good :
    statusOf (ready .authVerify 0x100 0 0x200 0x300 0
        (memOf [(0x200, macKey),
          (0x300, hexBytes 32 0xb04a70f45e9529968060f0026344d5f4da59f1c3ce228245f6bb088d7b8aa9fc)]))
      = some 0x00000002#32 := by
  decide +kernel

/-- M3: the last tag byte changed from fc to fd. -/
theorem test_auth_verify_bad :
    statusOf (ready .authVerify 0x100 0 0x200 0x300 0
        (memOf [(0x200, macKey),
          (0x300, hexBytes 32 0xb04a70f45e9529968060f0026344d5f4da59f1c3ce228245f6bb088d7b8aa9fd)]))
      = some 0x00000006#32 := by
  decide +kernel

/-- M8. -/
theorem test_ct_compare_differs :
    statusOf (ready .ctCompare 0x100 4 0 0x200 0
      (memOf [(0x100, hexBytes 4 0x00112233), (0x200, hexBytes 4 0x00112234)])) = some 0x00000006#32 := by
  decide

/-- M11: the range check of A. -/
theorem test_ct_compare_range :
    statusOf (ready .ctCompare 0xFFFFFFFC 8 0 0 0 []) = some 0x00000502#32 := by
  decide

/-- F2: 2^256 - 1 is not reduced before it is added. -/
theorem test_fe_add :
    outcomeOf (ready .feAdd 0 0 0x100 0x200 0x300 (memOf [(0x100, List.replicate 32 0xFF#8)])) 32
      = some (0x00000002#32, 0x20#32, 0x25#8 :: List.replicate 31 0#8) := by
  decide +kernel

/-- F3. -/
theorem test_fe_sub :
    outcomeOf (ready .feSub 0 0 0x100 0x200 0x300 (memOf [(0x200, [1#8])])) 32
      = some (0x00000002#32, 0x20#32,
          hexBytes 32 0xecffffffffffffffffffffffffffffffffffffffffffffffffffffffffffff7f) := by
  decide +kernel

/-- F6: the product wraps: 2^256 mod p = 38. -/
theorem test_fe_mul :
    outcomeOf (ready .feMul 0 0 0x100 0x200 0x300 (memOf [(0x110, [1#8]), (0x210, [1#8])])) 32
      = some (0x00000002#32, 0x20#32, 0x26#8 :: List.replicate 31 0#8) := by
  decide +kernel

/-- F7. -/
theorem test_fe_inv :
    outcomeOf (ready .feInv 0 0 0x100 0 0x300 (memOf [(0x100, [2#8])])) 32
      = some (0x00000002#32, 0x20#32,
          hexBytes 32 0xf7ffffffffffffffffffffffffffffffffffffffffffffffffffffffffffff3f) := by
  decide +kernel

/-- F9: the inverse of 0 is 0 and no error. -/
theorem test_fe_inv_zero :
    outcomeOf (ready .feInv 0 0 0x100 0 0x300 []) 32
      = some (0x00000002#32, 0x20#32, List.replicate 32 0#8) := by
  decide +kernel

/-- F13. -/
theorem test_sc_reduce :
    outcomeOf (ready .scReduce 0 0 0x100 0 0x300 (memOf [(0x100, List.replicate 64 0xFF#8)])) 32
      = some (0x00000002#32, 0x20#32,
          hexBytes 32 0x000f9c44e31106a447938568a71b0ed065bef517d273ecce3d9a307c1b419903) := by
  decide +kernel

/-- F15: B = 2, C = 3, A = 4. -/
theorem test_sc_muladd :
    outcomeOf (ready .scMuladd 0x180 7 0x100 0x140 0x300
        (memOf [(0x100, [2#8]), (0x140, [3#8]), (0x180, [4#8])])) 32
      = some (0x00000002#32, 0x20#32, 0x0A#8 :: List.replicate 31 0#8) := by
  decide +kernel

/-- ENC(B) (R203, R206). -/
def encB : List Byte := 0x58#8 :: List.replicate 31 0x66#8

/-- Q1. -/
theorem test_pt_decode :
    outcomeOf (ready .ptDecode 0 0 0x100 0 0x300 (memOf [(0x100, encB)])) 64
      = some (0x00000002#32, 0x40#32,
          hexBytes 32 0x1ad5258f602d56c9b2a7259560c72c695cdcd6fd31e2a4c0fe536ecdd3366921 ++ encB) := by
  decide +kernel

/-- Q4: x = 0 with sign bit 1. -/
theorem test_pt_decode_negative_zero :
    outcomeOf (ready .ptDecode 0 0 0x100 0 0x300 (memOf [(0x100, [1#8]), (0x11F, [0x80#8])])) 64
      = some (0x00000802#32, 0#32, List.replicate 64 0#8) := by
  decide +kernel

/-- Q6. -/
theorem test_pt_encode :
    outcomeOf (ready .ptEncode 0 0 0x100 0 0x300 (memOf [(0x120, [1#8])])) 32
      = some (0x00000002#32, 0x20#32, 1#8 :: List.replicate 31 0#8) := by
  decide +kernel

/-- Q7. -/
theorem test_pt_encode_off_curve :
    statusOf (ready .ptEncode 0 0 0x100 0 0x300 (memOf [(0x100, [1#8]), (0x120, [1#8])]))
      = some 0x00000802#32 := by
  decide +kernel

/-- Q17: B + (-B) is the identity. -/
theorem test_pt_add :
    outcomeOf (ready .ptAdd 0 0 0x100 0x140 0x300
        (memOf [(0x100, encB), (0x140, encB), (0x15F, [0xE6#8])])) 32
      = some (0x00000002#32, 0x20#32, 1#8 :: List.replicate 31 0#8) := by
  decide +kernel

/-- Q22: the first operand fails to decode. -/
theorem test_pt_add_invalid :
    statusOf (ready .ptAdd 0 0 0x100 0x140 0x300 (memOf [(0x100, [2#8]), (0x140, encB)]))
      = some 0x00000802#32 := by
  decide +kernel

/-- Q21. -/
theorem test_pt_scalarmult :
    outcomeOf (ready .ptScalarmult 0 0 0x100 0x140 0x300 (memOf [(0x100, [3#8]), (0x140, encB)])) 32
      = some (0x00000002#32, 0x20#32,
          hexBytes 32 0xd4b4f5784868c3020403246717ec169ff79e26608ea126a1ab69ee77d1b16712) := by
  decide +kernel

/-- Q10. -/
theorem test_pt_scalarmult_base :
    outcomeOf (ready .ptScalarmultBase 0 0 0x100 0 0x300 (memOf [(0x100, [2#8])])) 32
      = some (0x00000002#32, 0x20#32,
          hexBytes 32 0xc9a3f86aae465f0e56513864510f3997561fa2c9e85ea21dc2292309f3cd6022) := by
  decide +kernel

/-- S3: an entropy failure. -/
theorem test_sign_keypair_entropy :
    outcomeOf { ready .signKeypair 0 0 0 0 0x100 [] with entropy := [none], ctxValid := true } 96
      = some (0x00000902#32, 0#32, List.replicate 96 0#8) := by
  decide +kernel

/-- R116: the 96-byte output region ends one byte past 2^32. -/
theorem test_sign_publickey_range :
    statusOf (ready .signPublickey 0 0 0x100 0 0xFFFFFFA1 []) = some 0x00000502#32 := by
  decide

/-- K8: E_LENGTH is not raised at 2^32 - 65; with D_ADDR = 1 the regions overlap. -/
theorem test_sign_overlap :
    statusOf (ready .sign 0 0xFFFFFFBF 0x1000 0 1 []) = some 0x00000602#32 := by
  decide

/-- K9. -/
theorem test_sign_length :
    statusOf (ready .sign 0 0xFFFFFFC0 0x1000 0 0x2000 []) = some 0x00000402#32 := by
  decide

/-- S10: 63 bytes are a verification failure, not an error. -/
theorem test_sign_open_short :
    statusOf (ready .signOpen 0x500 63 0 0x200 0x600 []) = some 0x00000006#32 := by
  decide +kernel

/-- S13: a vk that does not decode gives VFAIL, not E_POINT. -/
theorem test_sign_open_bad_key :
    statusOf (ready .signOpen 0x500 64 0 0x200 0x600
        (memOf [(0x200, [2#8]), (0x500, hexBytes 64
          0xe5564300c360ac729086e2cc806e828a84877f1eb8e5d974d873e065224901555fb8821590a33bacc61e39701cf9b46bd25bf5f0595bbe24655141438e7a100b)]))
      = some 0x00000006#32 := by
  decide +kernel

/-- V4. -/
theorem test_hsalsa20 :
    outcomeOf (ready .hsalsa20 0 0 0x100 0x200 0x300 (memOf [(0x100, hexBytes 32
          0x4a5d9d5ba4ce2de1728e3bf480350f25e07e21c947d19e3376f09b3c1e161742)])) 32
      = some (0x00000002#32, 0x20#32,
          hexBytes 32 0x1b27556473e985d462cd51197a9a46c76009549eac6474f206c4ee0844f68389) := by
  decide +kernel

/-- X3. -/
theorem test_salsa20_block :
    outcomeOf (ready .salsa20Block 0 0 0x100 0x200 0x300
        (memOf [(0x100, (List.range 32).map fun k => BitVec.ofNat 8 (k + 1)),
          (0x200, (List.range 16).map fun k => BitVec.ofNat 8 (k + 101))])) 64
      = some (0x00000002#32, 0x40#32, hexBytes 64
          0x324f709c8292fd30f895962e471e6dc1cfb322bbc3f60d57941e8a47eec9484037a422f24ccbdff7afa88f77d3e0898a36a3c737684de7a4bca374f90270aa3e) := by
  decide +kernel

/-- X6's operands, cut to 66 bytes (R271): the bytes after the block boundary; A_ADDR is not used. -/
theorem test_stream :
    (match step (ready .stream 0xFFFFFFFF 66 0x100 0x200 0x300
        (memOf [(0x100, (List.range 32).map fun k => BitVec.ofNat 8 (k + 1)),
          (0x200, (List.range 24).map fun k => BitVec.ofNat 8 (k + 100))])) with
      | .next t => some (statusWord t, t.outLen, t.mem.readBytes 0x300 2, t.mem.readBytes 0x340 3)
      | _ => none)
      = some (0x00000002#32, 0x42#32, [0xd8#8, 0x6f#8], [0x66#8, 0x58#8, 0#8]) := by
  decide +kernel

/-- X5: n = 0 at any D_ADDR. -/
theorem test_stream_empty :
    outcomeOf (ready .stream 0 0 0x100 0x200 0xFFFFFFFF []) 0 = some (0x00000002#32, 0#32, []) := by
  decide +kernel

/-- The stream key and nonce of V1. -/
def streamOperands : List (Nat × List Byte) :=
  [(0x100, hexBytes 32 0x1b27556473e985d462cd51197a9a46c76009549eac6474f206c4ee0844f68389),
   (0x140, hexBytes 24 0x69696ee955b62b73cd62bda875fc73d68219e0036b7a0b37)]

/-- X8, exactly in place (K14). -/
theorem test_stream_xor_in_place :
    outcomeOf (ready .streamXor 0x200 5 0x100 0x140 0x200
        (memOf ((0x200, hexBytes 5 0x68656c6c6f) :: streamOperands))) 5
      = some (0x00000002#32, 5#32, hexBytes 5 0x86c3cb4973) := by
  decide +kernel

/-- K13. -/
theorem test_stream_xor_overlap :
    statusOf (ready .streamXor 0x200 5 0x100 0x140 0x202 []) = some 0x00000602#32 := by
  decide

/-! ### Illegal words, bus errors, the register window -/

/-- K5. -/
theorem test_rsvd_error :
    statusOf { ready .nop 0 0 0 0 0 [] with lat := ⟨0x110#32, 0#32, 0#32, 0#32, 0#32, 0#32⟩ }
      = some 0x00000202#32 := by
  decide

/-- K22, but for ERR_ADDR, which depends on the open parameter DMA_BEAT. -/
theorem test_bus_error :
    (match step { ready .sha512 0x1000 16 0 0 0x2000 [] with
        ctxValid := true, busHoles := [⟨.read, 0x1003, 1⟩] } with
      | .next t => some (statusWord t, t.outLen)
      | _ => none)
      = some (0x00000702#32, 0#32) := by
  decide +kernel

/-- K18: SOFT_RESET wins, and the write's IRQ_EN is discarded. -/
theorem test_ctrl_soft_reset :
    writeWindow 0x008 0x7#32 { ready .nop 0 0 0 0 0 [] with busy := false, cmd := 0x10#32 }
      = State.reset := by
  decide

/-- K19, K20: IRQ after a completion with IRQ_EN, and its acknowledgement. -/
theorem test_irq_and_ack :
    (match step { writeWindow 0x008 0x5#32 State.reset with inputs := [] } with
      | .next t => some (statusWord t, ctrlWord t, t.irq, statusWord (writeWindow 0x00C 2#32 t),
          (writeWindow 0x00C 2#32 t).irq)
      | _ => none)
      = some (0x00000002#32, 0x00000004#32, true, 0#32, false) := by
  decide

/-- K21: a second START while BUSY sets OVERRUN, which the completion keeps and clrovr clears. -/
theorem test_overrun :
    (match step (writeWindow 0x008 0x1#32 (ready .nop 0 0 0 0 0 [])) with
      | .next t => some (statusWord (writeWindow 0x008 0x1#32 (ready .nop 0 0 0 0 0 [])), statusWord t,
          statusWord (writeWindow 0x00C 8#32 t))
      | _ => none)
      = some (0x00000009#32, 0x0000000A#32, 0x00000002#32) := by
  decide

/-- R22, R37: reset values of the window as a host reads them. -/
theorem test_window_after_reset :
    [0x000, 0x004, 0x008, 0x00C, 0x010, 0x02C, 0x030, 0x0FC].map (fun o => readWindow o State.reset)
      = [0x4E41434C#32, 1#32, 0#32, 0#32, 0#32, 0#32, 0#32, 0#32] := by
  decide

/-- R60, I5: a host access that is not an aligned 32-bit access is a fault of the host program. -/
theorem test_window_access_fault :
    step { State.reset with inputs := [.load (Config.mmioBase + 2) .b32] }
      = .fault (.windowAccess (Config.mmioBase + 2) .b32) := by
  simp only [step, nextStep, hostStep, eventStep, windowAccess, touchesWindow_inside 2 .b32 (by decide),
    alignedInWindow_inside 2 .b32]
  rfl

/-- R340, I14: no access is modelled while the reset input is asserted. -/
theorem test_window_in_reset :
    step { State.reset with inReset := true, inputs := [rdEvent 0x00C] }
      = .refused (.windowInReset (Config.mmioBase + 0x00C)) := by
  simp only [step, nextStep, rdEvent, hostStep, eventStep, windowAccess,
    touchesWindow_inside 0x00C .b32 (by decide)]
  rfl

/-- The example of R98: AUTH a=0x1000,3 b=0x2000 d=0x3000. -/
theorem test_command_statement :
    stmtEvents false (.command .auth ⟨some 0x1000#32, some 3#32, some 0x2000#32, none, some 0x3000#32⟩)
      = [wrEvent 0x014 0x1000#32, wrEvent 0x018 3#32, wrEvent 0x01C 0x2000#32, wrEvent 0x024 0x3000#32,
         wrEvent 0x010 0x20#32, wrEvent 0x008 0x1#32] := rfl

/-- R119, R345: after a START, a STATUS read before or after the core's turn; and R99: a wait of which
three reads see the core BUSY. -/
theorem test_program_schedules :
    withTimings [⟨false, 0⟩, ⟨false, 0⟩] (programEvents false [.go, .rd 0x00C])
      = [wrEvent 0x008 0x1#32, rdEvent 0x00C]
    ∧ withTimings [⟨false, 0⟩, ⟨true, 0⟩] (programEvents false [.go, .rd 0x00C])
      = [wrEvent 0x008 0x1#32, .coreTurn, rdEvent 0x00C]
    ∧ withTimings [⟨false, 0⟩, ⟨false, 3⟩] (programEvents false [.go, .wait])
      = [wrEvent 0x008 0x1#32, .wait 3] := ⟨rfl, rfl, rfl⟩

/-- R99, R354: a wait goes on after a read of BUSY = 1 and ends after a read of BUSY = 0. -/
theorem test_wait_loops :
    (∃ t, step { ready .nop 0 0 0 0 0 [] with inputs := [.wait 2] } = .next t
      ∧ t.rdata = 1#32 ∧ t.busy = true ∧ t.inputs = [.wait 1])
    ∧ ∃ t, step { State.reset with inputs := [.wait 2] } = .next t ∧ t.rdata = 0#32 ∧ t.inputs = [] := by
  constructor
  · simp only [step, nextStep, hostStep, eventStep, waitStep]
    rw [pollStatus_eq _ _ rfl]
    exact ⟨_, rfl, by decide, by decide, by decide⟩
  · simp only [step, nextStep, hostStep, eventStep, waitStep]
    rw [pollStatus_eq _ _ rfl]
    exact ⟨_, rfl, by decide, by decide⟩

/-- FE_ADD of 1 and 2 in progress, with 7 in the first byte at D. -/
def adding : State :=
  ready .feAdd 0 0 0x100 0x200 0x300 (memOf [(0x100, [1#8]), (0x200, [2#8]), (0x300, [7#8])])

/-- R78, I11: the final value of an active output byte is that of the command's completion, with what
the outside world does first; a byte another agent writes before it is seen as raced, E_BUS is seen, and
there is no final value when a reset aborts the command (R342). -/
theorem test_final_value :
    (commandEnd [.dmaLoad 0x300#32, .coreTurn] adding).map
        (fun p => (p.1.racedOut, p.2.err, p.2.mem.read 0x300)) = some ([], .none, 3#8)
    ∧ (commandEnd [.dmaStore 0x300#32 9#8] adding).map (fun p => (p.1.racedOut, p.2.err))
      = some ([0x300], .none)
    ∧ (commandEnd [.setBus [⟨.write, 0x31F, 1⟩]] adding).map (fun p => p.2.err) = some .bus
    ∧ (commandEnd [.assertReset] adding).isNone = true := by
  decide +kernel

/-- R78: another agent's load of D's first byte gives 7 or 3. -/
theorem test_dma_load_active :
    activeOutputByte 0x300 adding = 7#8 ∨ activeOutputByte 0x300 adding = 3#8 := by
  have h : (commandEnd adding.inputs { adding with free := adding.free + 1 }).map
      (fun p => (p.1.racedOut, p.2.err, p.2.mem.read 0x300)) = some ([], .none, 3#8) := by
    decide +kernel
  obtain ⟨⟨last, t⟩, ht, he⟩ := Option.map_eq_some_iff.mp h
  obtain ⟨hr, he⟩ := Prod.mk.inj he
  obtain ⟨he, hm⟩ := Prod.mk.inj he
  dsimp only at hr he hm
  rcases activeOutputByte_completes ht (by rw [he]; decide) (a := 0x300) (by rw [hr]; decide)
    with h | h
  · exact .inl (h.trans (by decide))
  · exact .inr (h.trans hm)

/-- The canonical form of memory: writing what an unlisted address reads as removes the entry. -/
theorem test_memory_canonical :
    State.reset.mem.wf ∧ Memory.write (Memory.write [] 5 7#8) 5 0#8 = []
    ∧ Memory.write (Memory.write [] 5 7#8) 3 9#8 = [(3, 9#8), (5, 7#8)] := by
  decide

/-! ### Witnesses: states and operands that meet the hypotheses of each obligation -/

/-- Regions that end exactly at 2^32: A of 32, B of 64, C of 32 and D of 96 bytes. -/
def high : State := ready .sha512 0xFFFFFFE0 32 0xFFFFFFC0 0xFFFFFFE0 0xFFFFFFA0 []

/-- Regions at the low end, with A and D apart: A of 67 bytes at 0, D at 67. -/
def low : State :=
  ready .sign 0 67 0x200 0x300 67 (memOf [(0x200, encB), (0x220, encB), (0x300, encB)])

/-- `high` with the 32 bytes at B and at C the encoding of the base point. -/
def highPoint : State := { high with mem := memOf [(0xFFFFFFC0, encB), (0xFFFFFFE0, encB)] }

theorem witness_IllegalWordsRejected :
    (0x02 ≤ ((0x00000102#32).extractLsb' 0 8).toNat ∧ ((0x00000102#32).extractLsb' 0 8).toNat ≤ 0x0F)
    ∧ (0x64 ≤ ((0xFFFFFFFF#32).extractLsb' 0 8).toNat ∧ ((0xFFFFFFFF#32).extractLsb' 0 8).toNat ≤ 0xFF)
    ∧ (((0x00000163#32).extractLsb' 0 8).toNat = 0x63 ∧ (0x00000163#32).extractLsb' 8 24 ≠ 0#24)
    ∧ (((0x00000063#32).extractLsb' 0 8).toNat = 0x63 ∧ (0x00000063#32).extractLsb' 8 24 = 0#24) := by
  decide

theorem witness_StepRunsDecodedCommand :
    high.busy = true ∧ decodeBytes (lanesOfWord high.lat.cmd) = (.command .sha512, [])
    ∧ high.inputs = []
    ∧ ({ high with inputs := [.coreTurn] } : State).inputs = .coreTurn :: []
    ∧ ({ high with inputs := [.wait 0] } : State).inputs = .wait 0 :: [] := by
  decide

/-- `high` with a latched word that decodes to no command. -/
def illegal (w : Word) : State := { high with lat := { high.lat with cmd := w } }

theorem witness_UndecodedWordEndsWithError :
    (illegal 0x64#32).busy = true ∧ (illegal 0x64#32).inputs = [] ∧ DutyKept (illegal 0x64#32)
    ∧ decodeWord (illegal 0x64#32).lat.cmd = .badOpcode 0x64#8
    ∧ (illegal 0x163#32).busy = true ∧ (illegal 0x163#32).inputs = [] ∧ DutyKept (illegal 0x163#32)
    ∧ decodeWord (illegal 0x163#32).lat.cmd = .badRsvd 1#24 := by
  decide

theorem witness_CtrlWriteEffects :
    (0x7#32).getLsbD 1 = true
    ∧ ((0xFFFFFFF8#32).getLsbD 1 = false ∧ (0xFFFFFFF8#32).getLsbD 0 = false)
    ∧ ((0x5#32).getLsbD 1 = false ∧ (0x5#32).getLsbD 0 = true ∧ high.busy = true)
    ∧ ((0x5#32).getLsbD 1 = false ∧ (0x5#32).getLsbD 0 = true ∧ State.reset.busy = false) := by
  decide

theorem witness_AcceptedStartLatches :
    let s : State := { State.reset with inputs := [wrEvent 0x008 0x5#32] }
    s.inputs = wrEvent 0x008 0x5#32 :: [] ∧ s.inReset = false ∧ s.busy = false
    ∧ (0x5#32).getLsbD 0 = true ∧ (0x5#32).getLsbD 1 = false :=
  ⟨rfl, rfl, rfl, by decide, by decide⟩

/-- `high` with OVERRUN set, and the outside world about to do one thing. -/
def overrunThen (e : HostEvent) : State := { high with overrun := true, inputs := [e] }

theorem witness_StartWhileBusyOverruns :
    (high.inReset = false ∧ high.busy = true ∧ (0x1#32).getLsbD 0 = true ∧ (0x1#32).getLsbD 1 = false
      ∧ ({ high with inputs := [wrEvent 0x008 0x1#32] } : State).inputs = wrEvent 0x008 0x1#32 :: [])
    ∧ (∃ t, step (overrunThen .assertReset) = .next t ∧ t.overrun = false)
    ∧ (∃ t, step (overrunThen (wrEvent 0x00C 0x8#32)) = .next t ∧ t.overrun = false)
    ∧ ∃ t, step (overrunThen (wrEvent 0x008 0x2#32)) = .next t ∧ t.overrun = false := by
  refine ⟨⟨rfl, rfl, by decide, by decide, rfl⟩, ⟨_, rfl, rfl⟩,
    ⟨writeWindow 0x00C 0x8#32 { high with overrun := true }, ?_, by decide⟩,
    ⟨writeWindow 0x008 0x2#32 { high with overrun := true }, ?_, by decide⟩⟩
  · exact windowAccess_aligned 0x00C (fun off => writeWindow off 0x8#32)
      { high with overrun := true } rfl (by decide) (by decide)
  · exact windowAccess_aligned 0x008 (fun off => writeWindow off 0x2#32)
      { high with overrun := true } rfl (by decide) (by decide)

theorem witness_BusyCoreCompletes :
    (high.busy = true ∧ high.inputs = []) ∧ high.inReset = false ∧ State.reset.inReset = false
    ∧ ({ high with inputs := [.wait 2] } : State).inputs = .wait 2 :: []
    ∧ ({ State.reset with inputs := [.wait 0] } : State).inputs = .wait 0 :: []
    ∧ State.reset.busy = false ∧ 0 < 2 ∧ 2 ≤ 2 := by
  decide

theorem witness_CompletionRaisesInterrupt :
    high.busy = true ∧ high.inputs = [] ∧ (0x2#32).getLsbD 1 = true := by
  decide

theorem witness_SequenceErrorWithoutContext :
    (DutyKept high ∧ high.ctxValid = false)
    ∧ ∃ t, exec .sha512Update (withCtx high) = .next t ∧ SequenceOk .sha512Update (withCtx high) :=
  ⟨by decide, _, rfl, by decide⟩

/-- `low` with another lat[A_LEN]. -/
def lowLength (n : Nat) : State := { low with lat := { low.lat with aLen := BitVec.ofNat 32 n } }

theorem witness_LengthErrorOfSign :
    (DutyKept (lowLength 0xFFFFFFC0) ∧ 4294967296 - 65 < (lowLength 0xFFFFFFC0).lat.aLen.toNat)
    ∧ (∃ t, exec .sign (lowLength 0xFFFFFFBF) = .next t ∧ LengthOk .sign (lowLength 0xFFFFFFBF).lat)
    ∧ (DutyKept (lowLength 63) ∧ (lowLength 63).lat.aLen.toNat < 64
      ∧ CanRead (lowLength 63) (lowLength 63).lat.aAddr (lowLength 63).lat.aLen.toNat
      ∧ CanRead (lowLength 63) (lowLength 63).lat.cAddr 32) :=
  ⟨by decide, ⟨_, rfl, by decide⟩, by decide⟩

/-- `high` with A one byte longer, past 2^32. -/
def pastEnd : State := { high with lat := { high.lat with aLen := 33#32 } }

theorem witness_RangeErrors :
    (DutyKept pastEnd ∧ SequenceOk .auth pastEnd ∧ LengthOk .auth pastEnd.lat
      ∧ ∃ r ∈ (regionsOf .auth pastEnd.lat).all, 0 < r.len ∧ 4294967296 < r.addr + r.len)
    ∧ ∃ t, exec .auth high = .next t ∧ RangesOk .auth high.lat :=
  ⟨by decide, _, rfl, by decide⟩

/-- `low` with D one byte lower, so that it overlaps A by one byte. -/
def overlapping : State := { low with lat := { low.lat with dAddr := 66#32 } }

theorem witness_OverlapErrors :
    (DutyKept overlapping ∧ LengthOk .sign overlapping.lat ∧ RangesOk .sign overlapping.lat
      ∧ OverlapRefused .sign overlapping.lat ∧ OverlapRefused .streamXor overlapping.lat
      ∧ RangesOk .streamXor overlapping.lat
      ∧ OverlapRefused .signOpen { overlapping.lat with dAddr := 2#32 }
      ∧ RangesOk .signOpen { overlapping.lat with dAddr := 2#32 })
    ∧ (∃ t, exec .sign low = .next t ∧ ¬ OverlapRefused .sign low.lat)
    ∧ ¬ OverlapRefused .streamXor { low.lat with dAddr := 0#32 } :=
  ⟨by decide, ⟨_, rfl, by decide⟩, by decide⟩

theorem witness_CheckErrorsChangeNothing :
    (∃ t, exec .sha512Final high = .next t ∧ t.err = .seq ∧ DutyKept high)
    ∧ (∃ t, exec .sign (lowLength 0xFFFFFFC0) = .next t ∧ t.err = .length)
    ∧ (∃ t, exec .auth pastEnd = .next t ∧ t.err = .range)
    ∧ ∃ t, exec .sign overlapping = .next t ∧ t.err = .overlap :=
  ⟨⟨_, rfl, by decide, by decide⟩, ⟨_, rfl, by decide⟩, ⟨_, rfl, by decide⟩, ⟨_, rfl, by decide⟩⟩

/-- `low` with one byte that answers error: the last of B, or the last of D. -/
def lowBus (dir : AccessDir) (a : Nat) : State := { low with busHoles := [⟨dir, a, 1⟩] }

theorem witness_BusErrorOnRead :
    DutyKept (lowBus .read 0x23F) ∧ ChecksPass .sign (lowBus .read 0x23F)
    ∧ ∃ a ∈ inputAddresses .sign (lowBus .read 0x23F).lat, (lowBus .read 0x23F).busError .read a = true :=
  ⟨by decide, by decide, 0x23F, by decide, by decide⟩

/-- A SIGN_OPEN of 67 bytes whose verify key is no point and whose last output byte cannot be written. -/
def badKeyBus : State := { lowBus .write 69 with mem := memOf [(0x300, [2#8])] }

theorem witness_BusErrorOnWrite :
    (DutyKept (lowBus .write 98) ∧ ChecksPass .feAdd (lowBus .write 98)
      ∧ (∀ a ∈ inputAddresses .feAdd (lowBus .write 98).lat, (lowBus .write 98).busError .read a = false)
      ∧ (∃ a ∈ outputAddresses .feAdd (lowBus .write 98).lat, (lowBus .write 98).busError .write a = true)
      ∧ OperandsValid .feAdd (lowBus .write 98))
    ∧ (ChecksPass .ptAdd (lowBus .write 98) ∧ OperandsValid .ptAdd (lowBus .write 98))
    ∧ (ChecksPass .ptEncode (lowBus .write 98) ∧ ¬ OperandsValid .ptEncode (lowBus .write 98))
    ∧ (ChecksPass .signKeypair (lowBus .write 98)
      ∧ (∃ a ∈ outputAddresses .signKeypair (lowBus .write 98).lat,
          (lowBus .write 98).busError .write a = true)
      ∧ OperandsValid .signKeypair { lowBus .write 98 with entropy := [some 0#256] }
      ∧ ¬ OperandsValid .signKeypair { lowBus .write 98 with entropy := [none] })
    ∧ (DutyKept badKeyBus ∧ ChecksPass .signOpen badKeyBus
      ∧ (∀ a ∈ inputAddresses .signOpen badKeyBus.lat, badKeyBus.busError .read a = false)
      ∧ (∃ a ∈ outputAddresses .signOpen badKeyBus.lat, badKeyBus.busError .write a = true)
      ∧ ¬ OperandsValid .signOpen badKeyBus) :=
  ⟨⟨by decide, by decide, by decide, ⟨98, by decide, by decide⟩, by decide⟩,
    ⟨by decide, by decide +kernel⟩, ⟨by decide, by decide +kernel⟩,
    ⟨by decide, ⟨98, by decide, by decide⟩, by simp [OperandsValid],
      fun h => absurd (h.1 rfl) (by decide)⟩,
    by decide, by decide, by decide, ⟨69, by decide, by decide⟩,
    fun h => absurd (h.2.2.2.2 rfl) (by decide +kernel)⟩

theorem witness_CommandsKeepHostRegisters :
    ∃ t, exec .streamXor low = .next t ∧ Instr.streamXor ≠ .signKeypair :=
  ⟨_, rfl, by decide⟩

/-- `low` with the last byte of a 32-byte D written by another agent while BUSY. -/
def raced : State := { low with racedOut := [98] }

theorem witness_OnlyOutputRegionChanges :
    (∃ t, exec .feAdd raced = .next t)
    ∧ (∀ a ∈ raced.racedOut, a ∈ outputAddresses .feAdd raced.lat)
    ∧ 99 ∉ outputAddresses .feAdd raced.lat :=
  ⟨⟨_, rfl⟩, by decide, by decide⟩

theorem witness_FailuresWriteNothing :
    (DutyKept (lowLength 63) ∧ ∃ t, exec .signOpen (lowLength 63) = .next t ∧ t.vfail = true)
    ∧ ∃ t, exec .auth pastEnd = .next t ∧ t.err ≠ .none ∧ t.err ≠ .bus :=
  ⟨⟨by decide, _, rfl, by decide +kernel⟩, _, rfl, by decide, by decide⟩

theorem witness_ContextOfOtherCommands :
    (∃ t, exec .sign low = .next t ∧ ChecksPass .sign low ∧ usesHashPipeline .sign = true)
    ∧ ∃ t, exec .feMul low = .next t ∧ ChecksPass .feMul low ∧ usesHashPipeline .feMul = false
      ∧ Instr.feMul ∉ [.zeroize, .sha512Init, .sha512Update, .sha512Final] :=
  ⟨⟨_, rfl, by decide, by decide⟩, _, rfl, by decide, by decide, by decide⟩

theorem witness_ControlCommandsComplete : DutyKept high := by decide

theorem witness_Sha512WritesDigest :
    DutyKept high ∧ CanRead high high.lat.aAddr high.lat.aLen.toNat ∧ CanWrite high high.lat.dAddr 64 := by
  decide

theorem witness_Sha512InitStartsContext : DutyKept high := by decide

theorem witness_Sha512UpdateAbsorbs :
    DutyKept (withCtx high) ∧ (withCtx high).ctxValid = true
    ∧ CanRead (withCtx high) (withCtx high).lat.aAddr (withCtx high).lat.aLen.toNat
    ∧ ({ high with ctxBuf := List.replicate 127 0#8 } : State).ctxBuf.length < 128 := by
  decide +kernel

theorem witness_Sha512FinalWritesDigest :
    DutyKept (withCtx high) ∧ (withCtx high).ctxValid = true
    ∧ CanWrite (withCtx high) (withCtx high).lat.dAddr 64 := by
  decide

/-- H9's pieces. -/
theorem witness_IncrementalHashEqualsOneShot :
    ([List.replicate 100 0x61#8, List.replicate 11 0x61#8, [], List.replicate 18 0x61#8].flatten).length
      < 2 ^ 125 := by
  decide +kernel

theorem witness_AuthWritesTag :
    DutyKept high ∧ CanRead high high.lat.aAddr high.lat.aLen.toNat ∧ CanRead high high.lat.bAddr 32
    ∧ CanWrite high high.lat.dAddr 32 := by
  decide

/-- `high` with M7's key of zeros at B and an empty message; at C its tag, or zeros. -/
def tagAt (tag : List Byte) : State :=
  { high with lat := { high.lat with aLen := 0#32 }, mem := memOf [(0xFFFFFFE0, tag)] }

theorem witness_AuthVerifyComparesTag :
    (DutyKept (tagAt []) ∧ CanRead (tagAt []) (tagAt []).lat.aAddr (tagAt []).lat.aLen.toNat
      ∧ CanRead (tagAt []) (tagAt []).lat.bAddr 32 ∧ CanRead (tagAt []) (tagAt []).lat.cAddr 32
      ∧ inputBytes (tagAt []) (tagAt []).lat.cAddr 32
        ≠ macTag (inputBytes (tagAt []) (tagAt []).lat.aAddr 0)
            (inputBytes (tagAt []) (tagAt []).lat.bAddr 32))
    ∧ (let s := tagAt (hexBytes 32 0xb936cee86c9f87aa5d3c6f2e84cb5a4239a5fe50480a6ec66b70ab5b1f4ac673)
      inputBytes s s.lat.cAddr 32
        = macTag (inputBytes s s.lat.aAddr 0) (inputBytes s s.lat.bAddr 32)) := by
  decide +kernel

/-- M8 and M9. -/
theorem witness_CtCompareComparesStrings :
    let s (v : Nat) := ready .ctCompare 0x100 4 0 0xFFFFFFFC 0
      (memOf [(0x100, hexBytes 4 0x00112233), (0xFFFFFFFC, hexBytes 4 v)])
    (DutyKept (s 0x00112233) ∧ CanRead (s 0x00112233) (s 0x00112233).lat.aAddr 4
      ∧ CanRead (s 0x00112233) (s 0x00112233).lat.cAddr 4
      ∧ inputBytes (s 0x00112233) (s 0x00112233).lat.aAddr 4
        = inputBytes (s 0x00112233) (s 0x00112233).lat.cAddr 4)
    ∧ inputBytes (s 0x00112234) (s 0x00112234).lat.aAddr 4
        ≠ inputBytes (s 0x00112234) (s 0x00112234).lat.cAddr 4 := by
  decide

theorem witness_FieldAddSubMulResults :
    DutyKept high ∧ CanRead high high.lat.bAddr 32 ∧ CanRead high high.lat.cAddr 32
    ∧ CanWrite high high.lat.dAddr 32 := by
  decide

theorem witness_FieldInverseResult :
    DutyKept high ∧ CanRead high high.lat.bAddr 32 ∧ CanWrite high high.lat.dAddr 32 := by
  decide

theorem witness_ScalarReduceResult :
    DutyKept high ∧ CanRead high high.lat.bAddr 64 ∧ CanWrite high high.lat.dAddr 32 := by
  decide

theorem witness_ScalarMulAddResult :
    DutyKept high ∧ CanRead high high.lat.aAddr 32 ∧ CanRead high high.lat.bAddr 32
    ∧ CanRead high high.lat.cAddr 32 ∧ CanWrite high high.lat.dAddr 32 := by
  decide

theorem witness_PointDecodeResult :
    DutyKept highPoint ∧ CanRead highPoint highPoint.lat.bAddr 32
    ∧ CanWrite highPoint highPoint.lat.dAddr 64
    ∧ decodePoint (inputBytes highPoint highPoint.lat.bAddr 32) = some basePoint := by
  decide +kernel

/-- Q6: x = 0, y = 1, at the end of the DMA space; and Q7: x = 1, y = 1. -/
def affineAt (x : Byte) : State :=
  { high with mem := memOf [(0xFFFFFFC0, [x]), (0xFFFFFFE0, [1#8])] }

theorem witness_PointEncodeResult :
    let s := affineAt 0#8
    let x := leNat ((inputBytes s s.lat.bAddr 64).take 32)
    let y := leNat ((inputBytes s s.lat.bAddr 64).drop 32)
    DutyKept s ∧ CanRead s s.lat.bAddr 64 ∧ CanWrite s s.lat.dAddr 32 ∧ x < fieldP ∧ y < fieldP
    ∧ (-(x : Int) ^ 2 + (y : Int) ^ 2 - 1 - (curveD : Int) * (x : Int) ^ 2 * (y : Int) ^ 2)
        % (fieldP : Int) = 0 := by
  decide +kernel

theorem witness_PointAddResult :
    DutyKept highPoint ∧ CanRead highPoint highPoint.lat.bAddr 32
    ∧ CanRead highPoint highPoint.lat.cAddr 32 ∧ CanWrite highPoint highPoint.lat.dAddr 32
    ∧ decodePoint (inputBytes highPoint highPoint.lat.bAddr 32) = some basePoint
    ∧ decodePoint (inputBytes highPoint highPoint.lat.cAddr 32) = some basePoint := by
  decide +kernel

theorem witness_ScalarMultResults :
    DutyKept highPoint ∧ CanRead highPoint highPoint.lat.bAddr 32
    ∧ CanWrite highPoint highPoint.lat.dAddr 32 ∧ CanRead highPoint highPoint.lat.cAddr 32
    ∧ decodePoint (inputBytes highPoint highPoint.lat.cAddr 32) = some basePoint := by
  decide +kernel

/-- Q2's encoding, which is not on the curve, at B and at C. -/
def highNoPoint : State := { high with mem := memOf [(0xFFFFFFC0, [2#8]), (0xFFFFFFE0, [2#8])] }

theorem witness_InvalidPointsEndWithError :
    (DutyKept highNoPoint ∧ CanRead highNoPoint highNoPoint.lat.bAddr 32
      ∧ CanRead highNoPoint highNoPoint.lat.cAddr 32 ∧ RegionInRange highNoPoint.lat.dAddr 64
      ∧ RegionInRange highNoPoint.lat.dAddr 32
      ∧ decodePoint (inputBytes highNoPoint highNoPoint.lat.bAddr 32) = none
      ∧ decodePoint (inputBytes highNoPoint highNoPoint.lat.cAddr 32) = none)
    ∧ (let s := affineAt 1#8
      let x := leNat ((inputBytes s s.lat.bAddr 64).take 32)
      let y := leNat ((inputBytes s s.lat.bAddr 64).drop 32)
      DutyKept s ∧ CanRead s s.lat.bAddr 64 ∧ RegionInRange s.lat.dAddr 32
      ∧ (-(x : Int) ^ 2 + (y : Int) ^ 2 - 1 - (curveD : Int) * (x : Int) ^ 2 * (y : Int) ^ 2)
          % (fieldP : Int) ≠ 0) := by
  decide +kernel

theorem witness_DecodedPointReencodes :
    (encB.length = 32 ∧ decodePoint encB = some basePoint)
    ∧ basePoint.x < 2 ^ 255 - 19 ∧ basePoint.y < 2 ^ 255 - 19 ∧ onCurve basePoint = true := by
  decide +kernel

theorem witness_ClampedScalarBits : (List.replicate 32 0xFF#8 : List Byte).length = 32 := by decide

theorem witness_SignKeypairResult :
    RegionInRange high.lat.dAddr 96 ∧ BusAnswersOk high .write high.lat.dAddr 96
    ∧ DutyKept { high with entropy := [some 0#256] }
    ∧ ({ high with entropy := [some 0#256] } : State).entropy = some 0#256 :: []
    ∧ DutyKept { high with entropy := [none] }
    ∧ ({ high with entropy := [none] } : State).entropy = none :: []
    ∧ DutyKept high ∧ high.entropy = [] := by
  decide

theorem witness_SignPublickeyResult :
    DutyKept high ∧ CanRead high high.lat.bAddr 32 ∧ CanWrite high high.lat.dAddr 96 := by
  decide

/-- The longest SIGN whose regions end at 2^32 is out of reach of a small test: A at the low end. -/
theorem witness_SignWritesSignedMessage :
    DutyKept low ∧ low.lat.aLen.toNat ≤ 4294967296 - 65
    ∧ CanRead low low.lat.aAddr low.lat.aLen.toNat ∧ CanRead low low.lat.bAddr 64
    ∧ CanWrite low low.lat.dAddr (64 + low.lat.aLen.toNat) ∧ ¬ OverlapRefused .sign low.lat := by
  decide

/-- A multiple of the identity is the identity. -/
theorem scalarMultAux_identity (n k : Nat) : scalarMultAux n pointO k = pointO := by
  have h : pointAdd pointO pointO = pointO := by decide +kernel
  induction n generalizing k with
  | zero => rfl
  | succ n ih =>
    simp only [scalarMultAux, h, ih]
    split <;> rfl

/-- A 64-byte signed message of the empty message under the encoding of the identity: R = ENC(O),
S = 0, which satisfies the equation of R234. -/
def identitySigned : State :=
  ready .signOpen 0x500 64 0 0x300 0x540 (memOf [(0x300, [1#8]), (0x500, [1#8])])

theorem identity_signature_valid :
    verifySigned (inputBytes identitySigned identitySigned.lat.aAddr 64)
      (inputBytes identitySigned identitySigned.lat.cAddr 32) = some [] := by
  have hv : inputBytes identitySigned identitySigned.lat.cAddr 32 = 1#8 :: List.replicate 31 0#8 := by
    decide +kernel
  have hs : inputBytes identitySigned identitySigned.lat.aAddr 64 = 1#8 :: List.replicate 63 0#8 := by
    decide +kernel
  have hd : decodePoint (1#8 :: List.replicate 31 0#8) = some pointO := by decide +kernel
  rw [hv, hs]
  unfold verifySigned signatureValid
  simp only [hd, scalarMult, scalarMultAux_identity]
  decide +kernel

theorem witness_SignOpenRecoversMessage :
    (DutyKept identitySigned ∧ 64 ≤ identitySigned.lat.aLen.toNat
      ∧ CanRead identitySigned identitySigned.lat.aAddr identitySigned.lat.aLen.toNat
      ∧ CanRead identitySigned identitySigned.lat.cAddr 32
      ∧ RegionInRange identitySigned.lat.dAddr (identitySigned.lat.aLen.toNat - 64)
      ∧ ¬ OverlapRefused .signOpen identitySigned.lat
      ∧ BusAnswersOk identitySigned .write identitySigned.lat.dAddr (identitySigned.lat.aLen.toNat - 64))
    ∧ verifySigned (inputBytes identitySigned identitySigned.lat.aAddr 64)
        (inputBytes identitySigned identitySigned.lat.cAddr 32) = some []
    ∧ verifySigned (inputBytes identitySigned identitySigned.lat.aAddr 64) (2#8 :: List.replicate 31 0#8)
        = none :=
  ⟨by decide, identity_signature_valid, by decide +kernel⟩

theorem witness_SalsaCoreResults :
    DutyKept high ∧ CanRead high high.lat.bAddr 32 ∧ CanRead high high.lat.cAddr 16
    ∧ CanWrite high high.lat.dAddr 32 ∧ CanWrite high high.lat.dAddr 64 := by
  decide

theorem witness_StreamWritesKeystream :
    DutyKept high ∧ CanRead high high.lat.bAddr 32 ∧ CanRead high high.lat.cAddr 24
    ∧ CanWrite high high.lat.dAddr high.lat.aLen.toNat := by
  decide

/-- In place at the end of the DMA space, and with D just after A. -/
theorem witness_StreamXorWritesCiphertext :
    (let s : State := { high with lat := { high.lat with dAddr := high.lat.aAddr } };
      DutyKept s ∧ CanRead s s.lat.aAddr s.lat.aLen.toNat ∧ CanRead s s.lat.bAddr 32
      ∧ CanRead s s.lat.cAddr 24 ∧ CanWrite s s.lat.dAddr s.lat.aLen.toNat
      ∧ ¬ OverlapRefused .streamXor s.lat)
    ∧ ¬ OverlapRefused .streamXor low.lat := by
  decide

theorem witness_KeystreamProperties :
    (64 : Nat) ≤ 65 ∧ (List.replicate 64 0#8 : List Byte).length = 64 := by
  decide

theorem witness_RunningCommandUsesLatches :
    RegName.dAddr ∈ [.cmd, .aAddr, .aLen, .bAddr, .cAddr, .dAddr] := by
  decide

theorem witness_WorkingStorageLeavesNoTrace :
    (∃ t, exec .auth high = .next t)
    ∧ ∃ t, high.busy = true ∧ high.inputs = [] ∧ step high = .next t :=
  ⟨⟨_, rfl⟩, _, rfl, rfl, rfl⟩

/-- Two states that differ in the context, in a register and outside the regions of FE_ADD. -/
theorem witness_CommandsArePure :
    let s' : State := withCtx { high with mem := memOf [(0x40, [1#8])], cmd := 7#32 }
    Instr.feAdd ≠ .sha512Update ∧ Instr.feAdd ≠ .sha512Final ∧ DutyKept high ∧ DutyKept s'
    ∧ high.mem.wf ∧ s'.mem.wf ∧ high.lat = s'.lat ∧ high.busHoles = s'.busHoles
    ∧ high.entropy = s'.entropy ∧ high.free = s'.free
    ∧ (∀ a ∈ inputAddresses .feAdd high.lat, high.mem.read a = s'.mem.read a)
    ∧ (∃ t, exec .feAdd high = .next t ∧ t.err = .none ∧ t.vfail = false)
    ∧ ∃ t', exec .feAdd s' = .next t' :=
  ⟨by decide, by decide, by decide, by decide, by decide, by decide, by decide, by decide, by decide,
    by decide, by decide, ⟨_, rfl, by decide +kernel, by decide +kernel⟩, _, rfl⟩

theorem witness_ResetClearsCore :
    ({ high with inputs := [.assertReset] } : State).inputs = .assertReset :: []
    ∧ (high.inReset = false ∧ (0x2#32).getLsbD 1 = true
      ∧ ({ high with inputs := [wrEvent 0x008 0x2#32] } : State).inputs = wrEvent 0x008 0x2#32 :: [])
    ∧ 0x100 ∉ activeOutputs high ∧ State.reset.busy = false :=
  ⟨rfl, ⟨rfl, by decide, rfl⟩, by decide, rfl⟩

/-- Each offset of the window that a write changes, and the ends of the ignored ones. -/
theorem witness_WindowWrites :
    (∀ off, ({ high with inputs := [wrEvent off 0xA#32] } : State).inputs = wrEvent off 0xA#32 :: [])
    ∧ high.inReset = false
    ∧ ∀ off ∈ [0x000, 0x004, 0x00C, 0x010, 0x014, 0x018, 0x01C, 0x020, 0x024, 0x028, 0x02C, 0x030, 0x0FC],
        off % 4 = 0 ∧ off < 256 ∧ off ≠ 0x008 :=
  ⟨fun _ => rfl, rfl, by decide⟩

theorem witness_WindowReads :
    (∀ off, ({ high with inputs := [rdEvent off] } : State).inputs = rdEvent off :: [])
    ∧ high.inReset = false
    ∧ ∀ off ∈ [0x000, 0x004, 0x008, 0x00C, 0x010, 0x014, 0x018, 0x01C, 0x020, 0x024, 0x028, 0x02C, 0x030,
        0x0FC], off % 4 = 0 ∧ off < 256 :=
  ⟨fun _ => rfl, rfl, by decide⟩

theorem witness_OnlyAlignedWordAccesses :
    high.inReset = false
    ∧ (∀ off size, ({ high with inputs := [.load (Config.mmioBase + off) size] } : State).inputs
        = .load (Config.mmioBase + off) size :: [])
    ∧ (∀ off size v, ({ high with inputs := [.store (Config.mmioBase + off) size v] } : State).inputs
        = .store (Config.mmioBase + off) size v :: [])
    ∧ (0xFC < 256 ∧ AccessSize.b32 = .b32 ∧ 0xFC % 4 = 0)
    ∧ (0xFF < 256 ∧ ¬ (AccessSize.b8 = .b32 ∧ 0xFF % 4 = 0))
    ∧ (0xFE < 256 ∧ ¬ (AccessSize.b32 = .b32 ∧ 0xFE % 4 = 0)) :=
  ⟨rfl, fun _ _ => rfl, fun _ _ _ => rfl, by decide, by decide, by decide⟩

/-- BUSY, DONE and ERR after one step. -/
def flagsAfter (s : State) : Option (Bool × Bool × ErrorCode) :=
  match step s with
  | .next t => some (t.busy, t.done, t.err)
  | _ => none

/-- A busy state whose step ends BUSY and sets DONE completes with that step's ERR. -/
theorem completes_of_flags {s : State} {c : ErrorCode} (hb : s.busy = true)
    (h : flagsAfter s = some (false, true, c)) : ∃ u, CompletesTo s s u ∧ u.err = c := by
  unfold flagsAfter at h
  split at h
  · injection h with h
    injection h with h1 h
    injection h with h2 h3
    exact ⟨_, .now hb ‹_› h1 h2, h3⟩
  · cases h

/-- `adding`, whose first byte at D another agent has written or not, after another agent's load of
that byte, with what the outside world does next. -/
def afterLoad (writes : List Nat) (es : List HostEvent) : State :=
  { adding with
    racedOut := writes, inputs := es, free := 1
    rdata := (activeOutputByte 0x300 { adding with racedOut := writes, inputs := es }).setWidth 32 }

/-- The command refused by a check, with a byte of its output region raced. -/
def racedRefused : State := { pastEnd with racedOut := [0xFFFFFFA0] }

theorem witness_RacedOutputByteIsFree :
    (raced.mem.wf ∧ (∃ t, exec .feAdd raced = .next t)
      ∧ (∀ a ∈ raced.racedOut, a < 4294967296) ∧ 98 ∈ raced.racedOut)
    ∧ (racedRefused.mem.wf ∧ (∃ t, exec .auth racedRefused = .next t) ∧ ¬ ChecksPass .auth racedRefused
      ∧ (∀ a ∈ racedRefused.racedOut, a < 4294967296) ∧ 0xFFFFFFA0 ∈ racedRefused.racedOut)
    ∧ (31 < 32 ∧ 0x100 + 31 ∈ ({ adding with racedIn := [0x11F] } : State).racedIn
      ∧ 0x100 + 30 ∉ ({ adding with racedIn := [0x11F] } : State).racedIn)
    ∧ (0x300 ∈ activeOutputs adding ∧ 0x300 ∉ (afterLoad [] []).racedOut)
    ∧ (∃ u, CompletesTo (afterLoad [] []) (afterLoad [] []) u ∧ u.err = .none)
    ∧ (∃ u, CompletesTo (afterLoad [0x300] []) (afterLoad [0x300] []) u ∧ u.err = .none)
    ∧ (∃ last u, CompletesTo (afterLoad [] [.dmaStore 0x300#32 9#8]) last u ∧ 0x300 ∈ last.racedOut)
    ∧ (∃ last u, CompletesTo (afterLoad [] [.setBus [⟨.write, 0x31F, 1⟩]]) last u ∧ u.err = .bus)
    ∧ ∀ last u, ¬ CompletesTo (afterLoad [] [.assertReset]) last u := by
  refine ⟨⟨by decide, ⟨_, rfl⟩, by decide, by decide⟩,
    ⟨by decide, ⟨_, rfl⟩, by decide, by decide, by decide⟩, by decide, by decide,
    completes_of_flags rfl (by decide +kernel), completes_of_flags rfl (by decide +kernel),
    ?_, ?_, fun last u h => ?_⟩
  · obtain ⟨u, hu, -⟩ := completes_of_flags (c := .none) (s := dmaStoreByte 0x300#32 9#8
      { afterLoad [] [.dmaStore 0x300#32 9#8] with inputs := [] }) rfl (by decide +kernel)
    exact ⟨_, u, .later rfl rfl rfl hu, by decide⟩
  · obtain ⟨u, hu, he⟩ := completes_of_flags (c := .bus)
      (s := { afterLoad [] [.setBus [⟨.write, 0x31F, 1⟩]] with
        inputs := [], busHoles := [⟨.write, 0x31F, 1⟩] }) rfl (by decide +kernel)
    exact ⟨_, u, .later rfl rfl rfl hu, he⟩
  · cases h with
    | now _ hs _ hd => cases hs; exact absurd hd (by decide)
    | later _ hs hb _ => cases hs; exact absurd hb (by decide)

/-- The invariant holds of a busy core, and it takes a step. -/
theorem witness_StepKeepsInvariant : low.Inv ∧ ∃ t, step low = .next t := by
  refine ⟨?_, exec_next .sign low⟩
  constructor
  · decide
  · decide
  · decide
  · exact fun _ => ⟨rfl, rfl, rfl⟩
  · rfl
  · exact fun _ => ⟨rfl, rfl, rfl, rfl, rfl⟩
  · exact nofun
  · exact fun _ => rfl
  · exact fun _ => rfl
  · exact Nat.zero_mod _
  · exact nofun
  · exact nofun
  · exact nofun

end Sys2Proof.Tests
end

section
/-! PROOFS. The family 10_state.md: the invariant (O60, O59), what a command leaves of the host's side of
the state (O10, O18), what it does not read (O50, O51), the entropy draw (O42), reset (O53, O54) and the
register window (O55, O56). -/

namespace Sys2Proof.Machine

/-! ### The invariant: each kind of step keeps it -/

/-- What the invariant says of the SHA-512 context alone (R40, R140). -/
def State.CtxOk (s : State) : Prop :=
  s.ctxBuf.length < 128 ∧ s.ctxBuf.length = s.ctxMlen.toNat % 128
    ∧ (s.ctxValid = false → s.ctxH = ChainWords.zero ∧ s.ctxMlen = 0#128 ∧ s.ctxBuf = [])

theorem State.Inv.ctxOk {s : State} (h : s.Inv) : s.CtxOk :=
  ⟨h.ctxBufShort, h.ctxBufCount, h.ctxCleared⟩

theorem invalidateCtx_ctxOk (s : State) : (invalidateCtx s).CtxOk :=
  ⟨by simp, by simp, fun _ => ⟨rfl, rfl, rfl⟩⟩

theorem startCtx_ctxOk (s : State) : (startCtx s).CtxOk :=
  ⟨by simp, by simp, fun h => by simp at h⟩

/-- Absorb keeps CTX_BUF the remainder of CTX_MLEN by 128 bytes, also where CTX_MLEN wraps (R145). -/
theorem absorb_ctxOk (data : List Byte) (s : State) (hs : s.CtxOk) (hv : s.ctxValid = true) :
    (absorb data s).CtxOk := by
  obtain ⟨-, hcount, -⟩ := hs
  have hlen : (absorb data s).ctxBuf.length = (s.ctxBuf.length + data.length) % 128 := by
    simp only [absorb_ctxBuf, List.length_drop, List.length_append]
    omega
  refine ⟨by omega, ?_, fun h => by simp [hv] at h⟩
  rw [hlen, absorb_ctxMlen, BitVec.toNat_add, BitVec.toNat_ofNat]
  omega

/-- Every command's work on the context keeps what the invariant says of it. -/
theorem ctxStep_ctxOk {i : Instr} {s s0 : State} (h : CtxStep i s s0) (hs : s.CtxOk)
    (hq : SequenceOk i s) : s0.CtxOk := by
  unfold CtxStep at h
  split at h
  · exact h ▸ invalidateCtx_ctxOk s
  · split at h
    · exact h ▸ startCtx_ctxOk s
    · split at h
      · rename_i hi
        rcases h with ⟨-, h⟩ | ⟨-, data, -, h⟩
        · exact h ▸ invalidateCtx_ctxOk s
        · exact h ▸ absorb_ctxOk data s hs (hq (.inl hi))
      · exact h ▸ hs

/-- Rounding down to DMA_BEAT leaves a multiple of it (R36, R307). -/
theorem beatAlign_mod_dmaBeat (f : Nat) :
    (beatAlign Config.dmaBeat f).toNat % Config.dmaBeat = 0 := by
  unfold Config.dmaBeat
  generalize hk : Config.dmaBeatLog2.val = k
  have hk13 : k < 13 := hk ▸ Config.dmaBeatLog2.isLt
  refine Nat.eq_of_testBit_eq fun j => ?_
  rw [Nat.testBit_mod_two_pow, Nat.zero_testBit]
  by_cases hj : j < k
  · have hmask : (BitVec.ofNat 32 (2 ^ k - 1)).getLsbD j = true := by
      simp [BitVec.getLsbD_ofNat, Nat.testBit_two_pow_sub_one, hj]
      omega
    rw [BitVec.testBit_toNat, beatAlign, BitVec.getLsbD_and, BitVec.getLsbD_not, hmask]
    simp
  · simp [hj]

/-- The address an outcome reports is a multiple of DMA_BEAT where it is reported at all. -/
def CmdOutcome.AddrOk (o : CmdOutcome) : Prop := ∀ a, o = .err .bus a → a.toNat % Config.dmaBeat = 0

/-- A completion outside reset meets the invariant, with a canonical memory and a well-formed context. -/
theorem complete_inv {o : CmdOutcome} {s : State} (hm : s.mem.wf)
    (hout : ∀ a ∈ s.racedOut, a < Config.dmaSpace) (hc : s.CtxOk) (hr : s.inReset = false)
    (ho : o.AddrOk) : (complete o s).Inv := by
  obtain ⟨hshort, hcount, hcleared⟩ := hc
  exact {
    memWf := by simpa using havoc_wf _ _ hm hout
    ctxBufShort := by simpa using hshort
    ctxBufCount := by simpa using hcount
    ctxCleared := by simpa using hcleared
    workZero := complete_work o s
    busyClear := by simp
    oneFailure := by cases o <;> simp [complete]
    failureNoOutput := by cases o <;> simp [complete]
    errAddrBus := by
      cases o with
      | err c a => exact fun h => finish_err_errAddr (by simpa [complete] using h) a _
      | _ => simp [complete]
    errAddrBeat := by
      cases o with
      | err c a =>
        by_cases h : c = .bus
        · subst h
          simpa [complete] using ho a rfl
        · rw [complete, finish_err_errAddr h]
          exact Nat.zero_mod _
      | _ => exact Nat.zero_mod _
    racedInActive := by simp
    racedOutActive := by simp
    resetHeld := by simp [hr] }

/-- A busy core is not in reset (R340). -/
theorem State.Inv.not_inReset {s : State} (h : s.Inv) (hb : s.busy = true) : s.inReset = false := by
  cases hr : s.inReset with
  | false => rfl
  | true =>
    have := congrArg State.busy (h.resetHeld hr)
    rw [hb] at this
    cases this

theorem activeCommand_idle {s : State} (hb : s.busy = false) : activeCommand s = none := by
  unfold activeCommand
  split
  · exact if_neg (by simp [hb])
  · rfl

theorem activeInputs_idle {s : State} (hb : s.busy = false) : activeInputs s = [] := by
  rw [activeInputs, activeCommand_idle hb]

theorem activeOutputs_idle {s : State} (hb : s.busy = false) : activeOutputs s = [] := by
  rw [activeOutputs, activeCommand_idle hb]

theorem activeOutputs_lt (s : State) : ∀ a ∈ activeOutputs s, a < Config.dmaSpace := by
  unfold activeOutputs
  split <;> simp

theorem State.Inv.racedOut_lt {s : State} (h : s.Inv) : ∀ a ∈ s.racedOut, a < Config.dmaSpace :=
  fun a ha => activeOutputs_lt s a (h.racedOutActive a ha)

theorem raiseError_inv {c : ErrorCode} {s : State} (h : s.Inv) (hr : s.inReset = false) :
    (raiseError c s).Inv :=
  complete_inv h.memWf h.racedOut_lt h.ctxOk hr fun a ha => by
    obtain ⟨-, rfl⟩ := CmdOutcome.err.inj ha
    exact Nat.zero_mod _

/-- Only E_BUS reports an address, and that one is aligned. -/
theorem outcomeFits_addrOk {i : Instr} {s : State} {m : Memory} {o : CmdOutcome}
    (h : OutcomeFits i s m o) : o.AddrOk := by
  rintro a rfl
  rcases h with ⟨-, rfl, -⟩ | ⟨-, -, f, -, rfl⟩
  · exact Nat.zero_mod _
  · exact beatAlign_mod_dmaBeat f

/-- Every command keeps the invariant, from every state outside reset that meets it. -/
theorem exec_inv {i : Instr} {s t : State} (h : s.Inv) (hr : s.inReset = false)
    (ht : exec i s = .next t) : t.Inv := by
  rcases exec_ends i s with ⟨c, -, he⟩ | ⟨hpass, s0, u, he, hctx, hend⟩
  · obtain rfl := Host.Outcome.next.inj (he.symm.trans ht)
    exact raiseError_inv h hr
  · obtain rfl := Host.Outcome.next.inj (he.symm.trans ht)
    obtain ⟨hseq, -, hrange, -⟩ := (checkError_none_iff i s).mp hpass
    obtain ⟨o, s1, rfl, hs1, -, -, hfits⟩ := hend
    have hs0 := ctxStep_frame hctx
    have hm : s1.mem.wf :=
      outcomeFits_wf hfits (by rw [hs0]; exact h.memWf) (by rw [hs0]; exact hrange)
    have hc := ctxStep_ctxOk hctx h.ctxOk hseq
    refine complete_inv hm ?_ (by rw [hs1]; exact hc) ?_ (outcomeFits_addrOk hfits)
    · rw [hs1, hs0]
      exact h.racedOut_lt
    · rw [hs1, hs0]
      exact hr

/-- The core's turn keeps the invariant (R113, R118). -/
theorem coreStep_inv {s t : State} (h : s.Inv) (ht : coreStep s = .next t) : t.Inv := by
  unfold coreStep at ht
  split at ht
  · have hr := h.not_inReset ‹_›
    split at ht
    · exact exec_inv h hr ht
    all_goals
      obtain rfl := Host.Outcome.next.inj ht
      exact raiseError_inv h hr
  · obtain rfl := Host.Outcome.next.inj ht
    exact h

/-- The world outside the core and the free-value counter are not spoken of by the invariant. -/
theorem State.Inv.outside {s : State} (h : s.Inv) (holes : List BusHole)
    (draws : List (Option (BitVec 256))) (es : List HostEvent) (v : Word) (n : Nat) :
    ({ s with busHoles := holes, entropy := draws, inputs := es, rdata := v, free := n } : State).Inv :=
  { h with
    resetHeld := fun hr => congrArg (fun u : State =>
      { u with busHoles := holes, entropy := draws, inputs := es, rdata := v, free := n })
      (h.resetHeld hr) }

/-- Outside reset the host registers, IRQ_EN and OVERRUN are free, and DONE is while the core is idle. -/
theorem State.Inv.hostFields {s : State} (h : s.Inv) (hr : s.inReset = false) (ien ovr dn : Bool)
    (c a l b c' d : Word) (hd : s.busy = true → dn = false) :
    ({ s with irqEn := ien, overrun := ovr, done := dn, cmd := c, aAddr := a, aLen := l, bAddr := b
              cAddr := c', dAddr := d } : State).Inv :=
  { h with
    busyClear := fun hb => ⟨hd hb, (h.busyClear hb).2⟩
    resetHeld := fun hr' => absurd (hr.symm.trans hr') Bool.false_ne_true }

/-- An accepted START keeps the invariant (R112). -/
theorem accept_inv {s : State} (h : s.Inv) (hr : s.inReset = false) : (accept s).Inv :=
  { h with
    busyClear := fun _ => ⟨rfl, rfl, rfl, rfl, rfl⟩
    oneFailure := fun _ => rfl
    failureNoOutput := fun _ => rfl
    errAddrBus := fun _ => rfl
    errAddrBeat := Nat.zero_mod _
    racedInActive := fun _ ha => by cases ha
    racedOutActive := fun _ ha => by cases ha
    resetHeld := fun hr' => absurd (hr.symm.trans hr') Bool.false_ne_true }

/-- The reset values meet the invariant, whatever canonical memory they stand beside (R46). -/
theorem resetCore_inv {s : State} (hm : s.mem.wf) : (resetCore s).Inv where
  memWf := hm
  ctxBufShort := Nat.zero_lt_succ 127
  ctxBufCount := rfl
  ctxCleared := fun _ => ⟨rfl, rfl, rfl⟩
  workZero := rfl
  busyClear := nofun
  oneFailure := nofun
  failureNoOutput := fun _ => rfl
  errAddrBus := fun _ => rfl
  errAddrBeat := Nat.zero_mod _
  racedInActive := nofun
  racedOutActive := nofun
  resetHeld := fun _ => rfl

theorem abortCommand_wf {s : State} (hm : s.mem.wf) : (abortCommand s).mem.wf :=
  havoc_wf _ _ hm (activeOutputs_lt s)

theorem resetStep_inv {s : State} (hm : s.mem.wf) : (resetStep s).Inv :=
  resetCore_inv (abortCommand_wf hm)

/-- A write of CTRL outside reset keeps the invariant (R110). -/
theorem writeCtrl_inv {s : State} (v : Word) (h : s.Inv) (hr : s.inReset = false) :
    (writeCtrl v s).Inv := by
  have hien : ({ s with irqEn := v.getLsbD 2 } : State).Inv :=
    h.hostFields hr _ _ _ _ _ _ _ _ _ fun hb => (h.busyClear hb).1
  simp only [writeCtrl]
  split
  · exact resetStep_inv h.memWf
  · split
    · split
      · exact hien.hostFields hr _ _ _ _ _ _ _ _ _ fun hb => (h.busyClear hb).1
      · exact accept_inv hien hr
    · exact hien

/-- A write of any register outside reset keeps the invariant (R22, R23). -/
theorem writeReg_inv {s : State} (r : RegName) (v : Word) (h : s.Inv) (hr : s.inReset = false) :
    (writeReg r v s).Inv := by
  have hdone : s.busy = true → s.done = false := fun hb => (h.busyClear hb).1
  cases r with
  | id | version | outLen | errAddr => exact h
  | ctrl => exact writeCtrl_inv v h hr
  | status => exact h.hostFields hr _ _ _ _ _ _ _ _ _ fun hb => by rw [hdone hb]; rfl
  | cmd | aAddr | aLen | bAddr | cAddr | dAddr => exact h.hostFields hr _ _ _ _ _ _ _ _ _ hdone

theorem writeWindow_inv {s : State} (off : Nat) (v : Word) (h : s.Inv) (hr : s.inReset = false) :
    (writeWindow off v s).Inv := by
  unfold writeWindow
  split
  · exact writeReg_inv _ v h hr
  · exact h

/-- What a host access can do where it answers a next state: nothing, or its act outside reset. -/
theorem windowAccess_next {addr : Nat} {size : AccessSize} {act : Nat → State → State} {s t : State}
    (h : windowAccess addr size act s = .next t) :
    t = s ∨ (s.inReset = false ∧ ∃ off, t = act off s) := by
  unfold windowAccess at h
  split at h
  · split at h
    · cases h
    · split at h
      · exact .inr ⟨by simp_all, _, (Host.Outcome.next.inj h).symm⟩
      · cases h
  · exact .inl (Host.Outcome.next.inj h).symm

theorem windowAccess_inv {addr : Nat} {size : AccessSize} {act : Nat → State → State} {s t : State}
    (h : s.Inv) (hact : s.inReset = false → ∀ off, (act off s).Inv)
    (ht : windowAccess addr size act s = .next t) : t.Inv := by
  rcases windowAccess_next ht with rfl | ⟨hr, off, rfl⟩
  · exact h
  · exact hact hr off

theorem loadWindow_inv {s : State} (off : Nat) (h : s.Inv) : (loadWindow off s).Inv :=
  h.outside _ _ _ _ _

/-- Another agent's store keeps the invariant: it races on active bytes alone (R78). -/
theorem dmaStoreByte_inv {s : State} (a : Word) (b : Byte) (h : s.Inv) : (dmaStoreByte a b s).Inv :=
  { h with
    memWf := Memory.write_wf h.memWf a.isLt b
    racedInActive := fun c hc => by
      by_cases ha : a.toNat ∈ activeInputs s
      · rcases List.mem_cons.mp (by simpa only [dmaStoreByte, if_pos ha] using hc) with rfl | hc
        exacts [ha, h.racedInActive c hc]
      · exact h.racedInActive c (by simpa only [dmaStoreByte, if_neg ha] using hc)
    racedOutActive := fun c hc => by
      by_cases ha : a.toNat ∈ activeOutputs s
      · rcases List.mem_cons.mp (by simpa only [dmaStoreByte, if_pos ha] using hc) with rfl | hc
        exacts [ha, h.racedOutActive c hc]
      · exact h.racedOutActive c (by simpa only [dmaStoreByte, if_neg ha] using hc)
    resetHeld := fun hr => by
      have hheld := h.resetHeld hr
      have hidle : s.busy = false := (congrArg State.busy hheld).symm
      simp only [dmaStoreByte, activeInputs_idle hidle, activeOutputs_idle hidle, List.not_mem_nil,
        if_false]
      exact congrArg (fun u : State => { u with mem := s.mem.write a.toNat b }) hheld }

theorem dmaLoadByte_inv {s : State} (a : Word) (h : s.Inv) : (dmaLoadByte a s).Inv := by
  rw [dmaLoadByte_frame]
  exact h.outside _ _ _ _ _

/-- One turn of the loop `wait` keeps the invariant (R99). -/
theorem pollStatus_inv {again : HostEvent} {s t : State} (h : s.Inv)
    (ht : pollStatus again s = .next t) : t.Inv := by
  cases hr : s.inReset with
  | true =>
    rw [pollStatus_reset again s hr] at ht
    cases ht
  | false =>
    rw [pollStatus_eq again s hr] at ht
    obtain rfl := Host.Outcome.next.inj ht
    split
    all_goals exact h.outside _ _ _ _ _

theorem waitStep_inv {polls : Nat} {s t : State} (h : s.Inv) (ht : waitStep polls s = .next t) :
    t.Inv := by
  cases polls with
  | zero =>
    dsimp only [waitStep] at ht
    split at ht
    · have hturn : ({ s with inputs := .wait 0 :: s.inputs } : State).Inv := h.outside _ _ _ _ _
      exact coreStep_inv hturn ht
    · exact pollStatus_inv h ht
  | succ polls =>
    dsimp only [waitStep] at ht
    exact pollStatus_inv h ht

/-- Every event of the outside world keeps the invariant. -/
theorem hostStep_inv {e : HostEvent} {s t : State} (h : s.Inv) (ht : hostStep e s = .next t) :
    t.Inv := by
  unfold hostStep eventStep at ht
  cases e with
  | store addr size v => exact windowAccess_inv h (fun hr off => writeWindow_inv off v h hr) ht
  | load addr size => exact windowAccess_inv h (fun _ off => loadWindow_inv off h) ht
  | coreTurn => exact coreStep_inv h ht
  | wait polls => exact waitStep_inv h ht
  | dmaStore a b =>
    obtain rfl := Host.Outcome.next.inj ht
    exact dmaStoreByte_inv a b h
  | dmaLoad a =>
    obtain rfl := Host.Outcome.next.inj ht
    exact dmaLoadByte_inv a h
  | assertReset =>
    obtain rfl := Host.Outcome.next.inj ht
    exact resetCore_inv (s := { abortCommand s with inReset := true }) (abortCommand_wf h.memWf)
  | releaseReset =>
    obtain rfl := Host.Outcome.next.inj ht
    exact { h with resetHeld := nofun }
  | setBus | offerEntropy =>
    obtain rfl := Host.Outcome.next.inj ht
    exact h.outside _ _ _ _ _

/-- Settles O60: the core's turn and every event of the outside world keep the invariant. -/
theorem stepKeepsInvariant : Obligations.StepKeepsInvariant := by
  intro s t h ht
  unfold step nextStep at ht
  split at ht
  · exact coreStep_inv h ht
  · exact hostStep_inv (h.outside _ _ _ _ _) ht

/-- Settles O59: `State.reset` is the reset of itself. -/
theorem resetMeetsInvariant : Obligations.ResetMeetsInvariant :=
  resetCore_inv (s := State.reset) (by decide)

/-! ### What a command leaves of the host's side of the state -/

/-- Every command ends in one completion, of a state that differs from the one it started in only in the
DMA space, the context, working storage, the free-value counter and, for SIGN_KEYPAIR, the draws. -/
theorem exec_completes (i : Instr) (s : State) :
    ∃ (o : CmdOutcome) (u : State), exec i s = .next (complete o u)
      ∧ u = { s with ctxValid := u.ctxValid, ctxH := u.ctxH, ctxMlen := u.ctxMlen, ctxBuf := u.ctxBuf
                     work := u.work, mem := u.mem, entropy := u.entropy, free := u.free }
      ∧ (i ≠ .signKeypair → u.entropy = s.entropy) := by
  rcases exec_ends i s with ⟨c, -, he⟩ | ⟨-, s0, t, he, hctx, o, u, rfl, hu, -, hent, -⟩
  · exact ⟨_, s, he, rfl, fun _ => rfl⟩
  · have hs0 := ctxStep_frame hctx
    refine ⟨o, u, he, ?_, fun hi => (hent hi).trans ?_⟩
    · rw [hu, hs0]
    · rw [hs0]

/-- At its turn a busy core runs the command its latched word decodes to (R113, R118). -/
theorem coreStep_command {s : State} {i : Instr} (hb : s.busy = true)
    (hd : decodeWord s.lat.cmd = .command i) : coreStep s = exec i s := by
  unfold coreStep
  rw [if_pos hb, hd]

/-- At its turn a busy core completes, with the IRQ_EN it had (R117, R119). -/
theorem coreStep_completes {s : State} (hb : s.busy = true) :
    ∃ (o : CmdOutcome) (u : State), coreStep s = .next (complete o u) ∧ u.irqEn = s.irqEn := by
  unfold coreStep
  rw [if_pos hb]
  split
  · rename_i i _
    obtain ⟨o, u, he, hu, -⟩ := exec_completes i s
    exact ⟨o, u, he, by rw [hu]⟩
  all_goals exact ⟨_, s, rfl, rfl⟩

/-- With nothing of the outside world left the core takes its turn (R119). -/
theorem step_of_no_inputs {s : State} (h : s.inputs = []) : step s = coreStep s := by
  unfold step nextStep
  rw [h]

/-- Otherwise the step is the next event. -/
theorem step_of_inputs {s : State} {e : HostEvent} {rest : List HostEvent} (h : s.inputs = e :: rest) :
    step s = hostStep e { s with inputs := rest } := by
  unfold step nextStep
  rw [h]

/-- Settles O10: a completion sets DONE and keeps IRQ_EN; a write of STATUS changes no outcome field. -/
theorem completionRaisesInterrupt : Obligations.CompletionRaisesInterrupt := by
  intro s hb hin
  obtain ⟨o, u, he, hien⟩ := coreStep_completes hb
  refine ⟨complete o u, (step_of_no_inputs hin).trans he, ?_, fun v hv => ?_⟩
  · simp [State.irq, hien]
  · exact ⟨by simp [State.irq, writeReg, hv], rfl, rfl, rfl, rfl⟩

/-- Settles O18, by the frame of every command. -/
theorem commandsKeepHostRegisters : Obligations.CommandsKeepHostRegisters := by
  intro i s t ht
  obtain ⟨o, u, he, hu, hent⟩ := exec_completes i s
  obtain rfl := Host.Outcome.next.inj (he.symm.trans ht)
  simp only [complete_cmd, complete_aAddr, complete_aLen, complete_bAddr, complete_cAddr,
    complete_dAddr, complete_lat, complete_irqEn, complete_overrun, complete_inReset,
    complete_busHoles, complete_inputs, complete_rdata, complete_entropy]
  refine ⟨?_, ?_, ?_, ?_, ?_, ?_, ?_, ?_, ?_, ?_, ?_, ?_, ?_, hent⟩
  all_goals rw [hu]

/-! ### What a command does not read: the host registers and working storage -/

/-- `s` with each host register changed by `F`. -/
def State.withRegs (F : RegName → Word → Word) (s : State) : State :=
  { s with cmd := F .cmd s.cmd, aAddr := F .aAddr s.aAddr, aLen := F .aLen s.aLen
           bAddr := F .bAddr s.bAddr, cAddr := F .cAddr s.cAddr, dAddr := F .dAddr s.dAddr }

/-- `s` with each host register changed by `F` and working storage replaced by `w`. -/
def State.withUnread (F : RegName → Word → Word) (w : List Byte) (s : State) : State :=
  { s.withRegs F with work := w }

section
variable (F : RegName → Word → Word) (w : List Byte)

@[simp] theorem withUnread_lat (s : State) : (s.withUnread F w).lat = s.lat := rfl

theorem checkError_withUnread (i : Instr) (s : State) :
    checkError i (s.withUnread F w) = checkError i s :=
  checkError_congr i rfl rfl

theorem failingReads_withUnread (i : Instr) (s : State) :
    failingReads i (s.withUnread F w) = failingReads i s :=
  failingReads_congr i rfl rfl

theorem failingWrites_withUnread (i : Instr) (s : State) :
    failingWrites i (s.withUnread F w) = failingWrites i s :=
  failingWrites_congr i rfl rfl

theorem havoc_withUnread (as : List Nat) (s : State) :
    havoc as (s.withUnread F w) = (havoc as s).withUnread F w := by
  induction as generalizing s with
  | nil => rfl
  | cons a as ih =>
    exact ih { s with mem := s.mem.write a (Config.freeByte s.free), free := s.free + 1 }

/-- Complete sets working storage to zero, so it forgets what a command had staged there (R41, R117). -/
@[simp] theorem complete_withUnread (o : CmdOutcome) (s : State) :
    complete o (s.withUnread F w) = (complete o s).withRegs F := by
  have hsettle : settleRaces (s.withUnread F w) = (settleRaces s).withUnread F w := by
    unfold settleRaces
    rw [show (s.withUnread F w).racedOut = s.racedOut from rfl, havoc_withUnread]
    rfl
  rw [complete, hsettle]
  rfl

@[simp] theorem raiseError_withUnread (c : ErrorCode) (s : State) :
    raiseError c (s.withUnread F w) = (raiseError c s).withRegs F :=
  complete_withUnread F w _ s

@[simp] theorem verifyFail_withUnread (s : State) :
    verifyFail (s.withUnread F w) = (verifyFail s).withRegs F :=
  complete_withUnread F w _ s

@[simp] theorem verdict_withUnread (b : Bool) (s : State) :
    verdict b (s.withUnread F w) = (verdict b s).withRegs F := by
  cases b with
  | false => exact verifyFail_withUnread F w s
  | true => exact complete_withUnread F w (.ok 0) s

theorem busFail_withUnread (i : Instr) (s : State) :
    busFail i (s.withUnread F w) = (busFail i s).withRegs F := by
  unfold busFail
  rw [failingReads_withUnread, failingWrites_withUnread, withUnread_lat]
  exact (congrArg _ (havoc_withUnread F w _ { s with free := s.free + 1 })).trans
    (complete_withUnread F w _ _)

@[simp] theorem writeOut_withUnread (i : Instr) (v : List Byte) (s : State) :
    writeOut i v (s.withUnread F w) = (writeOut i v s).withRegs F := by
  unfold writeOut
  rw [failingWrites_withUnread]
  split
  · exact complete_withUnread F w _ { s with mem := s.mem.writeBytes s.lat.dAddr.toNat v }
  · exact busFail_withUnread F w i s

@[simp] theorem writePoint_withUnread (i : Instr) (v : Option (List Byte)) (s : State) :
    writePoint i v (s.withUnread F w) = (writePoint i v s).withRegs F := by
  cases v
  · exact raiseError_withUnread F w _ s
  · exact writeOut_withUnread F w i _ s

theorem dmaReadBytes_withUnread (a n : Nat) (s : State) :
    dmaReadBytes a n (s.withUnread F w)
      = ((dmaReadBytes a n s).1, (dmaReadBytes a n s).2.withUnread F w) := by
  induction n generalizing a s with
  | zero => rfl
  | succ n ih =>
    have hbyte : dmaReadByte a (s.withUnread F w)
        = ((dmaReadByte a s).1, (dmaReadByte a s).2.withUnread F w) := by
      simp only [dmaReadByte, show (s.withUnread F w).racedIn = s.racedIn from rfl]
      split <;> rfl
    simp only [dmaReadBytes, hbyte, ih]

@[simp] theorem memRead_withUnread_bytes (a n : Nat) (s : State) :
    (memRead a n (s.withUnread F w)).1 = (memRead a n s).1 := by
  simp only [memRead, dmaReadBytes_withUnread]

/-- A read stages its bytes behind whatever working storage holds. -/
@[simp] theorem memRead_withUnread_state (a n : Nat) (s : State) :
    (memRead a n (s.withUnread F w)).2
      = (memRead a n s).2.withUnread F (w ++ (memRead a n s).1) := by
  simp only [memRead, dmaReadBytes_withUnread]
  rfl

@[simp] theorem invalidateCtx_withUnread (s : State) :
    invalidateCtx (s.withUnread F w) = (invalidateCtx s).withUnread F w := rfl

@[simp] theorem startCtx_withUnread (s : State) :
    startCtx (s.withUnread F w) = (startCtx s).withUnread F w := rfl

@[simp] theorem absorb_withUnread (data : List Byte) (s : State) :
    absorb data (s.withUnread F w) = (absorb data s).withUnread F w := rfl

@[simp] theorem finalize_withUnread (s : State) : finalize (s.withUnread F w) = finalize s := rfl

theorem entropyRead_withUnread (s : State) :
    entropyRead (s.withUnread F w) = ((entropyRead s).1, (entropyRead s).2.withUnread F w) := by
  unfold entropyRead
  rw [show (s.withUnread F w).entropy = s.entropy from rfl]
  split <;> rfl

variable {F w}

theorem readsThen_withUnread {i : Instr} {onError rest : State → State} (s : State)
    (he : onError (s.withUnread F w) = (onError s).withUnread F w)
    (hr : rest (s.withUnread F w) = (rest s).withRegs F) :
    readsThen i onError rest (s.withUnread F w) = (readsThen i onError rest s).withRegs F := by
  unfold readsThen
  rw [failingReads_withUnread]
  split
  · exact hr
  · rw [he, busFail_withUnread]

theorem runCommand_withUnread {i : Instr} {body : State → State} {s : State}
    (h : body (s.withUnread F w) = (body s).withRegs F) :
    runCommand i body (s.withUnread F w) = mapNext (State.withRegs F) (runCommand i body s) := by
  simp only [runCommand, checkError_withUnread, mapNext]
  split
  · rw [raiseError_withUnread]
  · rw [h]

theorem fieldBinary_withUnread (i : Instr) (f : Nat → Nat → Nat) (s : State) :
    fieldBinary i f (s.withUnread F w) = mapNext (State.withRegs F) (fieldBinary i f s) :=
  runCommand_withUnread (readsThen_withUnread s rfl (by simp))

theorem execSignKeypair_withUnread (s : State) :
    execSignKeypair (s.withUnread F w) = mapNext (State.withRegs F) (execSignKeypair s) := by
  refine runCommand_withUnread ?_
  simp only [invalidateCtx_withUnread, entropyRead_withUnread]
  split
  · exact raiseError_withUnread F _ _ _
  · exact writeOut_withUnread F _ _ _ _

theorem execSignOpen_withUnread (s : State) :
    execSignOpen (s.withUnread F w) = mapNext (State.withRegs F) (execSignOpen s) := by
  refine runCommand_withUnread (readsThen_withUnread (invalidateCtx s) rfl ?_)
  simp only [withUnread_lat, memRead_withUnread_bytes, memRead_withUnread_state]
  split
  · exact writeOut_withUnread F _ _ _ _
  · exact verifyFail_withUnread F _ _

/-- No command reads a host register or what working storage held before it: changing them first is
changing the registers after it (R34, R41). -/
theorem exec_withUnread (i : Instr) (s : State) :
    exec i (s.withUnread F w) = mapNext (State.withRegs F) (exec i s) := by
  cases i
  all_goals dsimp only [exec]
  case nop => exact runCommand_withUnread (complete_withUnread F w (.ok 0) s)
  case zeroize =>
    exact runCommand_withUnread
      (complete_withUnread F [] (.ok 0) { invalidateCtx s with work := [] })
  case sha512Init => exact runCommand_withUnread (complete_withUnread F w (.ok 0) (startCtx s))
  case sha512Final => exact runCommand_withUnread (by simp)
  case sha512Update => exact runCommand_withUnread (readsThen_withUnread s rfl (by simp))
  case signKeypair => exact execSignKeypair_withUnread s
  case signOpen => exact execSignOpen_withUnread s
  case feAdd | feSub | feMul => exact fieldBinary_withUnread _ _ s
  case sha512 | auth | authVerify | signPublickey | sign =>
    exact runCommand_withUnread (readsThen_withUnread (invalidateCtx s) rfl (by simp))
  all_goals exact runCommand_withUnread (readsThen_withUnread s rfl (by simp))

end

/-- Register `r` takes `v` and every other register keeps its value. -/
def overwrite (r : RegName) (v : Word) (q : RegName) (old : Word) : Word := if q = r then v else old

/-- A write of CMD or of an operand register changes that host register alone (R23). -/
theorem writeReg_eq_withRegs {r : RegName} (v : Word)
    (hr : r ∈ [.cmd, .aAddr, .aLen, .bAddr, .cAddr, .dAddr]) :
    writeReg r v = State.withRegs (overwrite r v) := by
  simp only [List.mem_cons, List.not_mem_nil, or_false] at hr
  rcases hr with rfl | rfl | rfl | rfl | rfl | rfl
  all_goals rfl

/-- Settles O50: a command reads no host register, so a write before it is a write after it. -/
theorem runningCommandUsesLatches : Obligations.RunningCommandUsesLatches := by
  intro i s r v hr
  rw [writeReg_eq_withRegs v hr]
  exact exec_withUnread (F := overwrite r v) (w := s.work) i s

theorem exec_of_work (i : Instr) (s : State) (w : List Byte) :
    exec i { s with work := w } = exec i s := by
  have h : exec i { s with work := w } = mapNext (State.withRegs fun _ old => old) (exec i s) :=
    exec_withUnread (F := fun _ old => old) (w := w) i s
  obtain ⟨t, ht⟩ := exec_next i s
  rw [h, ht]
  rfl

/-- Settles O51: no command reads the working storage it finds, and Complete and reset empty it. -/
theorem workingStorageLeavesNoTrace : Obligations.WorkingStorageLeavesNoTrace := by
  intro i s
  refine ⟨exec_of_work i s, fun t ht => ?_, fun t hb hin ht => ?_, rfl⟩
  · obtain ⟨o, u, he, -⟩ := exec_completes i s
    obtain rfl := Host.Outcome.next.inj (he.symm.trans ht)
    exact complete_work o u
  · obtain ⟨o, u, he, -⟩ := coreStep_completes hb
    rw [step_of_no_inputs hin, he] at ht
    obtain rfl := Host.Outcome.next.inj ht
    exact complete_work o u

/-! ### The entropy draw of SIGN_KEYPAIR -/

/-- SIGN_KEYPAIR passes its checks where its 96-byte D region is in range (R94, R116). -/
theorem checkError_signKeypair {s : State} (h : RegionInRange s.lat.dAddr 96) :
    checkError .signKeypair s = none := by
  rw [checkError_none_iff]
  refine ⟨by simp, by simp, rangesOk_of nofun nofun nofun fun r hr => ?_, by simp [OverlapRefused]⟩
  obtain rfl := Option.some.inj hr
  exact h

/-- SIGN_KEYPAIR from a failure of the entropy port (R235, E_ENTROPY). -/
theorem exec_signKeypair_none {s u : State} (hr : RegionInRange s.lat.dAddr 96) (hd : DutyKept u)
    (he : entropyRead (invalidateCtx s) = (none, u)) :
    exec .signKeypair s = .next (u.failedWith .entropy) := by
  dsimp only [exec, execSignKeypair]
  rw [runCommand_passes _ _ s (checkError_signKeypair hr), he]
  exact congrArg _ (raiseError_calm .entropy u hd)

/-- SIGN_KEYPAIR from a draw of 32 bytes (R232, R235). -/
theorem exec_signKeypair_some {s u : State} {seed : BitVec 256} (hr : RegionInRange s.lat.dAddr 96)
    (hd : DutyKept u) (hb : BusAnswersOk u .write u.lat.dAddr 96)
    (he : entropyRead (invalidateCtx s) = (some seed, u)) :
    exec .signKeypair s = .next (u.succeededWith (keyPairBytes (leBytes 32 seed.toNat))) := by
  dsimp only [exec, execSignKeypair]
  rw [runCommand_passes _ _ s (checkError_signKeypair hr), he]
  exact congrArg _ (writeOut_calm _ _ u (failingWrites_nil (n := 96) rfl hb) hd)

/-- Settles O42, by the three answers of the entropy port: a draw, a failure, a free draw. -/
theorem signKeypairResult : Obligations.SignKeypairResult := by
  intro s hd hr keyPair
  refine ⟨fun seed draws hs hb => ?_, fun draws hs => ?_, fun hs hb => ?_⟩
  · exact exec_signKeypair_some hr hd hb (entropyRead_offered (invalidateCtx s) hs)
  · exact exec_signKeypair_none hr hd (entropyRead_offered (invalidateCtx s) hs)
  · have he := entropyRead_empty (invalidateCtx s) hs
    rw [invalidateCtx_free] at he
    cases hdraw : Config.freeDraw s.free with
    | none => exact exec_signKeypair_none hr hd (hdraw ▸ he)
    | some seed => exact exec_signKeypair_some hr hd hb (hdraw ▸ he)

/-! ### Reset -/

theorem abortCommand_mem_idle {s : State} (hb : s.busy = false) : (abortCommand s).mem = s.mem := by
  rw [abortCommand, activeOutputs_idle hb, havoc_nil]

/-- A write of an aligned window offset outside reset is the step's whole work (R22, R60). -/
theorem step_wrEvent {s : State} {off : Nat} {v : Word} {rest : List HostEvent}
    (h : s.inputs = wrEvent off v :: rest) (hr : s.inReset = false) (hlt : off < 256)
    (h4 : off % 4 = 0) : step s = .next (writeWindow off v { s with inputs := rest }) :=
  (step_of_inputs h).trans
    (windowAccess_aligned off (fun o => writeWindow o v) { s with inputs := rest } hr hlt h4)

/-- So is a read of one (R22, R23, R60). -/
theorem step_rdEvent {s : State} {off : Nat} {rest : List HostEvent}
    (h : s.inputs = rdEvent off :: rest) (hr : s.inReset = false) (hlt : off < 256)
    (h4 : off % 4 = 0) :
    step s = .next { s with inputs := rest, rdata := readWindow off { s with inputs := rest } } :=
  (step_of_inputs h).trans (windowAccess_aligned off loadWindow { s with inputs := rest } hr hlt h4)

/-- A write of CTRL with bit 1 set is a soft reset and nothing else (R110, R341). -/
theorem writeWindow_softReset {v : Word} (hv : v.getLsbD 1 = true) (s : State) :
    writeWindow 0x008 v s = resetStep s := if_pos hv

/-- Settles O54: both resets are resetStep, which changes the DMA space only in its abort. -/
theorem resetClearsCore : Obligations.ResetClearsCore := by
  intro s rest h
  let u : State := { s with inputs := rest }
  have houtside : ∀ b, b ∉ activeOutputs s → (resetStep u).mem.read b = s.mem.read b :=
    havoc_read_outside (activeOutputs s) u
  have hidle : s.busy = false → (resetStep u).mem = s.mem := abortCommand_mem_idle (s := u)
  have hframe := resetStep_frame u
  rcases h with hin | ⟨hr, v, hin, hv⟩
  · refine ⟨{ resetStep u with inReset := true }, step_of_inputs hin, ?_, houtside, hidle⟩
    rw [hframe, decide_eq_true hin]
  · refine ⟨resetStep u, ?_, ?_, houtside, hidle⟩
    · rw [step_wrEvent hin hr (by decide) (by decide), writeWindow_softReset hv]
    · have hne : ¬ s.inputs = .assertReset :: rest := by
        rw [hin, wrEvent]
        exact nofun
      rw [hframe, decide_eq_false hne, ← hr]

/-- Settles O53: each register of `State.reset` is a literal, and word 0 in CMD is a NOP. -/
theorem resetState : Obligations.ResetState := by
  refine ⟨rfl, rfl, rfl, rfl, rfl, rfl, rfl, rfl, rfl, rfl, rfl, rfl, rfl, rfl, rfl, rfl, fun s => ?_⟩
  have hword : decodeWord (s.withFetchWord 32 0).lat.cmd = .command .nop :=
    show decodeWord 0#32 = .command .nop by decide
  have hduty : DutyKept (s.withFetchWord 32 0) := ⟨rfl, rfl⟩
  calc
    step (s.withFetchWord 32 0)
    _ = exec .nop (s.withFetchWord 32 0) :=
      (step_of_no_inputs rfl).trans (coreStep_command rfl hword)
    _ = .next (complete (.ok 0) (s.withFetchWord 32 0)) :=
      runCommand_passes .nop (complete (.ok 0)) _ rfl
    _ = .next ((s.withFetchWord 32 0).succeeded 0) := by rw [complete_ok_calm 0 _ hduty]

/-! ### The register window -/

/-- The register at an offset is the one with that offset (R22). -/
theorem regAt_eq_some_iff (off : Nat) (r : RegName) : regAt off = some r ↔ off = regOffset r := by
  constructor
  · unfold regAt
    split
    all_goals
      intro h
      cases h
    all_goals rfl
  · rintro rfl
    cases r
    all_goals rfl

/-- A reserved offset is the offset of no register (R37). -/
theorem ne_regOffset_of_regAt_none {off : Nat} (h : regAt off = none) (r : RegName) :
    off ≠ regOffset r := fun hoff => by
  rw [(regAt_eq_some_iff off r).mpr hoff] at h
  cases h

/-- Settles O55, register by register; no reserved offset is one that the statement names. -/
theorem windowWrites : Obligations.WindowWrites := by
  intro s rest off v hin hr h4 hlt hctrl s'
  rw [step_wrEvent hin hr hlt h4, writeWindow]
  congr 1
  cases hreg : regAt off with
  | none =>
    have hne := ne_regOffset_of_regAt_none hreg
    exact .symm <| (if_neg (hne .status)).trans <| (if_neg (hne .cmd)).trans <|
      (if_neg (hne .aAddr)).trans <| (if_neg (hne .aLen)).trans <| (if_neg (hne .bAddr)).trans <|
      (if_neg (hne .cAddr)).trans <| if_neg (hne .dAddr)
  | some r =>
    obtain rfl := (regAt_eq_some_iff off r).mp hreg
    cases r with
    | ctrl => exact absurd rfl hctrl
    | status =>
      have hclear : ∀ flag bit : Bool, (flag && !bit) = if bit then false else flag := by decide
      simp only [writeReg, writeStatus, hclear]
      rfl
    | _ => rfl

/-- STATUS as the OR of its flags and its error code, each at its bit (R27, R300). -/
theorem statusWord_eq_or (s : State) :
    statusWord s =
      (if s.busy then 0x01#32 else 0#32) ||| (if s.done then 0x02#32 else 0#32)
      ||| (if s.vfail then 0x04#32 else 0#32) ||| (if s.overrun then 0x08#32 else 0#32)
      ||| (if s.ctxValid then 0x10#32 else 0#32) ||| (errorByte s.err).setWidth 32 <<< 8 := by
  unfold statusWord
  generalize s.busy = busy, s.done = done, s.vfail = vfail, s.overrun = overrun, s.ctxValid = ctxValid
  cases s.err
  all_goals
    revert busy done vfail overrun ctxValid
    decide

/-- CTRL holds IRQ_EN in bit 2 (R26). -/
theorem ctrlWord_eq (s : State) : ctrlWord s = if s.irqEn then 0x4#32 else 0#32 := by
  unfold ctrlWord
  cases s.irqEn
  all_goals rfl

/-- Settles O56, register by register; no reserved offset is one that the statement names. -/
theorem windowReads : Obligations.WindowReads := by
  intro s rest off hin hr h4 hlt
  rw [step_rdEvent hin hr hlt h4]
  congr 2
  unfold readWindow
  cases hreg : regAt off with
  | none =>
    have hne := ne_regOffset_of_regAt_none hreg
    exact .symm <| (if_neg (hne .id)).trans <| (if_neg (hne .version)).trans <|
      (if_neg (hne .ctrl)).trans <| (if_neg (hne .status)).trans <| (if_neg (hne .cmd)).trans <|
      (if_neg (hne .aAddr)).trans <| (if_neg (hne .aLen)).trans <| (if_neg (hne .bAddr)).trans <|
      (if_neg (hne .cAddr)).trans <| (if_neg (hne .dAddr)).trans <| (if_neg (hne .outLen)).trans <|
      if_neg (hne .errAddr)
  | some r =>
    obtain rfl := (regAt_eq_some_iff off r).mp hreg
    cases r with
    | ctrl => exact ctrlWord_eq _
    | status =>
      refine (statusWord_eq_or _).trans (congrArg _ ?_)
      dsimp only
      cases s.err <;> rfl
    | _ => rfl

end Sys2Proof.Machine
end

section
/-! PROOFS. The family 20_memory.md: the range and overlap checks (O13, O14), the bytes a command leaves
alone (O19, O20), window accesses (O57), bus errors (O16, O17) and races (O58). -/

namespace Sys2Proof.Machine

/-! ### The errors a command can end with -/

/-- A check that fails ends the command with its error (R114 to R116). -/
theorem exec_of_checkError {i : Instr} {s : State} {c : ErrorCode} (h : checkError i s = some c) :
    exec i s = .next (raiseError c s) := by
  rcases exec_ends i s with ⟨c', hc, he⟩ | ⟨hc, -⟩
  · obtain rfl := Option.some.inj (hc.symm.trans h)
    exact he
  · rw [h] at hc
    cases hc

/-- The error reported names the check that failed, or comes from the rule of a command whose checks
pass, which ends with none, E_BUS, E_POINT or E_ENTROPY. -/
theorem exec_err {i : Instr} {s t : State} (h : exec i s = .next t) :
    checkError i s = some t.err
    ∨ (checkError i s = none ∧ t.err ∈ [.none, .bus, .point, .entropy]) := by
  rcases exec_ends i s with ⟨c, hc, he⟩ | ⟨hc, s0, u, he, -, o, s1, rfl, -, -, -, hfits⟩
  all_goals obtain rfl := Host.Outcome.next.inj (he.symm.trans h)
  · exact .inl (hc.trans (congrArg some (complete_err_code c _ s).symm))
  · refine .inr ⟨hc, ?_⟩
    cases o with
    | ok k => exact .head _
    | vf => exact .head _
    | err c a =>
      rw [complete_err_code]
      rcases hfits with ⟨-, -, rfl | rfl⟩ | ⟨rfl, -⟩
      all_goals decide

theorem checkError_range {i : Instr} {s : State} (hs : SequenceOk i s) (hl : LengthOk i s.lat)
    (hr : ¬ RangesOk i s.lat) : checkError i s = some .range := by
  rw [← rangeFails_iff, Bool.not_eq_false] at hr
  simp [checkError, (seqFails_iff i s).mpr hs, (lengthFails_iff i s.lat).mpr hl, hr]

/-- No command that is refused for an overlap has a sequence check (R67, R114). -/
theorem checkError_overlap {i : Instr} {s : State} (hl : LengthOk i s.lat) (hr : RangesOk i s.lat)
    (ho : OverlapRefused i s.lat) : checkError i s = some .overlap := by
  have hs : SequenceOk i s := by
    rcases ho with ⟨rfl, -⟩ | ⟨rfl, -⟩ | ⟨rfl, -⟩
    all_goals exact fun h => by rcases h with h | h <;> cases h
  simp [checkError, (seqFails_iff i s).mpr hs, (lengthFails_iff i s.lat).mpr hl,
    (rangeFails_iff i s.lat).mpr hr, (overlapFails_iff i s.lat).mpr ho]

/-- Settles O13: the range check is the third, and no rule raises E_RANGE. -/
theorem rangeErrors : Obligations.RangeErrors := by
  refine ⟨fun i s hd hs hl ⟨r, hmem, hpos, hout⟩ => ?_, fun i s t ht hr herr => ?_⟩
  · have hr : ¬ RangesOk i s.lat := fun h => by
      have := h r hmem
      omega
    rw [exec_of_checkError (checkError_range hs hl hr), raiseError_calm _ s hd]
  · rcases exec_err ht with hc | ⟨-, h⟩
    · rw [herr] at hc
      rcases checkError_some i s hc with ⟨h, -⟩ | ⟨h, -⟩ | ⟨-, -, -, h⟩ | ⟨h, -⟩
      case inr.inr.inl => exact h hr
      all_goals cases h
    · simp [herr] at h

/-- Settles O14: the overlap check is the last, and no rule raises E_OVERLAP. -/
theorem overlapErrors : Obligations.OverlapErrors := by
  refine ⟨fun i s hd hl hr ho => ?_, fun i s t ht ho herr => ?_⟩
  · rw [exec_of_checkError (checkError_overlap hl hr ho), raiseError_calm _ s hd]
  · rcases exec_err ht with hc | ⟨-, h⟩
    · rw [herr] at hc
      rcases checkError_some i s hc with ⟨h, -⟩ | ⟨h, -⟩ | ⟨h, -⟩ | ⟨-, -, -, -, h⟩
      case inr.inr.inr => exact ho h
      all_goals cases h
    · simp [herr] at h

/-! ### What a command has done to the DMA space when it completes -/

/-- The memory just before a completion differs from that at the START in the output region alone
(R63). -/
theorem outcomeFits_read_outside {i : Instr} {s : State} {m : Memory} {o : CmdOutcome}
    (h : OutcomeFits i s m o) {b : Nat} (hb : b ∉ outputAddresses i s.lat) :
    m.read b = s.mem.read b := by
  cases o with
  | ok k =>
    rcases h with ⟨rfl, -⟩ | ⟨v, rfl, -, hd⟩
    · rfl
    · refine Memory.read_writeBytes_outside _ _ _ _ ?_
      simp only [outputAddresses, hd, Option.toList, List.flatMap_cons, List.flatMap_nil,
        List.append_nil, Region.addresses, List.mem_range'_1] at hb
      omega
  | vf => rw [show m = s.mem from h]
  | err c a =>
    rcases h with ⟨rfl, -⟩ | ⟨-, ⟨n, rfl, -⟩, -⟩
    · rfl
    · exact havoc_read_outside _ { s with free := n } b hb

/-- The outcome is one of those that write no output byte: every one but success and E_BUS (R65). -/
def CmdOutcome.WritesNothing (o : CmdOutcome) : Prop := (∀ k, o ≠ .ok k) ∧ ∀ a, o ≠ .err .bus a

theorem outcomeFits_writesNothing {i : Instr} {s : State} {m : Memory} {o : CmdOutcome}
    (h : OutcomeFits i s m o) (ho : o.WritesNothing) : m = s.mem := by
  obtain ⟨hok, hbus⟩ := ho
  cases o with
  | ok k => exact absurd rfl (hok k)
  | vf => exact h
  | err c a =>
    rcases h with ⟨h, -⟩ | ⟨rfl, -⟩
    · exact h
    · exact absurd rfl (hbus a)

/-- What holds of the state `u` that command `i`, started from `s`, completes with outcome `o`. -/
structure Precedes (i : Instr) (s : State) (o : CmdOutcome) (u : State) : Prop where
  racedOut_eq : u.racedOut = s.racedOut
  free_le : s.free ≤ u.free
  read_outside : ∀ b, b ∉ outputAddresses i s.lat → u.mem.read b = s.mem.read b
  canonical : s.mem.wf → u.mem.wf
  unwritten : o.WritesNothing → u.mem = s.mem

/-- Every command, from every state, ends in one completion of such a state (R117). -/
theorem exec_precedes {i : Instr} {s t : State} (h : exec i s = .next t) :
    ∃ o u, t = complete o u ∧ Precedes i s o u := by
  rcases exec_ends i s with ⟨c, -, he⟩ | ⟨hpass, s0, t', he, hctx, o, u, rfl, hu, hfree, -, hfits⟩
  all_goals obtain rfl := Host.Outcome.next.inj (he.symm.trans h)
  · exact ⟨_, s, rfl, rfl, Nat.le_refl _, fun _ _ => rfl, id, fun _ => rfl⟩
  · obtain ⟨-, -, hrange, -⟩ := (checkError_none_iff i s).mp hpass
    have hs0 := ctxStep_frame hctx
    have hlat : s0.lat = s.lat := by rw [hs0]
    have hmem : s0.mem = s.mem := by rw [hs0]
    refine ⟨o, u, rfl, ?_, ?_, fun b hb => ?_, fun hm => ?_, fun ho => ?_⟩
    · rw [hu, hs0]
    · rw [hs0] at hfree
      exact hfree
    · rw [← hmem]
      exact outcomeFits_read_outside hfits (hlat ▸ hb)
    · exact outcomeFits_wf hfits (hmem ▸ hm) (hlat ▸ hrange)
    · exact (outcomeFits_writesNothing hfits ho).trans hmem

/-- Settles O19: neither the command nor the settling of its races reaches outside the region. -/
theorem onlyOutputRegionChanges : Obligations.OnlyOutputRegionChanges := by
  intro i s t ht hraced b hb
  obtain ⟨o, u, rfl, hu⟩ := exec_precedes ht
  rw [complete_mem, havoc_read_outside _ _ _ fun h => hb (hraced b (hu.racedOut_eq ▸ h))]
  exact hu.read_outside b hb

/-- Settles O20, outcome by outcome. -/
theorem failuresWriteNothing : Obligations.FailuresWriteNothing := by
  intro i s t hd ht hfail
  obtain ⟨o, u, rfl, hu⟩ := exec_precedes ht
  have hmem : (complete o u).mem = u.mem := by rw [complete_mem, hu.racedOut_eq, hd.2, havoc_nil]
  rw [hmem]
  cases o with
  | ok k => simp [complete] at hfail
  | vf => exact ⟨hu.unwritten ⟨nofun, nofun⟩, rfl, rfl, fun _ => rfl⟩
  | err c a =>
    have hc : c ≠ .bus := by
      rintro rfl
      simp [complete] at hfail
    refine ⟨hu.unwritten ⟨nofun, fun a' h => hc ?_⟩, rfl, finish_err_errAddr hc a _, nofun⟩
    injection h

/-! ### Races of a command -/

/-- At a completion each raced output byte takes a free value (R78, I10). -/
theorem exec_racedOut_free {i : Instr} {s t : State} (hm : s.mem.wf) (ht : exec i s = .next t)
    (hlt : ∀ a ∈ s.racedOut, a < Config.dmaSpace) {a : Nat} (ha : a ∈ s.racedOut) :
    ∃ n, s.free ≤ n ∧ t.mem.read a = Config.freeByte n := by
  obtain ⟨o, u, rfl, hu⟩ := exec_precedes ht
  rw [← hu.racedOut_eq] at hlt ha
  obtain ⟨n, hn, hr⟩ := havoc_read_inside _ u (hu.canonical hm) hlt ha
  exact ⟨n, Nat.le_trans hu.free_le hn, hr⟩

/-- A read by a command gives a free value for a raced byte and the byte in memory for any other
(R78, I9). -/
theorem dmaReadBytes_getElem? {n k : Nat} (a : Nat) (s : State) (hk : k < n) :
    (a + k ∈ s.racedIn → ∃ m, s.free ≤ m ∧ (dmaReadBytes a n s).1[k]? = some (Config.freeByte m))
    ∧ (a + k ∉ s.racedIn → (dmaReadBytes a n s).1[k]? = some (s.mem.read (a + k))) := by
  induction n generalizing a k s with
  | zero => cases hk
  | succ n ih =>
    cases k with
    | zero =>
      simp only [Nat.add_zero, dmaReadBytes, List.getElem?_cons_zero, dmaReadByte]
      exact ⟨fun h => ⟨s.free, Nat.le_refl _, by rw [if_pos h]⟩, fun h => by rw [if_neg h]⟩
    | succ k =>
      have hrest : (dmaReadByte a s).2 = { s with free := (dmaReadByte a s).2.free }
          ∧ s.free ≤ (dmaReadByte a s).2.free := by
        unfold dmaReadByte
        split <;> exact ⟨rfl, by simp⟩
      obtain ⟨hframe, hle⟩ := hrest
      have hraced : (dmaReadByte a s).2.racedIn = s.racedIn := by rw [hframe]
      have hmem : (dmaReadByte a s).2.mem = s.mem := by rw [hframe]
      have := ih (a + 1) (dmaReadByte a s).2 (Nat.lt_of_succ_lt_succ hk)
      rw [hraced, hmem, Nat.add_assoc, Nat.add_comm 1 k] at this
      obtain ⟨hin, hout⟩ := this
      refine ⟨fun h => ?_, hout⟩
      obtain ⟨m, hm, hr⟩ := hin h
      exact ⟨m, Nat.le_trans hle hm, hr⟩

/-! ### Window accesses -/

@[simp] theorem resetStep_inputs (s : State) : (resetStep s).inputs = s.inputs := by
  rw [resetStep_frame]

theorem writeCtrl_inputs (v : Word) (s : State) : (writeCtrl v s).inputs = s.inputs := by
  unfold writeCtrl
  split
  · exact resetStep_inputs s
  · dsimp only
    split
    · split <;> rfl
    · rfl

/-- A write of the window leaves what the outside world does next alone. -/
@[simp] theorem writeWindow_inputs (off : Nat) (v : Word) (s : State) :
    (writeWindow off v s).inputs = s.inputs := by
  unfold writeWindow
  split
  · rename_i r _
    cases r with
    | ctrl => exact writeCtrl_inputs v s
    | _ => rfl
  · rfl

/-- Any other access that starts in the window outside reset is a fault (R60, I5). -/
theorem windowAccess_misaligned {off : Nat} {size : AccessSize} {act : Nat → State → State}
    {s : State} (hr : s.inReset = false) (hlt : off < 256) (h : ¬ (size = .b32 ∧ off % 4 = 0)) :
    windowAccess (Config.mmioBase + off) size act s
      = .fault (.windowAccess (Config.mmioBase + off) size) := by
  unfold windowAccess
  rw [if_pos (touchesWindow_inside off size hlt), hr, alignedInWindow_inside, decide_eq_false h]
  rfl

/-- Settles O57, for a store and for a load. -/
theorem onlyAlignedWordAccesses : Obligations.OnlyAlignedWordAccesses := by
  intro s rest off size v hr hlt hin
  let u : State := { s with inputs := rest }
  have answers (act : Nat → State → State) (hact : (act off u).inputs = rest) :
      ((size = .b32 ∧ off % 4 = 0) →
        ∃ t, windowAccess (Config.mmioBase + off) size act u = .next t ∧ t.inputs = rest)
      ∧ (¬ (size = .b32 ∧ off % 4 = 0) → windowAccess (Config.mmioBase + off) size act u
          = .fault (.windowAccess (Config.mmioBase + off) size)) := by
    refine ⟨?_, windowAccess_misaligned hr hlt⟩
    rintro ⟨rfl, h4⟩
    exact ⟨_, windowAccess_aligned off act u hr hlt h4, hact⟩
  rcases hin with hin | hin
  all_goals rw [step_of_inputs hin]
  · exact answers (writeWindow · v) (writeWindow_inputs off v u)
  · exact answers loadWindow rfl

/-! ### E_BUS -/

/-- How a command that ends with E_BUS leaves the state, the SHA-512 context apart (R307). -/
structure EndsWithBusError (i : Instr) (s t : State) : Prop where
  err : t.err = .bus
  vfail : t.vfail = false
  outLen : t.outLen = 0#32
  busy : t.busy = false
  done : t.done = true
  errAddr : ∃ f ∈ failingReads i s ++ failingWrites i s, t.errAddr = beatAlign Config.dmaBeat f
  read_outside : ∀ b, b ∉ outputAddresses i s.lat → t.mem.read b = s.mem.read b

/-- The SHA-512 context of `t` is that of `s`. -/
abbrev SameCtx (t s : State) : Prop :=
  t.ctxValid = s.ctxValid ∧ t.ctxH = s.ctxH ∧ t.ctxMlen = s.ctxMlen ∧ t.ctxBuf = s.ctxBuf

/-- E_BUS comes from the rule of a command alone, which by then has done its work on the context. -/
theorem exec_bus {i : Instr} {s t : State} (hd : DutyKept s) (h : exec i s = .next t)
    (he : t.err = .bus) : EndsWithBusError i s t ∧ ∃ s0, CtxStep i s s0 ∧ SameCtx t s0 := by
  rcases exec_ends i s with ⟨c, hc, hx⟩ | ⟨-, s0, t', hx, hctx, o, u, rfl, hu, -, -, hfits⟩
  all_goals obtain rfl := Host.Outcome.next.inj (hx.symm.trans h)
  · rw [raiseError, complete_err_code] at he
    rcases checkError_some i s hc with ⟨h, -⟩ | ⟨h, -⟩ | ⟨h, -⟩ | ⟨h, -⟩
    all_goals cases he.symm.trans h
  · have hs0 := ctxStep_frame hctx
    have hlat : s0.lat = s.lat := by rw [hs0]
    have hbus : s0.busHoles = s.busHoles := by rw [hs0]
    have hmem : s0.mem = s.mem := by rw [hs0]
    have hraced : u.racedOut = [] := by
      rw [hu, hs0]
      exact hd.2
    cases o with
    | ok k => cases he
    | vf => cases he
    | err c a =>
      rw [complete_err_code] at he
      subst he
      refine ⟨⟨rfl, rfl, rfl, rfl, rfl, ?_, fun b hb => ?_⟩, s0, hctx, ?_⟩
      · rcases hfits with ⟨-, -, h | h⟩ | ⟨-, -, f, hf, ha⟩
        · cases h
        · cases h
        · rw [failingReads_congr i hlat hbus, failingWrites_congr i hlat hbus] at hf
          exact ⟨f, hf, ha⟩
      · rw [complete_mem, hraced, havoc_nil, ← hmem]
        exact outcomeFits_read_outside hfits (hlat ▸ hb)
      · simp only [SameCtx, complete_ctxValid, complete_ctxH, complete_ctxMlen, complete_ctxBuf]
        rw [hu]
        exact ⟨rfl, rfl, rfl, rfl⟩

/-- The context after a failing read: the commands that hash, and SHA512_UPDATE, lose it (R139, R142). -/
theorem ctxStep_of_failingReads {i : Instr} {s s0 : State} (h : CtxStep i s s0)
    (hr : failingReads i s ≠ []) :
    if usesHashPipeline i = true ∨ i = .sha512Update then s0 = invalidateCtx s else s0 = s := by
  have hz : i ≠ .zeroize := by rintro rfl; exact hr rfl
  have hf : i ≠ .sha512Final := by rintro rfl; exact hr rfl
  have hi : i ≠ .sha512Init := by rintro rfl; exact hr rfl
  simp only [CtxStep, hz, hf, hi, or_false, if_false, hr, ne_eq, not_false_eq_true, true_and,
    false_and] at h
  by_cases hh : usesHashPipeline i = true
  · simpa [hh] using h
  · simpa [hh] using h

/-- The context after a failing write: the commands that hash, and SHA512_FINAL, lose it (R139, R143). -/
theorem ctxStep_of_failingWrites {i : Instr} {s s0 : State} (h : CtxStep i s s0)
    (hw : failingWrites i s ≠ []) :
    if usesHashPipeline i = true ∨ i = .sha512Final then s0 = invalidateCtx s else s0 = s := by
  have hz : i ≠ .zeroize := by rintro rfl; exact hw rfl
  have hu : i ≠ .sha512Update := by rintro rfl; exact hw rfl
  have hi : i ≠ .sha512Init := by rintro rfl; exact hw rfl
  simpa only [CtxStep, hz, hu, hi, false_or, if_false] using h

/-- The context of the state after a command that has invalidated it or left it alone (R139). -/
theorem sameCtx_cases {c : Prop} [Decidable c] {s s0 t : State}
    (h : if c then s0 = invalidateCtx s else s0 = s) (ht : SameCtx t s0) :
    if c then t.ctxValid = false ∧ t.ctxH = ChainWords.zero ∧ t.ctxMlen = 0#128 ∧ t.ctxBuf = []
    else SameCtx t s := by
  split_ifs at h ⊢
  all_goals
    subst h
    exact ht

theorem busFail_err (i : Instr) (s : State) : (busFail i s).err = .bus := rfl

section
variable {i : Instr} {pre onError rest : State → State} {s : State}

/-- A rule that starts with its input reads, where they fail (R64). -/
theorem runCommand_readsThen_fails (hc : checkError i s = none) (hr : failingReads i (pre s) ≠ []) :
    runCommand i (fun s => readsThen i onError rest (pre s)) s
      = .next (busFail i (onError (pre s))) :=
  (runCommand_passes i _ s hc).trans (congrArg _ (readsThen_fails i onError rest _ hr))

/-- A rule that starts with its input reads, where every byte can be read (R64). -/
theorem runCommand_readsThen_ok (hc : checkError i s = none) (hr : failingReads i (pre s) = []) :
    runCommand i (fun s => readsThen i onError rest (pre s)) s = .next (rest (pre s)) :=
  (runCommand_passes i _ s hc).trans (congrArg _ (readsThen_ok i onError rest _ hr))

end

/-- A command whose checks pass ends with E_BUS when an input byte cannot be read (R64). -/
theorem exec_of_failingReads {i : Instr} {s : State} (hc : checkError i s = none)
    (hr : failingReads i s ≠ []) : ∃ t, exec i s = .next t ∧ t.err = .bus := by
  cases i
  case nop | zeroize | sha512Init | sha512Final | signKeypair => exact absurd rfl hr
  case sha512 | auth | authVerify | signPublickey | sign | signOpen =>
    exact ⟨_, runCommand_readsThen_fails (pre := invalidateCtx) hc hr, busFail_err _ _⟩
  all_goals exact ⟨_, runCommand_readsThen_fails (pre := id) hc hr, busFail_err _ _⟩

theorem mem_failingReads {i : Instr} {s : State} {f : Nat} :
    f ∈ failingReads i s ↔ f ∈ inputAddresses i s.lat ∧ s.busError .read f = true :=
  List.mem_filter

theorem mem_failingWrites {i : Instr} {s : State} {f : Nat} :
    f ∈ failingWrites i s ↔ f ∈ outputAddresses i s.lat ∧ s.busError .write f = true :=
  List.mem_filter

/-- Settles O16: E_BUS by the read, its completion and context by what any E_BUS leaves. -/
theorem busErrorOnRead : Obligations.BusErrorOnRead := by
  intro i s hd hpass ⟨a, ha, hbad⟩
  have hr : failingReads i s ≠ [] := List.ne_nil_of_mem (mem_failingReads.mpr ⟨ha, hbad⟩)
  obtain ⟨t, ht, herr⟩ := exec_of_failingReads ((checkError_none_iff i s).mpr hpass) hr
  obtain ⟨hend, s0, hstep, hctx⟩ := exec_bus hd ht herr
  obtain ⟨f, hf, haddr⟩ := hend.errAddr
  rw [List.mem_append, mem_failingReads, mem_failingWrites] at hf
  exact ⟨t, ht, herr, hend.vfail, hend.outLen, hend.busy, hend.done, ⟨f, hf, haddr⟩,
    hend.read_outside, sameCtx_cases (ctxStep_of_failingReads hstep hr) hctx⟩

/-! ### A failing write comes after every validity outcome (R304) -/

@[simp] theorem failingWrites_memRead (i : Instr) (a n : Nat) (s : State) :
    failingWrites i (memRead a n s).2 = failingWrites i s :=
  failingWrites_congr i (by simp) (by simp)

@[simp] theorem failingWrites_invalidateCtx (i : Instr) (s : State) :
    failingWrites i (invalidateCtx s) = failingWrites i s := rfl

@[simp] theorem failingWrites_entropyRead (i : Instr) (s : State) :
    failingWrites i (entropyRead s).2 = failingWrites i s :=
  failingWrites_congr i (by simp) (by simp)

theorem writeOut_err {i : Instr} {s : State} (v : List Byte) (hw : failingWrites i s ≠ []) :
    (writeOut i v s).err = .bus := by
  rw [writeOut_fails i v s hw]
  exact busFail_err i s

theorem writePoint_err {i : Instr} {s : State} (v : Option (List Byte))
    (hw : failingWrites i s ≠ []) :
    (writePoint i v s).err = if v.isSome = true then .bus else .point := by
  cases v with
  | none => exact complete_err_code .point 0#32 s
  | some v => exact writeOut_err v hw

theorem memRead_bytes_calm {s : State} (a n : Nat) (h : s.racedIn = []) :
    (memRead a n s).1 = s.mem.readBytes a n := by rw [memRead_calm a n s h]

theorem addEncoded_isSome (e1 e2 : List Byte) :
    (addEncoded e1 e2).isSome = true
      ↔ (decodePoint e1).isSome = true ∧ (decodePoint e2).isSome = true := by
  unfold addEncoded
  cases decodePoint e1 <;> cases decodePoint e2 <;> simp

/-- The outcomes of R304 that come before a failing write. -/
def EndsInvalid (i : Instr) (t : State) : Prop :=
  (i = .signKeypair ∧ t.err = .entropy)
  ∨ (i ∈ [.ptDecode, .ptEncode, .ptAdd, .ptScalarmult] ∧ t.err = .point)
  ∨ (i = .signOpen ∧ t.vfail = true)

/-- The command ends with E_BUS if what it is given is valid, and with an earlier outcome if not. -/
def EndsByValidity (i : Instr) (s t : State) : Prop :=
  (¬ OperandsValid i s → EndsInvalid i t) ∧ (OperandsValid i s → t.err = .bus)

section
variable {i : Instr} {s u : State}

/-- A rule that comes to its output write with valid operands. -/
theorem endsByValidity_writeOut {v : List Byte} (hvalid : OperandsValid i s)
    (hw : failingWrites i u ≠ []) : EndsByValidity i s (writeOut i v u) :=
  ⟨fun h => absurd hvalid h, fun _ => writeOut_err v hw⟩

/-- A rule of the point engine that comes to its output write (R302). -/
theorem endsByValidity_writePoint {v : Option (List Byte)}
    (hi : i ∈ [.ptDecode, .ptEncode, .ptAdd, .ptScalarmult])
    (hvalid : OperandsValid i s ↔ v.isSome = true) (hw : failingWrites i u ≠ []) :
    EndsByValidity i s (writePoint i v u) := by
  have herr := writePoint_err v hw
  exact ⟨fun h => .inr (.inl ⟨hi, herr.trans (if_neg (mt hvalid.mpr h))⟩),
    fun h => herr.trans (if_pos (hvalid.mp h))⟩

end

theorem operandsValid_signKeypair (s : State) :
    OperandsValid .signKeypair s ↔ (entropyRead (invalidateCtx s)).1.isSome = true := by
  simp [OperandsValid, entropyRead_draw]

theorem operandsValid_signOpen (s : State) :
    OperandsValid .signOpen s ↔ signatureValid (inputBytes s s.lat.aAddr s.lat.aLen.toNat)
      (inputBytes s s.lat.cAddr 32) = true := by
  simp [OperandsValid, verifySigned]

/-- A command whose checks pass and whose input bytes can all be read, where an output byte cannot
be written (R304). -/
theorem exec_of_failingWrites {i : Instr} {s : State} (hd : DutyKept s)
    (hc : checkError i s = none) (hr : failingReads i s = []) (hw : failingWrites i s ≠ []) :
    ∃ t, exec i s = .next t ∧ EndsByValidity i s t := by
  obtain ⟨hraced, -⟩ := hd
  cases i
  case nop | zeroize | sha512Init | sha512Update | authVerify | ctCompare => exact absurd rfl hw
  case sha512Final =>
    dsimp only [exec, execSha512Final]
    exact ⟨_, runCommand_passes _ _ s hc,
      endsByValidity_writeOut (by simp [OperandsValid]) (by simpa using hw)⟩
  case signKeypair =>
    dsimp only [exec, execSignKeypair]
    refine ⟨_, runCommand_passes _ _ s hc, ?_⟩
    have hvalid := operandsValid_signKeypair s
    split
    · rename_i hdraw
      rw [hdraw] at hvalid
      exact ⟨fun _ => .inl ⟨rfl, complete_err_code .entropy 0#32 _⟩, fun h => nomatch hvalid.mp h⟩
    · rename_i seed hdraw
      rw [hdraw] at hvalid
      exact endsByValidity_writeOut (hvalid.mpr rfl) (by simpa using hw)
  case signOpen =>
    refine ⟨_, runCommand_readsThen_ok (pre := invalidateCtx) hc hr, ?_⟩
    have hvalid := operandsValid_signOpen s
    simp only [memRead_bytes_calm, hraced, invalidateCtx_racedIn, invalidateCtx_mem,
      invalidateCtx_lat, memRead_racedIn, memRead_mem]
    split
    · exact endsByValidity_writeOut (hvalid.mpr ‹_›) (by simpa using hw)
    · exact ⟨fun _ => .inr (.inr ⟨rfl, rfl⟩), fun h => absurd (hvalid.mp h) ‹_›⟩
  case sha512 | auth | signPublickey | sign =>
    exact ⟨_, runCommand_readsThen_ok (pre := invalidateCtx) hc hr,
      endsByValidity_writeOut (by simp [OperandsValid]) (by simpa using hw)⟩
  case ptDecode | ptEncode | ptAdd | ptScalarmult =>
    exact ⟨_, runCommand_readsThen_ok (pre := id) hc hr,
      endsByValidity_writePoint (by simp)
        (by simp [OperandsValid, memRead_bytes_calm, hraced, addEncoded_isSome])
        (by simpa using hw)⟩
  all_goals
    exact ⟨_, runCommand_readsThen_ok (pre := id) hc hr,
      endsByValidity_writeOut (by simp [OperandsValid]) (by simpa using hw)⟩

/-- Settles O17: the outcome by the validity of what the command is given, E_BUS as for a read. -/
theorem busErrorOnWrite : Obligations.BusErrorOnWrite := by
  intro i s hd hpass hread ⟨a, ha, hbad⟩
  have hr : failingReads i s = [] := (failingReads_nil_iff i s).mpr hread
  have hw : failingWrites i s ≠ [] := List.ne_nil_of_mem (mem_failingWrites.mpr ⟨ha, hbad⟩)
  obtain ⟨t, ht, hinvalid, hvalid⟩ :=
    exec_of_failingWrites hd ((checkError_none_iff i s).mpr hpass) hr hw
  refine ⟨t, ht, hinvalid, fun h => ?_⟩
  obtain ⟨hend, s0, hstep, hctx⟩ := exec_bus hd ht (hvalid h)
  obtain ⟨f, hf, haddr⟩ := hend.errAddr
  rw [hr, List.nil_append, mem_failingWrites] at hf
  obtain ⟨hout, hfails⟩ := hf
  exact ⟨hend.err, hend.vfail, hend.outLen, hend.busy, hend.done, ⟨f, hout, hfails, haddr⟩,
    hend.read_outside, sameCtx_cases (ctxStep_of_failingWrites hstep hw) hctx⟩

/-! ### The core sees neither the events to come nor the value last loaded -/

/-- `s` without the two fields no step of the core reads: the events to come and the value the last
host load returned (notes/assumptions/11.md, 22.md). -/
def State.bare (s : State) : State := { s with inputs := [], rdata := 0#32 }

@[simp] theorem bare_lat (s : State) : s.bare.lat = s.lat := rfl

theorem failingReads_bare (i : Instr) (s : State) : failingReads i s.bare = failingReads i s :=
  failingReads_congr i rfl rfl

theorem failingWrites_bare (i : Instr) (s : State) : failingWrites i s.bare = failingWrites i s :=
  failingWrites_congr i rfl rfl

theorem havoc_bare (as : List Nat) (s : State) : havoc as s.bare = (havoc as s).bare := by
  induction as generalizing s with
  | nil => rfl
  | cons a as ih =>
    exact ih { s with mem := s.mem.write a (Config.freeByte s.free), free := s.free + 1 }

@[simp] theorem complete_bare (o : CmdOutcome) (s : State) :
    complete o s.bare = (complete o s).bare := by
  unfold complete settleRaces
  rw [show s.bare.racedOut = s.racedOut from rfl, havoc_bare]
  rfl

@[simp] theorem raiseError_bare (c : ErrorCode) (s : State) :
    raiseError c s.bare = (raiseError c s).bare :=
  complete_bare _ s

@[simp] theorem verifyFail_bare (s : State) : verifyFail s.bare = (verifyFail s).bare :=
  complete_bare _ s

@[simp] theorem verdict_bare (b : Bool) (s : State) : verdict b s.bare = (verdict b s).bare := by
  cases b with
  | false => exact verifyFail_bare s
  | true => exact complete_bare (.ok 0) s

theorem busFail_bare (i : Instr) (s : State) : busFail i s.bare = (busFail i s).bare := by
  unfold busFail
  rw [failingReads_bare, failingWrites_bare, bare_lat]
  exact (congrArg _ (havoc_bare _ { s with free := s.free + 1 })).trans (complete_bare _ _)

@[simp] theorem writeOut_bare (i : Instr) (v : List Byte) (s : State) :
    writeOut i v s.bare = (writeOut i v s).bare := by
  unfold writeOut
  rw [failingWrites_bare]
  split
  · exact complete_bare _ { s with mem := s.mem.writeBytes s.lat.dAddr.toNat v }
  · exact busFail_bare i s

@[simp] theorem writePoint_bare (i : Instr) (v : Option (List Byte)) (s : State) :
    writePoint i v s.bare = (writePoint i v s).bare := by
  cases v with
  | none => exact raiseError_bare _ s
  | some v => exact writeOut_bare i v s

theorem dmaReadBytes_bare (a n : Nat) (s : State) :
    dmaReadBytes a n s.bare = ((dmaReadBytes a n s).1, (dmaReadBytes a n s).2.bare) := by
  induction n generalizing a s with
  | zero => rfl
  | succ n ih =>
    have hbyte : dmaReadByte a s.bare = ((dmaReadByte a s).1, (dmaReadByte a s).2.bare) := by
      simp only [dmaReadByte, show s.bare.racedIn = s.racedIn from rfl]
      split <;> rfl
    simp only [dmaReadBytes, hbyte, ih]

@[simp] theorem memRead_bare (a n : Nat) (s : State) :
    memRead a n s.bare = ((memRead a n s).1, (memRead a n s).2.bare) := by
  unfold memRead
  rw [dmaReadBytes_bare]
  rfl

@[simp] theorem invalidateCtx_bare (s : State) :
    invalidateCtx s.bare = (invalidateCtx s).bare := rfl

@[simp] theorem absorb_bare (data : List Byte) (s : State) :
    absorb data s.bare = (absorb data s).bare := rfl

@[simp] theorem finalize_bare (s : State) : finalize s.bare = finalize s := rfl

theorem entropyRead_bare (s : State) :
    entropyRead s.bare = ((entropyRead s).1, (entropyRead s).2.bare) := by
  unfold entropyRead
  rw [show s.bare.entropy = s.entropy from rfl]
  split <;> rfl

theorem readsThen_bare {i : Instr} {onError rest : State → State} (s : State)
    (he : onError s.bare = (onError s).bare) (hr : rest s.bare = (rest s).bare) :
    readsThen i onError rest s.bare = (readsThen i onError rest s).bare := by
  unfold readsThen
  rw [failingReads_bare]
  split
  · exact hr
  · rw [he, busFail_bare]

theorem runCommand_bare {i : Instr} {body : State → State} {s : State}
    (h : body s.bare = (body s).bare) :
    runCommand i body s.bare = mapNext State.bare (runCommand i body s) := by
  simp only [runCommand, checkError_congr i (s := s.bare) (t := s) rfl rfl, mapNext]
  split
  · rw [raiseError_bare]
  · rw [h]

theorem fieldBinary_bare (i : Instr) (f : Nat → Nat → Nat) (s : State) :
    fieldBinary i f s.bare = mapNext State.bare (fieldBinary i f s) :=
  runCommand_bare (readsThen_bare s rfl (by simp))

theorem execSignKeypair_bare (s : State) :
    execSignKeypair s.bare = mapNext State.bare (execSignKeypair s) := by
  refine runCommand_bare ?_
  simp only [invalidateCtx_bare, entropyRead_bare]
  split
  · exact raiseError_bare _ _
  · exact writeOut_bare _ _ _

theorem execSignOpen_bare (s : State) :
    execSignOpen s.bare = mapNext State.bare (execSignOpen s) := by
  refine runCommand_bare (readsThen_bare (invalidateCtx s) rfl ?_)
  simp only [bare_lat, memRead_bare]
  split
  · exact writeOut_bare _ _ _
  · exact verifyFail_bare _

/-- A command does the same whatever the outside world does next and last read (R117, R118). -/
theorem exec_bare (i : Instr) (s : State) : exec i s.bare = mapNext State.bare (exec i s) := by
  cases i
  all_goals dsimp only [exec]
  case nop => exact runCommand_bare (complete_bare (.ok 0) s)
  case zeroize => exact runCommand_bare (complete_bare (.ok 0) { invalidateCtx s with work := [] })
  case sha512Init => exact runCommand_bare (complete_bare (.ok 0) (startCtx s))
  case sha512Final => exact runCommand_bare (by simp)
  case sha512Update => exact runCommand_bare (readsThen_bare s rfl (by simp))
  case signKeypair => exact execSignKeypair_bare s
  case signOpen => exact execSignOpen_bare s
  case feAdd | feSub | feMul => exact fieldBinary_bare _ _ s
  case sha512 | auth | authVerify | signPublickey | sign =>
    exact runCommand_bare (readsThen_bare (invalidateCtx s) rfl (by simp))
  all_goals exact runCommand_bare (readsThen_bare s rfl (by simp))

theorem coreStep_bare (s : State) : coreStep s.bare = mapNext State.bare (coreStep s) := by
  unfold coreStep
  rw [show s.bare.busy = s.busy from rfl, bare_lat]
  split
  · split
    · exact exec_bare _ s
    all_goals exact congrArg _ (raiseError_bare _ s)
  · rfl

/-! ### Two runs that differ in these two fields alone -/

/-- `o` and `o'` stop alike, or answer next states that are equal but for the two fields. -/
def SameBare (o o' : Host.Outcome State Fault Refusal) : Prop :=
  mapNext State.bare o = mapNext State.bare o'

theorem sameBare_next {s t : State} : SameBare (.next s) (.next t) ↔ s.bare = t.bare :=
  ⟨Host.Outcome.next.inj, congrArg _⟩

theorem coreStep_sameBare {s t : State} (h : s.bare = t.bare) :
    SameBare (coreStep s) (coreStep t) := by
  unfold SameBare
  rw [← coreStep_bare, h, coreStep_bare]

/-- What looks at neither field is the same of both states. -/
theorem eq_of_bare_eq {α : Type} {s t : State} (h : s.bare = t.bare) (f : State → α)
    (hf : ∀ u : State, f u.bare = f u) : f s = f t := by
  rw [← hf s, h, hf]

/-- What changes neither field, and looks at neither, keeps such states alike. -/
theorem bare_eq_of_commutes {f : State → State} {s t : State}
    (hf : ∀ u : State, f u.bare = (f u).bare) (h : s.bare = t.bare) : (f s).bare = (f t).bare := by
  rw [← hf, h, hf]

theorem windowAccess_sameBare {addr : Nat} {size : AccessSize} {act : Nat → State → State}
    {s t : State} (h : s.bare = t.bare) (hact : ∀ off, (act off s).bare = (act off t).bare) :
    SameBare (windowAccess addr size act s) (windowAccess addr size act t) := by
  unfold windowAccess
  rw [eq_of_bare_eq h State.inReset fun _ => rfl]
  split
  · split
    · rfl
    · split
      · exact sameBare_next.mpr (hact _)
      · rfl
  · exact sameBare_next.mpr h

theorem resetStep_bare (s : State) : resetStep s.bare = (resetStep s).bare :=
  congrArg resetCore (havoc_bare (activeOutputs s) s)

theorem writeCtrl_bare (v : Word) (s : State) : writeCtrl v s.bare = (writeCtrl v s).bare := by
  unfold writeCtrl
  split
  · exact resetStep_bare s
  · dsimp only
    rw [show s.bare.busy = s.busy from rfl]
    split
    · split <;> rfl
    · rfl

theorem writeWindow_bare (off : Nat) (v : Word) (s : State) :
    writeWindow off v s.bare = (writeWindow off v s).bare := by
  unfold writeWindow
  split
  · rename_i r _
    cases r with
    | ctrl => exact writeCtrl_bare v s
    | _ => rfl
  · rfl

theorem countLoad_bare (a : Word) (s : State) : countLoad a s.bare = (countLoad a s).bare := by
  unfold countLoad
  rw [show activeOutputs s.bare = activeOutputs s from rfl]
  split <;> rfl

theorem dmaLoadByte_bare (a : Word) (s : State) :
    (dmaLoadByte a s).bare = (countLoad a s).bare := rfl

/-- An event does the same in the look ahead, where another agent's load only counts. -/
theorem eventStep_sameBare {e : HostEvent} {s t : State} (he : ∀ polls, e ≠ .wait polls)
    (h : s.bare = t.bare) : SameBare (eventStep countLoad e s) (hostStep e t) := by
  unfold hostStep eventStep
  cases e with
  | store addr size v =>
    exact windowAccess_sameBare h fun off => bare_eq_of_commutes (writeWindow_bare off v) h
  | load addr size => exact windowAccess_sameBare h fun _ => h
  | dmaStore a b =>
    exact sameBare_next.mpr (bare_eq_of_commutes (f := dmaStoreByte a b) (fun _ => rfl) h)
  | dmaLoad a =>
    exact sameBare_next.mpr
      ((bare_eq_of_commutes (countLoad_bare a) h).trans (dmaLoadByte_bare a t).symm)
  | assertReset =>
    exact sameBare_next.mpr (congrArg (fun u : State => { u with inReset := true })
      (bare_eq_of_commutes resetStep_bare h))
  | releaseReset =>
    exact sameBare_next.mpr
      (bare_eq_of_commutes (f := fun u => { u with inReset := false }) (fun _ => rfl) h)
  | setBus holes =>
    exact sameBare_next.mpr
      (bare_eq_of_commutes (f := fun u => { u with busHoles := holes }) (fun _ => rfl) h)
  | offerEntropy d =>
    exact sameBare_next.mpr
      (bare_eq_of_commutes (f := fun u => { u with entropy := u.entropy ++ [d] }) (fun _ => rfl) h)
  | coreTurn => exact coreStep_sameBare h
  | wait polls => exact absurd rfl (he polls)

/-! ### The look ahead of another agent's load tells of the run to come -/

/-- After its turn the core is IDLE (R117). -/
theorem coreStep_idle {s t : State} (h : coreStep s = .next t) : t.busy = false := by
  cases hb : s.busy with
  | true =>
    obtain ⟨o, u, he, -⟩ := coreStep_completes hb
    obtain rfl := Host.Outcome.next.inj (he.symm.trans h)
    exact complete_busy o u
  | false =>
    unfold coreStep at h
    rw [hb] at h
    obtain rfl := Host.Outcome.next.inj h
    exact hb

/-- An event that leaves the core BUSY leaves the events after it as they are. -/
theorem hostStep_inputs {e : HostEvent} {s t : State} (he : ∀ polls, e ≠ .wait polls)
    (h : hostStep e s = .next t) (hb : t.busy = true) : t.inputs = s.inputs := by
  unfold hostStep eventStep at h
  cases e with
  | store addr size v =>
    rcases windowAccess_next h with rfl | ⟨-, off, rfl⟩
    · rfl
    · exact writeWindow_inputs off v s
  | load addr size =>
    rcases windowAccess_next h with rfl | ⟨-, off, rfl⟩
    all_goals rfl
  | coreTurn => simp [coreStep_idle h] at hb
  | wait polls => exact absurd rfl (he polls)
  | dmaLoad a =>
    obtain rfl := Host.Outcome.next.inj h
    rw [dmaLoadByte_frame]
  | assertReset =>
    obtain rfl := Host.Outcome.next.inj h
    exact resetStep_inputs s
  | dmaStore | releaseReset | setBus | offerEntropy =>
    obtain rfl := Host.Outcome.next.inj h
    rfl

/-- `r` is what a look ahead from `x` has to find: where the command in progress completes in the
run from `x`, the states it completes from and in, but for the two fields; nothing elsewhere. -/
def Foretells (r : Option (State × State)) (x : State) : Prop :=
  (∀ last u, CompletesTo x last u →
    ∃ last' u', r = some (last', u') ∧ last'.bare = last.bare ∧ u'.bare = u.bare)
  ∧ (r.isSome = true → ∃ last u, CompletesTo x last u)

theorem completesTo_of_step {x y last u : State} (h : CompletesTo x last u)
    (hstep : step x = .next y) :
    (y.busy = true ∧ CompletesTo y last u)
    ∨ (y.busy = false ∧ y.done = true ∧ last = x ∧ u = y) := by
  cases h with
  | now _ hs hidle hdone =>
    obtain rfl := Host.Outcome.next.inj (hs.symm.trans hstep)
    exact .inr ⟨hidle, hdone, rfl, rfl⟩
  | later _ hs hbusy hrest =>
    obtain rfl := Host.Outcome.next.inj (hs.symm.trans hstep)
    exact .inl ⟨hbusy, hrest⟩

theorem completesTo_next {x last u : State} (h : CompletesTo x last u) :
    ∃ y, step x = .next y := by
  cases h with
  | now _ hs => exact ⟨_, hs⟩
  | later _ hs => exact ⟨_, hs⟩

/-- A run that stops completes nothing. -/
theorem foretells_stop {x : State} (h : ∀ y, step x ≠ .next y) : Foretells none x := by
  refine ⟨fun last u hrun => ?_, nofun⟩
  obtain ⟨y, hy⟩ := completesTo_next hrun
  exact absurd hy (h y)

/-- While BUSY, what the run goes on to do is what it does. -/
theorem foretells_later {r : Option (State × State)} {x y : State} (hb : x.busy = true)
    (hx : step x = .next y) (hy : y.busy = true) (h : Foretells r y) : Foretells r x := by
  obtain ⟨hruns, hends⟩ := h
  refine ⟨fun last u hrun => ?_, fun hsome => ?_⟩
  · rcases completesTo_of_step hrun hx with ⟨-, hrun⟩ | ⟨hidle, -⟩
    · exact hruns last u hrun
    · cases hy.symm.trans hidle
  · obtain ⟨last, u, hrun⟩ := hends hsome
    exact ⟨last, u, .later hb hx hy hrun⟩

/-- A step that ends BUSY completes the command if it sets DONE, and aborts it otherwise
(R117, R342). -/
theorem foretells_now {s t x y : State} (hsx : s.bare = x.bare) (hty : t.bare = y.bare)
    (hb : x.busy = true) (hx : step x = .next y) (hy : y.busy = false) :
    Foretells (if y.done = true then some (s, t) else none) x := by
  refine ⟨fun last u hrun => ?_, fun hsome => ?_⟩
  · rcases completesTo_of_step hrun hx with ⟨hbusy, -⟩ | ⟨-, hdone, rfl, rfl⟩
    · cases hy.symm.trans hbusy
    · exact ⟨s, t, if_pos hdone, hsx, hty⟩
  · split at hsome
    · exact ⟨x, y, .now hb hx hy ‹_›⟩
    · cases hsome

/-- One step of the look ahead, from `s` by `o`, beside one step of the run, from `x`. -/
theorem foretells_endOr {go : State → Option (State × State)} {s x : State}
    {o : Host.Outcome State Fault Refusal} (hsx : s.bare = x.bare) (hb : x.busy = true)
    (ho : SameBare o (step x))
    (hgo : ∀ t y, step x = .next y → t.bare = y.bare → y.busy = true → Foretells (go t) y) :
    Foretells (endOr go s o) x := by
  cases hx : step x with
  | fault | refused =>
    rw [hx] at ho
    cases o with
    | next => cases ho
    | fault | refused => exact foretells_stop (by simp [hx])
  | next y =>
    rw [hx] at ho
    cases o with
    | fault | refused => cases ho
    | next t =>
      have hty := sameBare_next.mp ho
      unfold endOr
      dsimp only
      rw [eq_of_bare_eq hty State.busy fun _ => rfl, eq_of_bare_eq hty State.done fun _ => rfl]
      cases hy : y.busy with
      | true => exact foretells_later hb hx hy (hgo t y hx hty hy)
      | false => exact foretells_now hsx hty hb hx hy

/-- The look ahead ends with the core's turn, as the run does. -/
theorem foretells_turn {go : State → Option (State × State)} {s x : State} (hsx : s.bare = x.bare)
    (hb : x.busy = true) {es : List HostEvent} (hx : step x = coreStep { x with inputs := es }) :
    Foretells (endOr go s (coreStep s)) x := by
  refine foretells_endOr hsx hb ?_ fun t y hy _ hyb => ?_
  · rw [hx]
    exact coreStep_sameBare hsx
  · simp [coreStep_idle (hx.symm.trans hy)] at hyb

/-- A turn of the loop `wait` is a read of STATUS, the events to come apart (R99). -/
theorem readStatus_sameBare {again : HostEvent} {s t : State} (h : s.bare = t.bare) :
    SameBare (readStatus s) (pollStatus again t) := by
  have hread : SameBare (readStatus s) (readStatus t) := windowAccess_sameBare h fun _ => h
  refine hread.trans ?_
  unfold pollStatus
  cases readStatus t with
  | next u =>
    refine sameBare_next.mpr ?_
    split <;> rfl
  | fault | refused => rfl

/-- While the core is BUSY the loop goes on (R99). -/
theorem pollStatus_inputs {again : HostEvent} {s t : State} (hb : s.busy = true)
    (h : pollStatus again s = .next t) : t.inputs = again :: s.inputs := by
  cases hr : s.inReset with
  | true =>
    rw [pollStatus_reset again s hr] at h
    cases h
  | false =>
    rw [pollStatus_eq again s hr, if_pos hb] at h
    obtain rfl := Host.Outcome.next.inj h
    rfl

/-- The look ahead through a `wait` (R99). -/
theorem waitEnd_foretells {polls : Nat} {es : List HostEvent} {s x : State}
    (hin : x.inputs = .wait polls :: es) (hsx : s.bare = x.bare) (hb : x.busy = true) :
    Foretells (waitEnd polls s) x := by
  induction polls generalizing s x with
  | zero =>
    refine foretells_turn hsx hb (es := .wait 0 :: es) ((step_of_inputs hin).trans ?_)
    exact waitStep_turn { x with inputs := es } hb
  | succ polls ih =>
    have hstep : step x = pollStatus (.wait polls) { x with inputs := es } :=
      (step_of_inputs hin).trans (by dsimp only [hostStep, eventStep, waitStep])
    refine foretells_endOr hsx hb ?_ fun t y hy hty hyb => ?_
    · rw [hstep]
      exact readStatus_sameBare hsx
    · exact ih (pollStatus_inputs (s := { x with inputs := es }) hb (hstep.symm.trans hy)) hty hyb

/-- What a look ahead finds is what the run does (R65, R78). -/
theorem commandEnd_foretells {es : List HostEvent} {s x : State} (hin : x.inputs = es)
    (hsx : s.bare = x.bare) (hb : x.busy = true) : Foretells (commandEnd es s) x := by
  induction es generalizing s x with
  | nil => exact foretells_turn hsx hb (es := []) ((step_of_no_inputs hin).trans (by rw [← hin]))
  | cons e es ih =>
    by_cases he : ∃ polls, e = .wait polls
    · obtain ⟨polls, rfl⟩ := he
      exact waitEnd_foretells hin hsx hb
    · have he : ∀ polls, e ≠ .wait polls := fun polls h => he ⟨polls, h⟩
      rw [commandEnd_cons e es s he]
      refine foretells_endOr hsx hb ?_ fun t y hy hty hyb => ?_
      · rw [step_of_inputs hin]
        exact eventStep_sameBare he hsx
      · rw [step_of_inputs hin] at hy
        exact ih (hostStep_inputs he hy hyb) hty hyb

theorem activeOutputByte_aborted {a : Nat} {s : State}
    (h : commandEnd s.inputs { s with free := s.free + 1 } = none) :
    activeOutputByte a s = Config.freeByte s.free := by
  unfold activeOutputByte
  rw [h]

theorem busy_of_activeOutputs {s : State} {a : Nat} (h : a ∈ activeOutputs s) : s.busy = true := by
  cases hb : s.busy with
  | true => rfl
  | false =>
    rw [activeOutputs_idle hb] at h
    cases h

/-- Settles O58: the settling of the races, the reads of a command, and the load of an active output
byte, whose look ahead foretells the run. -/
theorem racedOutputByteIsFree : Obligations.RacedOutputByteIsFree := by
  refine ⟨fun i s t hm ht hlt a => exec_racedOut_free hm ht hlt,
    fun s a n k => dmaReadBytes_getElem? a s, fun s a rest hin ha => ?_⟩
  let x : State := { s with inputs := rest }
  have hx : step s = .next (dmaLoadByte a x) := step_of_inputs hin
  rw [dmaLoadByte_active a x ha] at hx
  refine ⟨_, activeOutputByte a.toNat x, hx, rfl, ?_⟩
  obtain ⟨hruns, hends⟩ := commandEnd_foretells (es := rest) (s := { x with free := x.free + 1 })
    (x := { x with rdata := (activeOutputByte a.toNat x).setWidth 32, free := x.free + 1 })
    rfl rfl (busy_of_activeOutputs ha)
  refine ⟨fun last u h herr hraced => ?_, fun last u h hany => ?_, fun h => ?_⟩
  · obtain ⟨last', u', hr, hlast, hu⟩ := hruns last u h
    rw [← eq_of_bare_eq hu State.err fun _ => rfl] at herr
    rw [← eq_of_bare_eq hlast State.racedOut fun _ => rfl] at hraced
    rw [← eq_of_bare_eq hu State.mem fun _ => rfl]
    exact activeOutputByte_completes hr herr hraced
  · obtain ⟨last', u', hr, hlast, hu⟩ := hruns last u h
    rw [← eq_of_bare_eq hu State.err fun _ => rfl,
      ← eq_of_bare_eq hlast State.racedOut fun _ => rfl] at hany
    exact activeOutputByte_any hr hany
  · refine activeOutputByte_aborted (Option.not_isSome_iff_eq_none.mp fun hsome => ?_)
    obtain ⟨last, u, hrun⟩ := hends hsome
    exact h last u hrun

end Sys2Proof.Machine
end

section
/-! PROOFS. The family 30_encoding.md: the decoder and the encoder invert each other (O2, O1), illegal
words (O3), and the core's turn, with nothing pending or in the loop `wait` (O4, O9). -/

namespace Sys2Proof

/-! ### The fields and the lanes of a command word (R61, R90) -/

/-- A command word is its RSVD field above its OPCODE field (R90). -/
theorem rsvdField_append_opcodeField (w : Word) : rsvdField w ++ opcodeField w = w := by
  unfold rsvdField opcodeField
  rw [BitVec.extractLsb'_append_extractLsb'_eq_extractLsb' (show 8 = 0 + 8 from rfl)]
  exact BitVec.extractLsb'_eq_self

@[simp] theorem opcodeField_encode (i : Instr) : opcodeField (encode i) = opcodeOf i :=
  BitVec.extractLsb'_append_eq_right

@[simp] theorem rsvdField_encode (i : Instr) : rsvdField (encode i) = 0#24 :=
  BitVec.extractLsb'_append_eq_left

theorem eq_encode_iff (w : Word) (i : Instr) :
    w = encode i ↔ opcodeField w = opcodeOf i ∧ rsvdField w = 0#24 := by
  constructor
  · rintro rfl
    exact ⟨opcodeField_encode i, rsvdField_encode i⟩
  · rintro ⟨hop, hrsvd⟩
    rw [encode, ← hop, ← hrsvd, rsvdField_append_opcodeField]

/-- The bytes of a word, followed by any others, decode as the word does and leave the others (R61). -/
theorem decodeBytes_lanesOfWord (w : Word) (rest : List Byte) :
    decodeBytes (lanesOfWord w ++ rest) = (decodeWord w, rest) := by
  have hlanes : wordOfLanes (w.extractLsb' 0 8) (w.extractLsb' 8 8) (w.extractLsb' 16 8)
      (w.extractLsb' 24 8) = w := by
    unfold wordOfLanes
    rw [BitVec.extractLsb'_append_extractLsb'_eq_extractLsb' (show 24 = 16 + 8 from rfl),
      BitVec.extractLsb'_append_extractLsb'_eq_extractLsb' (show 16 = 8 + 8 from rfl),
      BitVec.extractLsb'_append_extractLsb'_eq_extractLsb' (show 8 = 0 + 8 from rfl)]
    exact BitVec.extractLsb'_eq_self
  simp only [lanesOfWord, List.cons_append, List.nil_append, decodeBytes, hlanes]

/-! ### The opcode map (R92, R95) -/

theorem mem_of_lookupOpcode {op : BitVec 8} {i : Instr} {rows : List (BitVec 8 × Instr)}
    (h : lookupOpcode op rows = some i) : (op, i) ∈ rows := by
  induction rows with
  | nil => cases h
  | cons row rows ih =>
    unfold lookupOpcode at h
    split at h
    · obtain rfl := ‹row.1 = op›
      obtain rfl := Option.some.inj h
      exact .head _
    · exact .tail _ (ih h)

/-- Each row of the map gives its command's own opcode, and each command has a row (R92). -/
theorem lookupOpcode_eq_some_iff (op : BitVec 8) (i : Instr) :
    lookupOpcode op opcodeRows = some i ↔ op = opcodeOf i := by
  have hrows : ∀ row ∈ opcodeRows, row.1 = opcodeOf row.2 := by decide
  constructor
  · exact fun h => hrows _ (mem_of_lookupOpcode h)
  · rintro rfl
    cases i <;> rfl

/-- The unassigned ranges of R95. -/
abbrev OpcodeUnassigned (op : BitVec 8) : Prop :=
  (0x02 ≤ op.toNat ∧ op.toNat ≤ 0x0F) ∨ (0x14 ≤ op.toNat ∧ op.toNat ≤ 0x1F)
  ∨ (0x23 ≤ op.toNat ∧ op.toNat ≤ 0x2F) ∨ (0x34 ≤ op.toNat ∧ op.toNat ≤ 0x37)
  ∨ (0x3A ≤ op.toNat ∧ op.toNat ≤ 0x3F) ∨ (0x45 ≤ op.toNat ∧ op.toNat ≤ 0x4F)
  ∨ (0x54 ≤ op.toNat ∧ op.toNat ≤ 0x5F) ∨ (0x64 ≤ op.toNat ∧ op.toNat ≤ 0xFF)

/-- The rows leave out exactly the ranges of R95, each of the 256 opcodes compared. -/
theorem lookupOpcode_eq_none_iff :
    ∀ op : BitVec 8, lookupOpcode op opcodeRows = none ↔ OpcodeUnassigned op := by
  decide

/-! ### Decoding a command word (R93) -/

theorem decodeWord_unassigned {w : Word} (h : OpcodeUnassigned (opcodeField w)) :
    decodeWord w = .badOpcode (opcodeField w) := by
  rw [decodeWord, (lookupOpcode_eq_none_iff _).mpr h]

theorem decodeWord_assigned {w : Word} {i : Instr} (h : opcodeField w = opcodeOf i) :
    decodeWord w = if rsvdField w = 0#24 then .command i else .badRsvd (rsvdField w) := by
  rw [decodeWord, (lookupOpcode_eq_some_iff _ i).mpr h]

theorem exists_opcodeOf_eq {op : BitVec 8} (h : ¬ OpcodeUnassigned op) : ∃ i, op = opcodeOf i := by
  cases hl : lookupOpcode op opcodeRows with
  | none => exact absurd ((lookupOpcode_eq_none_iff op).mp hl) h
  | some i => exact ⟨i, (lookupOpcode_eq_some_iff op i).mp hl⟩

@[simp] theorem decodeWord_encode (i : Instr) : decodeWord (encode i) = .command i := by
  rw [decodeWord_assigned (opcodeField_encode i), rsvdField_encode, if_pos rfl]

theorem decodeWord_eq_command_iff (w : Word) (i : Instr) :
    decodeWord w = .command i ↔ w = encode i := by
  refine ⟨fun h => (eq_encode_iff w i).mpr ?_, fun h => h ▸ decodeWord_encode i⟩
  by_cases hop : OpcodeUnassigned (opcodeField w)
  · rw [decodeWord_unassigned hop] at h
    cases h
  · obtain ⟨j, hj⟩ := exists_opcodeOf_eq hop
    rw [decodeWord_assigned hj] at h
    split at h
    · obtain rfl := Decoded.command.inj h
      exact ⟨hj, ‹_›⟩
    · cases h

/-- Settles O2: by the opcode map row by row, and the fields and lanes a word is put together from. -/
theorem decodeInvertsEncode : Obligations.DecodeInvertsEncode :=
  ⟨decodeWord_eq_command_iff, fun i rest =>
    (decodeBytes_lanesOfWord (encode i) rest).trans (by rw [decodeWord_encode])⟩

/-- Settles O3: an opcode is in the ranges of R95 or some command's, and then RSVD decides. -/
theorem illegalWordsRejected : Obligations.IllegalWordsRejected := by
  intro w
  refine ⟨decodeWord_unassigned, fun hop hrsvd => ?_, fun hop hrsvd => ?_⟩
  all_goals obtain ⟨i, hi⟩ := exists_opcodeOf_eq hop
  · exact (decodeWord_assigned hi).trans (if_neg hrsvd)
  · exact ⟨i, (decodeWord_assigned hi).trans (if_pos hrsvd), hi.symm⟩

/-- Settles O1: seven of the words are encodings, and two are illegal. -/
theorem writtenOutWordsDecode : Obligations.WrittenOutWordsDecode :=
  ⟨decodeWord_encode .nop, decodeWord_encode .sha512Update, decodeWord_encode .authVerify,
    decodeWord_encode .scMuladd, decodeWord_encode .ptScalarmultBase, decodeWord_encode .signOpen,
    decodeWord_encode .streamXor, decodeWord_assigned (w := 0x110#32) (i := .sha512) rfl,
    decodeWord_unassigned (w := 0x164#32) (by decide)⟩

namespace Machine

/-! ### The core's turn (R113, R118) -/

/-- At the event of its turn the core steps (notes/assumptions/11.md). -/
theorem step_coreTurn {s : State} {rest : List HostEvent} (h : s.inputs = .coreTurn :: rest) :
    step s = coreStep { s with inputs := rest } :=
  step_of_inputs h

/-- In a `wait` with no read of a BUSY core left the core steps, and the `wait` stays to come
(notes/assumptions/9.md). -/
theorem step_wait_turn {s : State} {rest : List HostEvent} (hb : s.busy = true)
    (h : s.inputs = .wait 0 :: rest) : step s = coreStep s := by
  rw [step_of_inputs h]
  refine (waitStep_turn { s with inputs := rest } hb).trans ?_
  rw [← h]

/-- Settles O4: the lanes of lat[CMD] decode as lat[CMD] does, and each of the steps is the core's. -/
theorem stepRunsDecodedCommand : Obligations.StepRunsDecodedCommand := by
  intro s i hb hbytes
  have hd : decodeWord s.lat.cmd = .command i := by
    rw [← List.append_nil (lanesOfWord _), decodeBytes_lanesOfWord] at hbytes
    exact congrArg Prod.fst hbytes
  refine ⟨fun h => ?_, fun rest h => ?_, fun rest h => ?_⟩
  · rw [step_of_no_inputs h, coreStep_command hb hd]
  · rw [step_coreTurn h]
    exact coreStep_command hb hd
  · rw [step_wait_turn hb h, coreStep_command hb hd]

/-- The state a busy core leaves at its turn: IDLE with DONE set, the latches, the events to come and
the reset input as they were (R117, R119). -/
theorem coreStep_busy_frame {s : State} (hb : s.busy = true) :
    ∃ t, coreStep s = .next t ∧ t.busy = false ∧ t.done = true ∧ t.inputs = s.inputs
      ∧ t.lat = s.lat ∧ t.inReset = s.inReset := by
  unfold coreStep
  rw [if_pos hb]
  split
  · rename_i i _
    obtain ⟨o, u, he, hu, -⟩ := exec_completes i s
    refine ⟨_, he, complete_busy o u, complete_done o u, ?_, ?_, ?_⟩
    · rw [complete_inputs, hu]
    · rw [complete_lat, hu]
    · rw [complete_inReset, hu]
  all_goals exact ⟨_, rfl, by simp [raiseError]⟩

/-! ### The loop `wait` (R99) -/

/-- An idle core has no turn to take in the loop: it is read at once. -/
theorem waitStep_idle {s : State} (hb : s.busy = false) :
    waitStep 0 s = pollStatus (.wait 0) s := by
  unfold waitStep
  exact if_neg (by simp [hb])

section
variable {s : State} {polls : Nat} {rest : List HostEvent}

/-- The first read of an idle core ends the loop. -/
theorem step_wait_idle (hr : s.inReset = false) (hb : s.busy = false)
    (h : s.inputs = .wait polls :: rest) :
    step s = .next { s with inputs := rest, rdata := statusWord s } := by
  have hpoll : ∀ again, pollStatus again { s with inputs := rest }
      = .next { s with inputs := rest, rdata := statusWord s } := fun again =>
    (pollStatus_eq again { s with inputs := rest } hr).trans
      (congrArg Host.Outcome.next (if_neg (by simp [hb])))
  rw [step_of_inputs h]
  cases polls with
  | zero => exact (waitStep_idle (s := { s with inputs := rest }) hb).trans (hpoll _)
  | succ polls => exact hpoll (.wait polls)

/-- A read of a busy core leaves the loop with one read less to come. -/
theorem step_wait_busy (hr : s.inReset = false) (hb : s.busy = true)
    (h : s.inputs = .wait (polls + 1) :: rest) :
    step s = .next { s with inputs := .wait polls :: rest, rdata := statusWord s } := by
  rw [step_of_inputs h]
  exact (pollStatus_eq (.wait polls) { s with inputs := rest } hr).trans
    (congrArg Host.Outcome.next (if_pos hb))

end

theorem run_succ {s t : State} (k : Nat) (h : step s = .next t) :
    Sys2Proof.core.run (k + 1) s = Sys2Proof.core.run k t := by
  have h : Sys2Proof.core.step s = .next t := h
  simp only [Host.Core.run, h]

theorem run_one {s t : State} (h : step s = .next t) : Sys2Proof.core.run 1 s = .next t :=
  run_succ 0 h

/-- The reads of a busy core change nothing but the reads left and the value read. -/
theorem run_wait_busy {s : State} {polls k : Nat} {rest : List HostEvent} (hr : s.inReset = false)
    (hb : s.busy = true) (h : s.inputs = .wait (polls + (k + 1)) :: rest) :
    Sys2Proof.core.run (k + 1) s
      = .next { s with inputs := .wait polls :: rest, rdata := statusWord s } := by
  induction k generalizing s with
  | zero => exact run_one (step_wait_busy hr hb h)
  | succ k ih => exact (run_succ _ (step_wait_busy hr hb h)).trans (ih hr hb rfl)

/-- After the reads of the busy core it completes, and one read more ends the loop (R119, R354). -/
theorem run_wait_completes {s : State} {polls : Nat} {rest : List HostEvent}
    (hr : s.inReset = false) (hb : s.busy = true) (h : s.inputs = .wait polls :: rest) :
    ∃ t : State, Sys2Proof.core.run (polls + 1) s = .next t
      ∧ t.busy = false ∧ t.done = true ∧ t.inputs = .wait 0 :: rest ∧ t.lat = s.lat
      ∧ Sys2Proof.core.run (polls + 2) s = .next { t with inputs := rest, rdata := statusWord t } := by
  induction polls generalizing s with
  | zero =>
    obtain ⟨t, hturn, hidle, hdone, hin, hlat, hreset⟩ := coreStep_busy_frame hb
    have hstep : step s = .next t := (step_wait_turn hb h).trans hturn
    refine ⟨t, run_one hstep, hidle, hdone, hin.trans h, hlat, (run_succ 1 hstep).trans ?_⟩
    exact run_one (step_wait_idle (hreset.trans hr) hidle (hin.trans h))
  | succ polls ih =>
    have hstep := step_wait_busy hr hb h
    obtain ⟨t, hrun, hidle, hdone, hin, hlat, hlast⟩ :=
      ih (s := { s with inputs := .wait polls :: rest, rdata := statusWord s }) hr hb rfl
    exact ⟨t, (run_succ _ hstep).trans hrun, hidle, hdone, hin, hlat, (run_succ _ hstep).trans hlast⟩

/-- Settles O9: at its turn every command ends in one completion, and a `wait` comes to that turn by
induction on the reads left. -/
theorem busyCoreCompletes : Obligations.BusyCoreCompletes := by
  refine ⟨fun s hb hin => ?_, fun s polls rest hr h => ⟨fun hb => step_wait_idle hr hb h,
    fun hb => ⟨fun k hk hle => ?_, run_wait_completes hr hb h⟩⟩⟩
  · obtain ⟨t, hturn, hidle, hdone, hin', hlat, -⟩ := coreStep_busy_frame hb
    exact ⟨t, (step_of_no_inputs hin).trans hturn, hidle, hdone, hin'.trans hin, hlat⟩
  · obtain ⟨k, rfl⟩ := Nat.exists_eq_add_of_lt hk
    rw [Nat.zero_add] at hle ⊢
    exact run_wait_busy hr hb (by rw [h, Nat.sub_add_cancel hle])

end Machine

end Sys2Proof
end

section
/-! PROOFS. The family 40_control.md: the life cycle of a command (O5, O6, O7, O8, O22), the sequence and
length checks (O11, O12), and a command's outcome as a function of its inputs (O52). -/

namespace Sys2Proof.Machine

/-! ### The control commands, and words that are no command -/

/-- Settles O22: neither command has a check to fail, so its rule runs and completes. -/
theorem controlCommandsComplete : Obligations.ControlCommandsComplete := by
  intro s hd
  refine ⟨(runCommand_passes .nop _ s rfl).trans (congrArg _ (complete_ok_calm 0 s hd)), ?_⟩
  dsimp only [exec, execZeroize]
  rw [runCommand_passes .zeroize _ s rfl, complete_ok_calm 0 { invalidateCtx s with work := [] } hd]
  rfl

/-- Settles O5: the core's turn raises the error of the decode check. -/
theorem undecodedWordEndsWithError : Obligations.UndecodedWordEndsWithError := by
  intro s hb hin hd
  rw [step_of_no_inputs hin, coreStep, if_pos hb]
  refine ⟨fun op hword => ?_, fun bits hword => ?_⟩
  all_goals
    rw [hword]
    exact congrArg _ (raiseError_calm _ s hd)

/-! ### A read without a race changes working storage alone, which no command reads (R41, R64) -/

/-- Every host register keeps its value. -/
def keepReg (_ : RegName) (old : Word) : Word := old

/-- Proved by cases: an unfolding to `rfl` would have the kernel evaluate `s`, a whole command. -/
@[simp] theorem withRegs_keepReg (s : State) : s.withRegs keepReg = s := by
  cases s
  rfl

/-- MemRead with no race on the inputs, its state in the terms of what no command reads. -/
theorem memRead_unread {s : State} (a n : Nat) (h : s.racedIn = []) :
    memRead a n s = (s.mem.readBytes a n, s.withUnread keepReg (s.work ++ s.mem.readBytes a n)) :=
  memRead_calm a n s h

/-! ### The sequence and length checks (R114, R115) -/

theorem checkError_seq {i : Instr} {s : State} (h : ¬ SequenceOk i s) :
    checkError i s = some .seq := by
  rw [← seqFails_iff, Bool.not_eq_false] at h
  simp [checkError, h]

theorem checkError_length {i : Instr} {s : State} (hs : SequenceOk i s)
    (hl : ¬ LengthOk i s.lat) : checkError i s = some .length := by
  rw [← lengthFails_iff, Bool.not_eq_false] at hl
  simp [checkError, (seqFails_iff i s).mpr hs, hl]

/-- An error that no rule raises names the check that failed. -/
theorem checkError_of_err {i : Instr} {s t : State} (h : exec i s = .next t)
    (he : t.err ∉ [.none, .bus, .point, .entropy]) : checkError i s = some t.err :=
  (exec_err h).resolve_right fun ⟨_, hrule⟩ => he hrule

/-- Settles O11: the sequence check is the first, and no rule raises E_SEQ. -/
theorem sequenceErrorWithoutContext : Obligations.SequenceErrorWithoutContext := by
  refine ⟨fun s hd hctx => ?_, fun i s t ht hs herr => ?_⟩
  · have ends (i : Instr) (hi : i = .sha512Update ∨ i = .sha512Final) :
        exec i s = .next (s.failedWith .seq) := by
      rw [exec_of_checkError (checkError_seq (by simp [hi, hctx])), raiseError_calm _ s hd]
    exact ⟨ends .sha512Update (.inl rfl), ends .sha512Final (.inr rfl)⟩
  · have hc := checkError_of_err ht (by simp [herr])
    rw [herr] at hc
    rcases checkError_some i s hc with ⟨-, h⟩ | ⟨h, -⟩ | ⟨h, -⟩ | ⟨h, -⟩
    case inl => exact h hs
    all_goals cases h

/-- A signed message shorter than a signature fails the test of R234. -/
theorem signatureValid_short {sm : List Byte} (h : sm.length < 64) (vk : List Byte) :
    signatureValid sm vk = false :=
  if_pos h

/-- A SIGN_OPEN of fewer than 64 bytes has no output region, so its checks are those of its input
regions (R94). -/
theorem checkError_signOpen_short {s : State} (hlen : s.lat.aLen.toNat < 64)
    (ha : RegionInRange s.lat.aAddr s.lat.aLen.toNat) (hc : RegionInRange s.lat.cAddr 32) :
    checkError .signOpen s = none := by
  have hnone : (regionsOf .signOpen s.lat).d = none := if_neg (Nat.not_le_of_lt hlen)
  rw [checkError_none_iff]
  refine ⟨by simp, by simp, rangesOk_of (fun r hr => ?_) nofun (fun r hr => ?_) (fun r hr => ?_),
    by simp [OverlapRefused, Nat.not_le_of_lt hlen]⟩
  · obtain rfl := Option.some.inj hr
    exact ha
  · obtain rfl := Option.some.inj hr
    exact hc
  · rw [hnone] at hr
    cases hr

theorem failingReads_signOpen {s : State} (ha : BusAnswersOk s .read s.lat.aAddr s.lat.aLen.toNat)
    (hc : BusAnswersOk s .read s.lat.cAddr 32) : failingReads .signOpen s = [] := by
  refine failingReads_nil fun r hr => ?_
  simp only [regionsOf, Regions.ins, aRegion, cRegion, Option.toList, List.append_nil,
    List.cons_append, List.nil_append, List.mem_cons, List.not_mem_nil, or_false] at hr
  rcases hr with rfl | rfl
  exacts [⟨_, rfl, ha⟩, ⟨_, rfl, hc⟩]

/-- SIGN_OPEN of fewer than 64 bytes that can be read is a verification failure (R115, R234). -/
theorem exec_signOpen_short {s : State} (hd : DutyKept s) (hlen : s.lat.aLen.toNat < 64)
    (ha : CanRead s s.lat.aAddr s.lat.aLen.toNat) (hc : CanRead s s.lat.cAddr 32) :
    exec .signOpen s = .next s.withoutContext.failedVerification := by
  obtain ⟨harange, habus⟩ := ha
  obtain ⟨hcrange, hcbus⟩ := hc
  refine (runCommand_readsThen_ok (pre := invalidateCtx)
    (checkError_signOpen_short hlen harange hcrange) (failingReads_signOpen habus hcbus)).trans ?_
  have hread (a n : Nat) := memRead_unread (s := invalidateCtx s) a n hd.1
  have hinvalid (vk : List Byte) :
      signatureValid (s.mem.readBytes s.lat.aAddr.toNat s.lat.aLen.toNat) vk = false :=
    signatureValid_short (by rwa [Memory.readBytes_length]) vk
  simp only [hread, memRead_withUnread_bytes, memRead_withUnread_state, verifyFail_withUnread,
    withRegs_keepReg, invalidateCtx_lat, invalidateCtx_mem, hinvalid, Bool.false_eq_true, if_false]
  exact congrArg _ (verifyFail_calm (invalidateCtx s) hd)

/-- Settles O12: the length check is the second, no rule raises E_LENGTH, and a short SIGN_OPEN fails
the signature test. -/
theorem lengthErrorOfSign : Obligations.LengthErrorOfSign := by
  refine ⟨fun s hd hlen => ?_, fun i s t ht hl herr => ?_, fun s hd hlen ha hc =>
    exec_signOpen_short hd hlen ha hc⟩
  · have hlong : ¬ LengthOk .sign s.lat := fun h => Nat.not_le_of_lt hlen (h rfl)
    rw [exec_of_checkError (checkError_length (by simp) hlong), raiseError_calm _ s hd]
  · have hc := checkError_of_err ht (by simp [herr])
    rw [herr] at hc
    rcases checkError_some i s hc with ⟨h, -⟩ | ⟨-, -, h⟩ | ⟨h, -⟩ | ⟨h, -⟩
    case inr.inl => exact h hl
    all_goals cases h

/-! ### Writes of CTRL (R110) -/

/-- Settles O6, by the bits of v that select each effect. -/
theorem ctrlWriteEffects : Obligations.CtrlWriteEffects := by
  intro s v
  refine ⟨fun h1 => if_pos h1, fun h1 h0 => ?_, fun h1 h0 hb => ?_, fun h1 h0 hb => ?_⟩
  · simp only [writeReg, writeCtrl, h1, h0, Bool.false_eq_true, if_false]
  all_goals simp only [writeReg, writeCtrl, h1, h0, hb, Bool.false_eq_true, if_false, if_true]

/-- Settles O7: the step is the CTRL write, which accepts the command. -/
theorem acceptedStartLatches : Obligations.AcceptedStartLatches := by
  intro s v rest hin hr hb h0 h1
  obtain ⟨-, -, -, haccept⟩ := ctrlWriteEffects { s with inputs := rest } v
  rw [step_wrEvent hin hr (by decide) (by decide)]
  exact congrArg _ (haccept h1 h0 hb)

/-! ### OVERRUN (R111) -/

/-- The core's turn leaves OVERRUN alone. -/
theorem coreStep_overrun {s t : State} (h : coreStep s = .next t) : t.overrun = s.overrun := by
  unfold coreStep at h
  split at h
  · split at h
    · rename_i i _
      obtain ⟨o, u, he, hu, -⟩ := exec_completes i s
      obtain rfl := Host.Outcome.next.inj (he.symm.trans h)
      rw [complete_overrun, hu]
    all_goals
      obtain rfl := Host.Outcome.next.inj h
      simp [raiseError]
  · obtain rfl := Host.Outcome.next.inj h
    rfl

theorem pollStatus_overrun {again : HostEvent} {s t : State} (h : pollStatus again s = .next t) :
    t.overrun = s.overrun := by
  cases hr : s.inReset with
  | true =>
    rw [pollStatus_reset again s hr] at h
    cases h
  | false =>
    rw [pollStatus_eq again s hr] at h
    obtain rfl := Host.Outcome.next.inj h
    split <;> rfl

theorem waitStep_overrun {polls : Nat} {s t : State} (h : waitStep polls s = .next t) :
    t.overrun = s.overrun := by
  cases polls with
  | zero =>
    dsimp only [waitStep] at h
    split at h
    · exact (coreStep_overrun h).trans rfl
    · exact pollStatus_overrun h
  | succ polls =>
    dsimp only [waitStep] at h
    exact pollStatus_overrun h

/-- A window access that answers a next state does nothing, or its act at a 32-bit offset (R60). -/
theorem windowAccess_next_offset {addr : Nat} {size : AccessSize} {act : Nat → State → State}
    {s t : State} (h : windowAccess addr size act s = .next t) :
    t = s ∨ ∃ off, addr = Config.mmioBase + off ∧ size = .b32 ∧ t = act off s := by
  unfold windowAccess at h
  split at h
  · split at h
    · cases h
    · split at h
      · rename_i haligned
        simp only [alignedInWindow, Bool.and_eq_true, decide_eq_true_iff] at haligned
        obtain ⟨⟨hsize, hbase⟩, -⟩ := haligned
        exact .inr ⟨_, (Nat.add_sub_of_le hbase).symm, hsize, (Host.Outcome.next.inj h).symm⟩
      · cases h
  · exact .inl (Host.Outcome.next.inj h).symm

/-- A write of CTRL that is no soft reset clears no OVERRUN. -/
theorem writeCtrl_clears_overrun {v : Word} {s : State} (hs : s.overrun = true)
    (h : (writeCtrl v s).overrun = false) : v.getLsbD 1 = true := by
  by_contra h1
  rw [writeCtrl, if_neg h1] at h
  dsimp only at h
  split at h
  · split at h
    · exact nomatch h
    · exact nomatch hs.symm.trans h
  · exact nomatch hs.symm.trans h

/-- The window writes that clear OVERRUN are W1C of STATUS bit 3 and a soft reset (R27, R341). -/
theorem writeWindow_clears_overrun {off : Nat} {v : Word} {s : State} (hs : s.overrun = true)
    (h : (writeWindow off v s).overrun = false) :
    (off = 0x00C ∧ v.getLsbD 3 = true) ∨ (off = 0x008 ∧ v.getLsbD 1 = true) := by
  unfold writeWindow at h
  split at h
  · rename_i r hreg
    obtain rfl := (regAt_eq_some_iff off r).mp hreg
    cases r with
    | ctrl => exact .inr ⟨rfl, writeCtrl_clears_overrun hs h⟩
    | status => exact .inl ⟨rfl, by simpa [writeReg, hs] using h⟩
    | _ => exact nomatch hs.symm.trans h
  · exact nomatch hs.symm.trans h

/-- The events of the outside world that clear OVERRUN (R27, R111, R340, R341). -/
theorem hostStep_clears_overrun {e : HostEvent} {s t : State} (ht : hostStep e s = .next t)
    (hs : s.overrun = true) (h : t.overrun = false) :
    e = .assertReset ∨ (∃ v, e = wrEvent 0x00C v ∧ v.getLsbD 3 = true)
      ∨ ∃ v, e = wrEvent 0x008 v ∧ v.getLsbD 1 = true := by
  have same {t' : State} (ht' : t = t') (hkeep : t'.overrun = s.overrun) : False := by
    rw [ht', hkeep, hs] at h
    cases h
  unfold hostStep eventStep at ht
  cases e with
  | assertReset => exact .inl rfl
  | store addr size v =>
    rcases windowAccess_next_offset ht with rfl | ⟨off, rfl, rfl, rfl⟩
    · exact (same rfl rfl).elim
    · rcases writeWindow_clears_overrun hs h with ⟨rfl, hv⟩ | ⟨rfl, hv⟩
      · exact .inr (.inl ⟨v, rfl, hv⟩)
      · exact .inr (.inr ⟨v, rfl, hv⟩)
  | load addr size =>
    rcases windowAccess_next_offset ht with rfl | ⟨off, -, -, rfl⟩
    all_goals exact (same rfl rfl).elim
  | coreTurn => exact (same rfl (coreStep_overrun ht)).elim
  | wait polls => exact (same rfl (waitStep_overrun ht)).elim
  | dmaLoad a =>
    refine (same (Host.Outcome.next.inj ht).symm ?_).elim
    rw [dmaLoadByte_frame]
  | dmaStore | releaseReset | setBus | offerEntropy =>
    exact (same (Host.Outcome.next.inj ht).symm rfl).elim

/-- Settles O8: the step of the START is the CTRL write, and OVERRUN is cleared by no turn of the
core and by three events alone. -/
theorem startWhileBusyOverruns : Obligations.StartWhileBusyOverruns := by
  refine ⟨fun s v rest hin hr hb h0 h1 => ?_, fun s t ht hs h => ?_⟩
  · obtain ⟨-, -, hoverrun, -⟩ := ctrlWriteEffects { s with inputs := rest } v
    rw [step_wrEvent hin hr (by decide) (by decide)]
    exact congrArg _ (hoverrun h1 h0 hb)
  · cases hin : s.inputs with
    | nil =>
      rw [step_of_no_inputs hin] at ht
      exact nomatch (hs.symm.trans (coreStep_overrun ht).symm).trans h
    | cons e rest =>
      rw [step_of_inputs hin] at ht
      refine ⟨rest, ?_⟩
      simpa using hostStep_clears_overrun (s := { s with inputs := rest }) ht hs h

/-! ### The outcome of a command depends on its inputs alone (R120) -/

/-- Memories that take the same bytes inside the DMA space hold the same bytes there. -/
theorem Memory.read_writeBytes_congr {m m' : Memory} (hm : m.wf) (hm' : m'.wf) {a b : Nat}
    {bs : List Byte} (hlen : a + bs.length ≤ Config.dmaSpace) (hle : a ≤ b)
    (hlt : b < a + bs.length) : (m.writeBytes a bs).read b = (m'.writeBytes a bs).read b := by
  induction bs generalizing m m' a with
  | nil =>
    simp only [List.length_nil] at hlt
    omega
  | cons v bs ih =>
    simp only [List.length_cons] at hlen hlt
    simp only [Memory.writeBytes]
    by_cases hab : a = b
    · subst hab
      simp only [read_writeBytes_outside _ _ _ _ (.inl (Nat.lt_succ_self a)),
        read_write_same _ hm, read_write_same _ hm']
    · exact ih (write_wf hm (by omega) v) (write_wf hm' (by omega) v) (by omega) (by omega)
        (by omega)

/-- Two states from which command `i` is given the same: its latches, its input bytes, BUS_RESP, the
draws and the free values to come, with no race and its regions in range. -/
structure SameInputs (i : Instr) (s s' : State) : Prop where
  lat : s.lat = s'.lat
  busHoles : s.busHoles = s'.busHoles
  entropy : s.entropy = s'.entropy
  free : s.free = s'.free
  duty : DutyKept s
  duty' : DutyKept s'
  canonical : s.mem.wf
  canonical' : s'.mem.wf
  ranges : RangesOk i s.lat
  bytes : ∀ a ∈ inputAddresses i s.lat, s.mem.read a = s'.mem.read a

/-- Two states a command leaves with the same outcome, and on success the same bytes at `as`. -/
structure SameOutcome (as : List Nat) (t t' : State) : Prop where
  err : t.err = t'.err
  vfail : t.vfail = t'.vfail
  outLen : t.outLen = t'.outLen
  errAddr : t.errAddr = t'.errAddr
  bytes : t.err = .none → t.vfail = false → ∀ a ∈ as, t.mem.read a = t'.mem.read a

/-- The rule of command `i` ends alike from all states that give it the same. -/
def ByInputs (i : Instr) (rule : State → State) : Prop :=
  ∀ s s', SameInputs i s s' → SameOutcome (outputAddresses i s.lat) (rule s) (rule s')

/-- Completions with one outcome report the same; what a success wrote is left to show. -/
theorem sameOutcome_complete {as : List Nat} {o : CmdOutcome} {u u' : State}
    (h : (complete o u).err = .none → (complete o u).vfail = false →
      ∀ a ∈ as, (complete o u).mem.read a = (complete o u').mem.read a) :
    SameOutcome as (complete o u) (complete o u') := by
  cases o with
  | ok | vf | err => exact ⟨rfl, rfl, rfl, rfl, h⟩

section
variable {as : List Nat} {s s' : State}

theorem sameOutcome_raiseError {c : ErrorCode} (hc : c ≠ .none) :
    SameOutcome as (raiseError c s) (raiseError c s') :=
  sameOutcome_complete fun h => absurd h hc

theorem sameOutcome_verifyFail : SameOutcome as (verifyFail s) (verifyFail s') :=
  sameOutcome_complete fun _ h => absurd h Bool.noConfusion

/-- A completion of a command with no output region. -/
theorem sameOutcome_complete_nil (o : CmdOutcome) :
    SameOutcome [] (complete o s) (complete o s') :=
  sameOutcome_complete fun _ _ _ h => nomatch h

theorem sameOutcome_verdict (matched : Bool) :
    SameOutcome [] (verdict matched s) (verdict matched s') := by
  cases matched with
  | false => exact sameOutcome_verifyFail
  | true => exact sameOutcome_complete_nil (.ok 0)

end

section
variable {i : Instr} {s s' : State}

theorem SameInputs.invalidateCtx (h : SameInputs i s s') :
    SameInputs i (invalidateCtx s) (invalidateCtx s') := { h with }

/-- The entropy port answers both with one draw (R43). -/
theorem SameInputs.entropyRead (h : SameInputs i s s') :
    (entropyRead s).1 = (entropyRead s').1
      ∧ SameInputs i (entropyRead s).2 (entropyRead s').2 := by
  have hent := h.entropy
  cases hs : s.entropy with
  | nil =>
    rw [entropyRead_empty s hs, entropyRead_empty s' (hent ▸ hs)]
    exact ⟨congrArg Config.freeDraw h.free, { h with free := congrArg (· + 1) h.free }⟩
  | cons d ds =>
    rw [entropyRead_offered s hs, entropyRead_offered s' (hent ▸ hs)]
    exact ⟨rfl, { h with entropy := rfl }⟩

/-- What reads give from each of the two. -/
theorem SameInputs.memReads (h : SameInputs i s s') :
    (∀ a n, memRead a n s
      = (s.mem.readBytes a n, s.withUnread keepReg (s.work ++ s.mem.readBytes a n)))
    ∧ ∀ a n, memRead a n s'
      = (s'.mem.readBytes a n, s'.withUnread keepReg (s'.work ++ s'.mem.readBytes a n)) :=
  ⟨fun a n => memRead_unread a n h.duty.1, fun a n => memRead_unread a n h.duty'.1⟩

theorem SameInputs.failingReads_eq (h : SameInputs i s s') : failingReads i s = failingReads i s' :=
  failingReads_congr i h.lat h.busHoles

theorem SameInputs.failingWrites_eq (h : SameInputs i s s') :
    failingWrites i s = failingWrites i s' :=
  failingWrites_congr i h.lat h.busHoles

/-- Both hold the same bytes in an input region, and in each part of one. -/
theorem SameInputs.readBytes_within (h : SameInputs i s s') {r : Region} {a n : Nat}
    (hr : r ∈ (regionsOf i s.lat).ins) (hle : r.addr ≤ a) (hend : a + n ≤ r.addr + r.len) :
    s.mem.readBytes a n = s'.mem.readBytes a n :=
  Memory.readBytes_congr fun b h1 h2 => h.bytes b <|
    List.mem_flatMap.mpr ⟨r, hr, List.mem_range'_1.mpr ⟨by omega, by omega⟩⟩

/-- Both hold the same bytes in each input operand the command has (R94). -/
theorem SameInputs.operandBytes (h : SameInputs i s s') :
    (∀ r, (regionsOf i s.lat).a = some r →
      s.mem.readBytes r.addr r.len = s'.mem.readBytes r.addr r.len)
    ∧ (∀ r, (regionsOf i s.lat).b = some r →
      s.mem.readBytes r.addr r.len = s'.mem.readBytes r.addr r.len)
    ∧ (∀ r, (regionsOf i s.lat).c = some r →
      s.mem.readBytes r.addr r.len = s'.mem.readBytes r.addr r.len) := by
  refine ⟨fun r hr => ?_, fun r hr => ?_, fun r hr => ?_⟩
  all_goals
    exact h.readBytes_within (r := r) (by simp [Regions.ins, hr]) (Nat.le_refl _) (Nat.le_refl _)

theorem SameInputs.sameOutcome_busFail (h : SameInputs i s s') (as : List Nat) :
    SameOutcome as (busFail i s) (busFail i s') := by
  unfold busFail
  rw [← h.failingReads_eq, ← h.failingWrites_eq, ← h.free]
  exact sameOutcome_complete fun hbus => absurd hbus ErrorCode.noConfusion

/-- Bytes written over the output region read back alike. -/
theorem SameInputs.sameOutcome_writeOut (h : SameInputs i s s') {v : List Byte}
    (hd : (regionsOf i s.lat).d = some ⟨s.lat.dAddr.toNat, v.length⟩) :
    SameOutcome (outputAddresses i s.lat) (writeOut i v s) (writeOut i v s') := by
  by_cases hw : failingWrites i s = []
  · rw [writeOut_ok i v s hw, writeOut_ok i v s' (h.failingWrites_eq ▸ hw), ← h.lat]
    refine sameOutcome_complete fun _ _ a ha => ?_
    simp only [complete_mem, h.duty.2, h.duty'.2, havoc_nil]
    have hlen : v.length = 0 ∨ s.lat.dAddr.toNat + v.length ≤ Config.dmaSpace :=
      h.ranges ⟨s.lat.dAddr.toNat, v.length⟩ (by simp [Regions.all, hd])
    simp only [outputAddresses, hd, Option.toList, List.flatMap_cons, List.flatMap_nil,
      List.append_nil, Region.addresses, List.mem_range'_1] at ha
    obtain ⟨hle, hlt⟩ := ha
    exact Memory.read_writeBytes_congr h.canonical h.canonical' (by omega) hle hlt
  · rw [writeOut_fails i v s hw, writeOut_fails i v s' (h.failingWrites_eq ▸ hw)]
    exact h.sameOutcome_busFail _

theorem SameInputs.sameOutcome_writePoint (h : SameInputs i s s') {v : Option (List Byte)}
    (hd : ∀ w, v = some w → (regionsOf i s.lat).d = some ⟨s.lat.dAddr.toNat, w.length⟩) :
    SameOutcome (outputAddresses i s.lat) (writePoint i v s) (writePoint i v s') := by
  cases v with
  | none => exact sameOutcome_raiseError nofun
  | some w => exact h.sameOutcome_writeOut (hd w rfl)

end

/-- The input reads fail alike, so a rule may start with them (R64). -/
theorem ByInputs.afterReads {i : Instr} {rule : State → State} (h : ByInputs i rule) :
    ByInputs i (readsThen i id rule) := by
  intro s s' hs
  by_cases hr : failingReads i s = []
  · rw [readsThen_ok i id rule s hr, readsThen_ok i id rule s' (hs.failingReads_eq ▸ hr)]
    exact h s s' hs
  · rw [readsThen_fails i id rule s hr, readsThen_fails i id rule s' (hs.failingReads_eq ▸ hr)]
    exact hs.sameOutcome_busFail _

/-- The commands whose rule starts with input reads, SHA512_UPDATE apart: the rest of the rule reads
the same bytes from both states, so it comes to the same last operation with the same value. -/
theorem exec_reads_byInputs {i : Instr}
    (hi : i ∉ [.nop, .zeroize, .sha512Init, .sha512Update, .sha512Final, .signKeypair]) :
    ∃ rest, ByInputs i rest ∧ ∀ s, exec i s = runCommand i (fun s =>
      readsThen i id rest (if usesHashPipeline i then invalidateCtx s else s)) s := by
  cases i
  case nop | zeroize | sha512Init | sha512Update | sha512Final | signKeypair => simp at hi
  all_goals
    refine ⟨_, fun s s' h => ?_, fun _ => rfl⟩
    have hbytes := h.operandBytes
    simp only [regionsOf, aRegion, bRegion, cRegion, Option.some.injEq, forall_eq', reduceCtorEq,
      IsEmpty.forall_iff, implies_true, true_and, and_true, and_self] at hbytes
    simp only [h.memReads, memRead_withUnread_bytes, memRead_withUnread_state, writeOut_withUnread,
      writePoint_withUnread, verdict_withUnread, verifyFail_withUnread, withRegs_keepReg, ← h.lat,
      hbytes]
  case signOpen =>
    split
    · rename_i hvalid
      have hlen := signatureValid_length hvalid
      rw [Memory.readBytes_length] at hlen
      rw [h.readBytes_within (r := ⟨s.lat.aAddr.toNat, s.lat.aLen.toNat⟩) (.head _)
        (Nat.le_add_right _ _) (by simp only; omega)]
      exact h.sameOutcome_writeOut (by simp [regionsOf, dRegion, hlen])
    · exact sameOutcome_verifyFail
  case authVerify | ctCompare => exact sameOutcome_verdict _
  case ptAdd =>
    exact h.sameOutcome_writePoint fun w hw => by simp [regionsOf, dRegion, addEncoded_length hw]
  case ptDecode | ptEncode | ptScalarmult =>
    refine h.sameOutcome_writePoint fun w hw => ?_
    obtain ⟨q, -, rfl⟩ := Option.map_eq_some_iff.mp hw
    simp [regionsOf, dRegion]
  all_goals exact h.sameOutcome_writeOut (by simp [regionsOf, dRegion])

/-- SIGN_KEYPAIR takes the same draw from both states (R235). -/
theorem exec_signKeypair_byInputs :
    ∃ rule, ByInputs .signKeypair rule
      ∧ ∀ s, exec .signKeypair s = runCommand .signKeypair rule s := by
  refine ⟨_, fun s s' h => ?_, fun _ => rfl⟩
  obtain ⟨hdraw, h⟩ := h.invalidateCtx.entropyRead
  have hlat : (entropyRead (invalidateCtx s)).2.lat = s.lat := entropyRead_lat _
  dsimp only
  rw [← hdraw, ← hlat]
  split
  · exact sameOutcome_raiseError nofun
  · exact h.sameOutcome_writeOut (by simp [regionsOf, dRegion])

/-- Every command but SHA512_UPDATE and SHA512_FINAL ends alike from all states that give it the
same (R120). -/
theorem exec_byInputs {i : Instr} (hu : i ≠ .sha512Update) (hf : i ≠ .sha512Final) :
    ∃ rule, ByInputs i rule ∧ ∀ s, exec i s = runCommand i rule s := by
  by_cases hi : i ∈ [.nop, .zeroize, .sha512Init, .sha512Update, .sha512Final, .signKeypair]
  · simp only [List.mem_cons, List.not_mem_nil, or_false, hu, hf, false_or] at hi
    rcases hi with rfl | rfl | rfl | rfl
    case inr.inr.inr => exact exec_signKeypair_byInputs
    all_goals exact ⟨_, fun _ _ _ => sameOutcome_complete_nil _, fun _ => rfl⟩
  · obtain ⟨rest, hrest, hexec⟩ := exec_reads_byInputs hi
    refine ⟨_, fun s s' h => ?_, hexec⟩
    split
    · exact hrest.afterReads _ _ h.invalidateCtx
    · exact hrest.afterReads _ _ h

/-- The checks of a command with no sequence check look at the latches alone (R114 to R116). -/
theorem checkError_of_lat_eq {i : Instr} {s s' : State} (hu : i ≠ .sha512Update)
    (hf : i ≠ .sha512Final) (hl : s.lat = s'.lat) : checkError i s = checkError i s' := by
  have hseq (u : State) : seqFails i u = false := (seqFails_iff i u).mpr (by simp [hu, hf])
  unfold checkError
  rw [hseq, hseq, hl]

theorem checkError_ne_some_none (i : Instr) (s : State) : checkError i s ≠ some .none := by
  intro h
  rcases checkError_some i s h with ⟨h, -⟩ | ⟨h, -⟩ | ⟨h, -⟩ | ⟨h, -⟩
  all_goals cases h

/-- Settles O52: two such states fail the same check, or the rule of the command ends alike. -/
theorem commandsArePure : Obligations.CommandsArePure := by
  intro i s s' t t' hu hf hd hd' hm hm' hlat hbus hent hfree hbytes ht ht'
  suffices h : SameOutcome (outputAddresses i s.lat) t t' from
    ⟨h.err, h.vfail, h.outLen, h.errAddr, h.bytes⟩
  obtain ⟨rule, hrule, hexec⟩ := exec_byInputs hu hf
  have hcheck := checkError_of_lat_eq hu hf hlat
  rw [hexec] at ht ht'
  cases hc : checkError i s with
  | some c =>
    rw [runCommand_fails i rule s c hc] at ht
    rw [runCommand_fails i rule s' c (hcheck ▸ hc)] at ht'
    obtain rfl := Host.Outcome.next.inj ht
    obtain rfl := Host.Outcome.next.inj ht'
    exact sameOutcome_raiseError fun h => checkError_ne_some_none i s (h ▸ hc)
  | none =>
    rw [runCommand_passes i rule s hc] at ht
    rw [runCommand_passes i rule s' (hcheck ▸ hc)] at ht'
    obtain rfl := Host.Outcome.next.inj ht
    obtain rfl := Host.Outcome.next.inj ht'
    obtain ⟨-, -, hranges, -⟩ := (checkError_none_iff i s).mp hc
    exact hrule s s' ⟨hlat, hbus, hent, hfree, hd, hd', hm, hm', hranges, hbytes⟩

end Sys2Proof.Machine
end

section
/-! PROOFS. The family 41_sha512.md: the SHA-512 commands (O23, O24, O25, O26), hashing in pieces
(O27) and what every command does to the context (O21). -/

namespace Sys2Proof.Machine

/-! ### The context after a command (R139) -/

/-- A command whose checks pass ends with the context its rule has worked on. -/
theorem exec_ctxStep {i : Instr} {s t : State} (h : exec i s = .next t) (hp : ChecksPass i s) :
    ∃ s0, CtxStep i s s0 ∧ SameCtx t s0 := by
  rcases exec_ends i s with ⟨c, hc, -⟩ | ⟨-, s0, t', hx, hctx, o, u, rfl, hu, -⟩
  · rw [(checkError_none_iff i s).mpr hp] at hc
    cases hc
  · obtain rfl := Host.Outcome.next.inj (hx.symm.trans h)
    refine ⟨s0, hctx, ?_⟩
    simp only [SameCtx, complete_ctxValid, complete_ctxH, complete_ctxMlen, complete_ctxBuf]
    rw [hu]
    exact ⟨rfl, rfl, rfl, rfl⟩

/-- Settles O21, by the context work of the two groups of commands. -/
theorem contextOfOtherCommands : Obligations.ContextOfOtherCommands := by
  intro i s t ht hp
  obtain ⟨s0, hstep, hctx⟩ := exec_ctxStep ht hp
  refine ⟨fun hh => ?_, fun hh hi => ?_⟩
  · obtain rfl : s0 = invalidateCtx s := by simpa [CtxStep, hh] using hstep
    exact hctx
  · simp only [List.mem_cons, List.not_mem_nil, or_false, not_or] at hi
    obtain ⟨hz, hinit, hupdate, hfinal⟩ := hi
    obtain rfl : s0 = s := by simpa [CtxStep, hh, hz, hinit, hupdate, hfinal] using hstep
    exact hctx

/-! ### The checks and the input reads of the SHA-512 commands -/

/-- A command that R67 names no overlap for passes its checks once sequence and ranges are right. -/
theorem checkError_none_of_ranges {i : Instr} {s : State}
    (hi : i ∉ [.sign, .signOpen, .streamXor]) (hs : SequenceOk i s) (hr : RangesOk i s.lat) : checkError i s = none := by
  simp only [List.mem_cons, List.not_mem_nil, or_false, not_or] at hi
  obtain ⟨hsign, hopen, hxor⟩ := hi
  exact (checkError_none_iff i s).mpr
    ⟨hs, fun h => absurd h hsign, hr, by simp [OverlapRefused, hsign, hopen, hxor]⟩

/-- Where A is the only input region, its bytes are all a command reads (R94). -/
theorem failingReads_nil_of_a {i : Instr} {s : State}
    (hi : (regionsOf i s.lat).ins = [⟨s.lat.aAddr.toNat, s.lat.aLen.toNat⟩])
    (h : BusAnswersOk s .read s.lat.aAddr s.lat.aLen.toNat) : failingReads i s = [] :=
  failingReads_nil fun r hr => by
    rw [hi, List.mem_singleton] at hr
    subst hr
    exact ⟨_, rfl, h⟩

/-! ### The commands (R138, R141 to R143) -/

/-- Settles O23: the checks pass, and the read, the hash and the write run with no race. -/
theorem sha512WritesDigest : Obligations.Sha512WritesDigest := by
  intro s hd ⟨harange, habus⟩ ⟨hdrange, hdbus⟩
  have hc : checkError .sha512 s = none := checkError_none_of_ranges (by decide) (by simp)
    (by simpa [RangesOk, RegionInRange, Regions.all, regionsOf, aRegion, dRegion]
      using And.intro harange hdrange)
  refine (runCommand_readsThen_ok (pre := invalidateCtx) hc
    (failingReads_nil_of_a rfl habus)).trans ?_
  simp only [memRead_unread (s := invalidateCtx s) _ _ hd.1, writeOut_withUnread, withRegs_keepReg]
  exact congrArg _
    (writeOut_calm .sha512 _ (invalidateCtx s) (failingWrites_nil (n := 64) rfl hdbus) hd)

/-- Settles O24: SHA512_INIT has no check to fail, so it starts the context and completes. -/
theorem sha512InitStartsContext : Obligations.Sha512InitStartsContext := by
  intro s hd
  dsimp only [exec, execSha512Init]
  rw [runCommand_passes _ _ s rfl, complete_ok_calm 0 (startCtx s) hd]
  rfl

theorem exec_sha512Update_calm {s : State} (hd : DutyKept s) (hv : s.ctxValid = true)
    (ha : CanRead s s.lat.aAddr s.lat.aLen.toNat) :
    exec .sha512Update s = .next
      ((absorb (inputBytes s s.lat.aAddr s.lat.aLen.toNat) s).succeeded 0) := by
  obtain ⟨harange, habus⟩ := ha
  have hc : checkError .sha512Update s = none :=
    checkError_none_of_ranges (by decide) (fun _ => hv)
      (by simpa [RangesOk, RegionInRange, Regions.all, regionsOf, aRegion] using harange)
  refine (runCommand_readsThen_ok (pre := id) hc (failingReads_nil_of_a rfl habus)).trans ?_
  simp only [id, memRead_unread (s := s) _ _ hd.1, absorb_withUnread, complete_withUnread,
    withRegs_keepReg]
  exact congrArg _ (complete_ok_calm 0 (absorb _ s) hd)

/-- A buffer shorter than a block leaves nothing to compress (R140, R142). -/
theorem absorb_nil {s : State} (h : s.ctxBuf.length < 128) : absorb [] s = s := by
  simp [absorb, Nat.div_eq_of_lt h, compressBlocks]

/-- Settles O25, by the rule of the command and by what an empty Absorb does. -/
theorem sha512UpdateAbsorbs : Obligations.Sha512UpdateAbsorbs :=
  ⟨fun _ hd hv ha => exec_sha512Update_calm hd hv ha, fun _ h => absorb_nil h⟩

/-- Settles O26: the digest is that of the context before the command invalidates it. -/
theorem sha512FinalWritesDigest : Obligations.Sha512FinalWritesDigest := by
  intro s hd hv ⟨hdrange, hdbus⟩
  have hc : checkError .sha512Final s = none :=
    checkError_none_of_ranges (by decide) (fun _ => hv)
      (by simpa [RangesOk, RegionInRange, Regions.all, regionsOf, dRegion] using hdrange)
  dsimp only [exec, execSha512Final]
  rw [runCommand_passes _ _ s hc]
  exact congrArg _
    (writeOut_calm .sha512Final _ (invalidateCtx s) (failingWrites_nil (n := 64) rfl hdbus) hd)

/-! ### Hashing in pieces (R140, R144) -/

/-- Once the whole blocks of `m` are compressed, the bytes left over and what follows them are all
the compression of `m ++ x` still needs. -/
theorem compressBlocks_resume (h : ChainWords) (m x : List Byte) :
    let left := m.drop (128 * (m.length / 128))
    compressBlocks ((left ++ x).length / 128) (compressBlocks (m.length / 128) h m) (left ++ x)
      = compressBlocks ((m ++ x).length / 128) h (m ++ x) := by
  intro left
  have hle : 128 * (m.length / 128) ≤ m.length := Nat.mul_div_le _ _
  have hleft : left ++ x = (m ++ x).drop (128 * (m.length / 128)) :=
    (List.drop_append_of_le_length hle).symm
  have hblocks : (m ++ x).length / 128 = m.length / 128 + (left ++ x).length / 128 := by
    rw [hleft, List.length_drop, List.length_append]
    omega
  rw [hblocks, compressBlocks_add, compressBlocks_append _ _ _ _ hle, hleft]

/-- The context of `s` stands for the message `m`: its whole blocks compressed from the initial
value, the bytes left over held in CTX_BUF, its length counted (R140). -/
structure HoldsMessage (m : List Byte) (s : State) : Prop where
  ctxH : s.ctxH = compressBlocks (m.length / 128) shaIv m
  ctxMlen : s.ctxMlen = BitVec.ofNat 128 m.length
  ctxBuf : s.ctxBuf = m.drop (128 * (m.length / 128))

theorem startCtx_holdsMessage (s : State) : HoldsMessage [] (startCtx s) := ⟨rfl, rfl, rfl⟩

theorem absorb_holdsMessage {m : List Byte} {s : State} (data : List Byte) (h : HoldsMessage m s) :
    HoldsMessage (m ++ data) (absorb data s) where
  ctxH := by rw [absorb_ctxH, h.ctxH, h.ctxBuf, compressBlocks_resume]
  ctxMlen := by rw [absorb_ctxMlen, h.ctxMlen, List.length_append, BitVec.ofNat_add]
  ctxBuf := by
    have hle : 128 * (m.length / 128) ≤ m.length := Nat.mul_div_le _ _
    rw [absorb_ctxBuf, h.ctxBuf, ← List.drop_append_of_le_length hle, List.drop_drop,
      List.length_drop, List.length_append]
    congr 1
    omega

theorem foldl_absorb_holdsMessage {m : List Byte} {s : State} (pieces : List (List Byte))
    (h : HoldsMessage m s) :
    HoldsMessage (m ++ pieces.flatten) (pieces.foldl (fun c p => absorb p c) s) := by
  induction pieces generalizing m s with
  | nil => simpa using h
  | cons p pieces ih =>
    rw [List.flatten_cons, ← List.append_assoc]
    exact ih (absorb_holdsMessage p h)

/-- Finalize gives the digest of the message the context stands for, where CTX_MLEN has not wrapped
(R140, R145). -/
theorem finalize_of_holdsMessage {m : List Byte} {s : State} (h : HoldsMessage m s)
    (hlen : m.length < 2 ^ 128) : finalize s = sha512Hash m := by
  have hbuf : s.ctxBuf.length = m.length % 128 := by
    rw [h.ctxBuf, List.length_drop]
    omega
  have hmlen : s.ctxMlen.toNat = m.length := by
    rw [h.ctxMlen, BitVec.toNat_ofNat, Nat.mod_eq_of_lt hlen]
  simp only [finalize, hbuf, hmlen, shaPadding_mod]
  rw [h.ctxBuf, h.ctxH, compressBlocks_resume]
  rfl

/-- Settles O27: the context stands for the pieces absorbed so far, and Finalize pads and hashes the
rest. -/
theorem incrementalHashEqualsOneShot : Obligations.IncrementalHashEqualsOneShot := by
  intro pieces s hlen
  exact finalize_of_holdsMessage (foldl_absorb_holdsMessage pieces (startCtx_holdsMessage s))
    (hlen.trans (by decide))

end Sys2Proof.Machine
end

section
/-! PROOFS. The family 42_mac.md: AUTH (O28), AUTH_VERIFY (O29) and CT_COMPARE (O30). -/

namespace Sys2Proof.Machine

/-! ### The checks and the input reads, from the operand regions (R64, R94, R116) -/

/-- A command that R67 names no overlap for passes its checks and its input reads when each of its
input regions `ins` can be read and its output region, if it has one, is in range. -/
theorem checks_and_reads_pass {i : Instr} {s : State} {ins : List (Word × Nat)}
    (hi : i ∉ [.sign, .signOpen, .streamXor]) (hs : SequenceOk i s)
    (hins : (regionsOf i s.lat).ins = ins.map fun r => ⟨r.1.toNat, r.2⟩)
    (hread : ∀ r ∈ ins, CanRead s r.1 r.2)
    (hout : ∀ r, (regionsOf i s.lat).d = some r → r.len = 0 ∨ r.addr + r.len ≤ 4294967296) :
    checkError i s = none ∧ failingReads i s = [] := by
  have hregion : ∀ r ∈ (regionsOf i s.lat).ins, ∃ a : Word, r.addr = a.toNat ∧ CanRead s a r.len := by
    intro r hr
    rw [hins, List.mem_map] at hr
    obtain ⟨⟨a, n⟩, hmem, rfl⟩ := hr
    exact ⟨a, rfl, hread _ hmem⟩
  refine ⟨checkError_none_of_ranges hi hs fun r hr => ?_, failingReads_nil fun r hr => ?_⟩
  · rcases List.mem_append.mp hr with hin | hd
    · obtain ⟨a, haddr, hrange, -⟩ := hregion r hin
      rwa [haddr]
    · exact hout r (Option.mem_toList.mp hd)
  · obtain ⟨a, haddr, -, hbus⟩ := hregion r hr
    exact ⟨a, haddr, hbus⟩

/-! ### The verdict on two strings (R162, R164, R165) -/

/-- With no race, CT_EQ of two strings of one length decides between OK(0) and a verification
failure. -/
theorem verdict_ctEq_calm {x y : List Byte} {s : State} (hd : DutyKept s)
    (hlen : x.length = y.length) :
    verdict (ctEq x y) s = if x = y then s.succeeded 0 else s.failedVerification := by
  simp only [verdict, ctEq_iff x y hlen, complete_ok_calm 0 s hd, verifyFail_calm s hd]

/-! ### The commands -/

/-- Settles O28: the checks and reads pass, and MAC(A, B) is written with no race. -/
theorem authWritesTag : Obligations.AuthWritesTag := by
  intro s hd ha hb ⟨hdrange, hdbus⟩
  obtain ⟨hcheck, hreads⟩ := checks_and_reads_pass (i := .auth) (s := s)
    (ins := [(s.lat.aAddr, s.lat.aLen.toNat), (s.lat.bAddr, 32)]) (by decide) (by simp) rfl
    (by simpa using And.intro ha hb) (fun _ hr => Option.some.inj hr ▸ hdrange)
  refine (runCommand_readsThen_ok (pre := invalidateCtx) hcheck hreads).trans ?_
  simp only [memRead_unread (s := invalidateCtx s) _ _ hd.1, memRead_withUnread_bytes,
    memRead_withUnread_state, writeOut_withUnread, withRegs_keepReg]
  exact congrArg _
    (writeOut_calm .auth _ (invalidateCtx s) (failingWrites_nil (n := 32) rfl hdbus) hd)

/-- AUTH_VERIFY of operands that can be read, with no race (R164). -/
theorem exec_authVerify_calm {s : State} (hd : DutyKept s)
    (ha : CanRead s s.lat.aAddr s.lat.aLen.toNat) (hb : CanRead s s.lat.bAddr 32)
    (hc : CanRead s s.lat.cAddr 32) :
    exec .authVerify s = .next
      (if macTag (inputBytes s s.lat.aAddr s.lat.aLen.toNat) (inputBytes s s.lat.bAddr 32)
          = inputBytes s s.lat.cAddr 32 then s.withoutContext.succeeded 0
        else s.withoutContext.failedVerification) := by
  obtain ⟨hcheck, hreads⟩ := checks_and_reads_pass (i := .authVerify) (s := s)
    (ins := [(s.lat.aAddr, s.lat.aLen.toNat), (s.lat.bAddr, 32), (s.lat.cAddr, 32)])
    (by decide) (by simp) rfl (by simpa using And.intro ha (And.intro hb hc)) nofun
  refine (runCommand_readsThen_ok (pre := invalidateCtx) hcheck hreads).trans ?_
  simp only [memRead_unread (s := invalidateCtx s) _ _ hd.1, memRead_withUnread_bytes,
    memRead_withUnread_state, verdict_withUnread, withRegs_keepReg]
  exact congrArg _ (verdict_ctEq_calm (s := invalidateCtx s) hd (by simp))

/-- Settles O29: the two cases of the tag comparison. -/
theorem authVerifyComparesTag : Obligations.AuthVerifyComparesTag := by
  intro s hd ha hb hc tag
  rw [exec_authVerify_calm hd ha hb hc]
  exact ⟨fun heq => congrArg _ (if_pos heq.symm), fun hne => congrArg _ (if_neg hne.symm)⟩

/-- CT_COMPARE of operands that can be read, with no race (R165). -/
theorem exec_ctCompare_calm {s : State} (hd : DutyKept s)
    (ha : CanRead s s.lat.aAddr s.lat.aLen.toNat) (hc : CanRead s s.lat.cAddr s.lat.aLen.toNat) :
    exec .ctCompare s = .next
      (if inputBytes s s.lat.aAddr s.lat.aLen.toNat = inputBytes s s.lat.cAddr s.lat.aLen.toNat
        then s.succeeded 0 else s.failedVerification) := by
  obtain ⟨hcheck, hreads⟩ := checks_and_reads_pass (i := .ctCompare) (s := s)
    (ins := [(s.lat.aAddr, s.lat.aLen.toNat), (s.lat.cAddr, s.lat.aLen.toNat)])
    (by decide) (by simp) rfl (by simpa using And.intro ha hc) nofun
  refine (runCommand_readsThen_ok (pre := id) hcheck hreads).trans ?_
  simp only [id, memRead_unread (s := s) _ _ hd.1, memRead_withUnread_bytes,
    memRead_withUnread_state, verdict_withUnread, withRegs_keepReg]
  exact congrArg _ (verdict_ctEq_calm hd (by simp))

/-- Settles O30: the two cases of the string comparison. -/
theorem ctCompareComparesStrings : Obligations.CtCompareComparesStrings := by
  intro s hd ha hc
  rw [exec_ctCompare_calm hd ha hc]
  exact ⟨fun heq => congrArg _ (if_pos heq), fun hne => congrArg _ (if_neg hne)⟩

end Sys2Proof.Machine
end

section
/-! PROOFS. The family 43_field_scalar.md: FE_ADD, FE_SUB and FE_MUL (O31), FE_INV (O32), SC_REDUCE (O33)
and SC_MULADD (O34). -/

namespace Sys2Proof.Machine

/-! ### A command that reads its operands and writes a result of them (R64, R65, R118) -/

/-- A command that R67 names no overlap for, with no race, operands that can be read and an output
region that can be written, succeeds with the output `v` its rule writes after the reads. -/
theorem runCommand_readsThen_writes {i : Instr} {s : State} {rest : State → State} {v : List Byte}
    {ins : List (Word × Nat)} {n : Nat} (hi : i ∉ [.sign, .signOpen, .streamXor])
    (hs : SequenceOk i s) (hd : DutyKept s)
    (hins : (regionsOf i s.lat).ins = ins.map fun r => ⟨r.1.toNat, r.2⟩)
    (hread : ∀ r ∈ ins, CanRead s r.1 r.2)
    (hout : (regionsOf i s.lat).d = some ⟨s.lat.dAddr.toNat, n⟩) (hwrite : CanWrite s s.lat.dAddr n)
    (hrest : rest s = writeOut i v s) :
    runCommand i (readsThen i id rest) s = .next (s.succeededWith v) := by
  obtain ⟨hrange, hbus⟩ := hwrite
  obtain ⟨hcheck, hreads⟩ := checks_and_reads_pass hi hs hins hread fun r hr =>
    Option.some.inj (hout.symm.trans hr) ▸ hrange
  calc
    runCommand i (readsThen i id rest) s
    _ = .next (rest s) := runCommand_readsThen_ok (pre := id) hcheck hreads
    _ = .next (writeOut i v s) := congrArg _ hrest
    _ = .next (s.succeededWith v) :=
      congrArg _ (writeOut_calm i v s (failingWrites_nil hout hbus) hd)

/-! ### The arithmetic, in the written-out moduli (R180 to R187) -/

/-- p in the form of R180. -/
theorem fieldP_eq : fieldP = 2 ^ 255 - 19 := by decide

/-- L in the form of R181. -/
theorem groupL_eq : groupL = 2 ^ 252 + 27742317777372353535851937790883648493 := by decide

/-- FE_SUB's natural number is the integer difference mod p (R183). -/
theorem fieldSub_eq_int (x y : Nat) :
    fieldSub x y = (((x : Int) - (y : Int)) % (2 ^ 255 - 19)).toNat := by
  rw [fieldSub, fieldP]
  omega

/-- FE_INV's squaring computes the power p - 2 (R185). -/
theorem fieldInv_eq (x : Nat) : fieldInv x = x ^ (fieldP - 2) % fieldP :=
  powMod_eq x (fieldP - 2) fieldP (by decide)

/-! ### The commands -/

/-- The frame of the three commands with two field operands that can be read, with no race (R182 to
R184). -/
theorem fieldBinary_calm {i : Instr} {s : State} (hi : i ∈ [.feAdd, .feSub, .feMul])
    (f : Nat → Nat → Nat) (hd : DutyKept s) (hb : CanRead s s.lat.bAddr 32)
    (hc : CanRead s s.lat.cAddr 32) (hw : CanWrite s s.lat.dAddr 32) :
    fieldBinary i f s = .next (s.succeededWith (leBytes 32
      (f (leNat (inputBytes s s.lat.bAddr 32)) (leNat (inputBytes s s.lat.cAddr 32))))) := by
  simp only [List.mem_cons, List.not_mem_nil, or_false] at hi
  rcases hi with rfl | rfl | rfl
  all_goals
    refine runCommand_readsThen_writes (ins := [(s.lat.bAddr, 32), (s.lat.cAddr, 32)]) (by decide)
      (by simp) hd rfl (by simpa using And.intro hb hc) rfl hw ?_
    simp only [memRead_unread (s := s) _ _ hd.1, memRead_withUnread_bytes,
      memRead_withUnread_state, writeOut_withUnread, withRegs_keepReg]

/-- Settles O31: each command is the common frame around its field operation. -/
theorem fieldAddSubMulResults : Obligations.FieldAddSubMulResults := by
  intro s hd hb hc hw x y
  refine ⟨?_, ?_, ?_⟩
  · rw [← fieldP_eq]
    exact fieldBinary_calm (by decide) fieldAdd hd hb hc hw
  · rw [← fieldSub_eq_int]
    exact fieldBinary_calm (by decide) fieldSub hd hb hc hw
  · rw [← fieldP_eq]
    exact fieldBinary_calm (by decide) fieldMul hd hb hc hw

/-- Settles O32: the engine's power by squaring is the power (R185). -/
theorem fieldInverseResult : Obligations.FieldInverseResult := by
  intro s hd hb hw
  rw [← fieldInv_eq]
  refine runCommand_readsThen_writes (i := .feInv) (ins := [(s.lat.bAddr, 32)]) (by decide) (by simp)
    hd rfl (by simpa using hb) rfl hw ?_
  simp only [memRead_unread (s := s) _ _ hd.1, writeOut_withUnread, withRegs_keepReg]

/-- Settles O33: SC_REDUCE reduces all 64 bytes at once (R186). -/
theorem scalarReduceResult : Obligations.ScalarReduceResult := by
  intro s hd hb hw
  rw [← groupL_eq]
  refine runCommand_readsThen_writes (i := .scReduce) (ins := [(s.lat.bAddr, 64)]) (by decide)
    (by simp) hd rfl (by simpa using hb) rfl hw ?_
  simp only [memRead_unread (s := s) _ _ hd.1, writeOut_withUnread, withRegs_keepReg]

/-- Settles O34: SC_MULADD reads 32 bytes of each of B, C and A, in this order (R187). -/
theorem scalarMulAddResult : Obligations.ScalarMulAddResult := by
  intro s hd ha hb hc hw
  rw [← groupL_eq]
  refine runCommand_readsThen_writes (i := .scMuladd)
    (ins := [(s.lat.aAddr, 32), (s.lat.bAddr, 32), (s.lat.cAddr, 32)]) (by decide) (by simp) hd rfl
    (by simpa using And.intro ha (And.intro hb hc)) rfl hw ?_
  simp only [memRead_unread (s := s) _ _ hd.1, memRead_withUnread_bytes,
    memRead_withUnread_state, writeOut_withUnread, withRegs_keepReg, scalarMulAdd]

end Sys2Proof.Machine
end

section
/-! PROOFS. The family 44_point.md: PT_DECODE (O35), PT_ENCODE (O36), PT_ADD (O37), PT_SCALARMULT and
PT_SCALARMULT_BASE (O38), their E_POINT outcomes (O39), and ENC and DEC (O40). -/

namespace Sys2Proof.Machine

/-! ### Numbers mod p as elements of the field (R180, R201, R209) -/

/-- A number in [0, p) is determined by its field element. -/
theorem eq_of_fieldP_cast {a b : Nat} (ha : a < fieldP) (hb : b < fieldP)
    (h : (a : ZMod fieldP) = b) : a = b := by
  rw [ZMod.natCast_eq_natCast_iff'] at h
  rwa [Nat.mod_eq_of_lt ha, Nat.mod_eq_of_lt hb] at h

theorem powMod_cast (b : Nat) {e : Nat} (he : e < 2 ^ 256) :
    ((powMod b e fieldP : Nat) : ZMod fieldP) = (b : ZMod fieldP) ^ e := by
  rw [powMod_eq b e fieldP he, ZMod.natCast_mod, Nat.cast_pow]

/-- p - x stands for -x. -/
theorem fieldP_sub_cast {x : Nat} (hx : x < fieldP) :
    ((fieldP - x : Nat) : ZMod fieldP) = -x := by
  rw [Nat.cast_sub hx.le, ZMod.natCast_self, zero_sub]

theorem fieldMul_lt (x y : Nat) : fieldMul x y < fieldP := Nat.mod_lt _ fieldP_prime.pos

theorem fieldSub_lt (x y : Nat) : fieldSub x y < fieldP := Nat.mod_lt _ fieldP_prime.pos

/-- SQRTM1 is a square root of -1 (R209). -/
theorem sqrtM1_sq : (sqrtM1 : ZMod fieldP) ^ 2 = -1 := by
  have h : ((sqrtM1 ^ 2 + 1 : Nat) : ZMod fieldP) = 0 :=
    (ZMod.natCast_eq_zero_iff _ _).mpr (by decide)
  push_cast at h
  exact eq_neg_of_add_eq_zero_left h

/-- d is not a square mod p, by Euler's criterion (R201). -/
theorem not_isSquare_curveD : ¬ IsSquare (curveD : ZMod fieldP) := by
  have : Fact fieldP.Prime := ⟨fieldP_prime⟩
  have hd : (curveD : ZMod fieldP) ≠ 0 := fun h =>
    absurd (eq_of_fieldP_cast (a := curveD) (b := 0) (by decide) (by decide)
      (h.trans Nat.cast_zero.symm)) (by decide)
  have hpow : powMod curveD (fieldP / 2) fieldP ≠ 1 := by decide +kernel
  rw [ZMod.euler_criterion fieldP hd, ← powMod_cast curveD (by decide)]
  intro h
  refine hpow (eq_of_fieldP_cast ?_ (by decide) (h.trans Nat.cast_one.symm))
  rw [powMod_eq _ _ _ (by decide)]
  exact Nat.mod_lt _ fieldP_prime.pos

/-- DEC's v = d·y^2 + 1 is never 0, as -1 is a square and d is not (R201, R207). -/
theorem curveD_mul_sq_add_one_ne_zero (y : ZMod fieldP) : (curveD : ZMod fieldP) * y ^ 2 + 1 ≠ 0 := by
  have : Fact fieldP.Prime := ⟨fieldP_prime⟩
  intro h
  have hy : y ≠ 0 := by
    rintro rfl
    simp at h
  refine not_isSquare_curveD ⟨sqrtM1 / y, ?_⟩
  rw [div_mul_div_comm, ← pow_two, ← pow_two, sqrtM1_sq, eq_div_iff (pow_ne_zero 2 hy)]
  exact eq_neg_of_add_eq_zero_left h

/-! ### The square root of a ratio (R207) -/

section
variable {u v : Nat}

/-- The square of DEC's candidate root, times v, is u times a (p - 1)/4-th power. -/
theorem rootCandidate_sq_cast (u v : Nat) :
    (v : ZMod fieldP) * (rootCandidate u v : ZMod fieldP) ^ 2
      = u * (u * (v : ZMod fieldP) ^ 7) ^ ((fieldP - 1) / 4) := by
  have hexp : (fieldP - 1) / 4 = (fieldP - 5) / 8 * 2 + 1 := by decide
  rw [rootCandidate, fieldMul_cast, powMod_cast _ (by decide), hexp]
  push_cast
  ring

/-- Where u/v is a square, the candidate's square is u/v or -u/v. -/
theorem rootCandidate_sq_of_isSquare {t : ZMod fieldP} (ht : (v : ZMod fieldP) * t ^ 2 = u) :
    (v : ZMod fieldP) * (rootCandidate u v : ZMod fieldP) ^ 2 = u
      ∨ (v : ZMod fieldP) * (rootCandidate u v : ZMod fieldP) ^ 2 = -u := by
  have : Fact fieldP.Prime := ⟨fieldP_prime⟩
  rw [rootCandidate_sq_cast]
  by_cases hu : (u : ZMod fieldP) = 0
  · simp [hu]
  have hroot : (v : ZMod fieldP) ^ 4 * t ≠ 0 := by
    intro h
    rcases mul_eq_zero.mp h with hv | rfl
    · simp [← ht, (pow_eq_zero_iff four_ne_zero).mp hv] at hu
    · simp [← ht] at hu
  have hsq : (u * (v : ZMod fieldP) ^ 7) ^ ((fieldP - 1) / 4) = (v ^ 4 * t) ^ (fieldP / 2) := by
    rw [show fieldP / 2 = 2 * ((fieldP - 1) / 4) by decide, pow_mul, ← ht]
    congr 1
    ring
  rw [hsq]
  rcases ZMod.pow_div_two_eq_neg_one_or_one fieldP hroot with h | h <;> simp [h]

/-- The root DEC takes is one: v·x^2 = u. -/
theorem sqrtRatio_eq_some {x : Nat} (h : sqrtRatio u v = some x) :
    x < fieldP ∧ (v : ZMod fieldP) * (x : ZMod fieldP) ^ 2 = u := by
  simp only [sqrtRatio] at h
  split_ifs at h with hpos hneg
  · obtain rfl := Option.some.inj h
    refine ⟨fieldMul_lt _ _, ?_⟩
    rw [← Nat.cast_pow, ← fieldMul_cast, hpos]
  · obtain rfl := Option.some.inj h
    refine ⟨fieldMul_lt _ _, ?_⟩
    have hcast := congrArg (Nat.cast (R := ZMod fieldP)) hneg
    simp only [fieldMul_cast, fieldSub_cast, Nat.cast_pow, Nat.cast_zero, zero_sub] at hcast
    rw [fieldMul_cast, mul_pow, sqrtM1_sq, mul_neg_one, mul_neg, hcast, neg_neg]

/-- DEC finds a root of u/v wherever there is one. -/
theorem exists_sqrtRatio_eq_some (hu : u < fieldP) {t : ZMod fieldP}
    (ht : (v : ZMod fieldP) * t ^ 2 = u) : ∃ x, sqrtRatio u v = some x := by
  unfold sqrtRatio
  rcases rootCandidate_sq_of_isSquare ht with h | h
  · have hpos : fieldMul v (rootCandidate u v ^ 2) = u :=
      eq_of_fieldP_cast (fieldMul_lt _ _) hu (by rw [fieldMul_cast, Nat.cast_pow, h])
    exact ⟨_, if_pos hpos⟩
  · have hneg : fieldMul v (rootCandidate u v ^ 2) = fieldSub 0 u :=
      eq_of_fieldP_cast (fieldMul_lt _ _) (fieldSub_lt _ _)
        (by rw [fieldMul_cast, Nat.cast_pow, h, fieldSub_cast, Nat.cast_zero, zero_sub])
    simp only [hneg, if_true]
    split_ifs <;> exact ⟨_, rfl⟩

end

/-! ### The curve and the two roots of a y (R200, R205, R207) -/

/-- The curve equation in the field. -/
theorem onCurve_iff_cast (q : CurvePoint) :
    onCurve q = true ↔ (q.y : ZMod fieldP) ^ 2
      = 1 + (q.x : ZMod fieldP) ^ 2 + curveD * (q.x : ZMod fieldP) ^ 2 * (q.y : ZMod fieldP) ^ 2 := by
  rw [onCurve, beq_iff_eq, ← ZMod.natCast_eq_natCast_iff']
  push_cast
  rfl

/-- The curve equation over the integers, as R200 writes it. -/
theorem onCurve_iff_int (q : CurvePoint) :
    onCurve q = true ↔ (-(q.x : Int) ^ 2 + (q.y : Int) ^ 2 - 1
      - (curveD : Int) * (q.x : Int) ^ 2 * (q.y : Int) ^ 2) % (fieldP : Int) = 0 := by
  rw [onCurve_iff_cast, ← Int.dvd_iff_emod_eq_zero, ← ZMod.intCast_zmod_eq_zero_iff_dvd]
  push_cast
  constructor <;> intro h <;> linear_combination h

/-- On the curve, v·x^2 = u for DEC's u and v of y. -/
theorem onCurve_iff_ratio (q : CurvePoint) :
    onCurve q = true ↔ ((fieldAdd (curveD * q.y ^ 2) 1 : Nat) : ZMod fieldP) * (q.x : ZMod fieldP) ^ 2
      = (fieldSub (q.y ^ 2) 1 : Nat) := by
  rw [onCurve_iff_cast, fieldAdd_cast, fieldSub_cast]
  push_cast
  constructor <;> intro h <;> linear_combination -h

/-- Two numbers in [0, p) with one square are equal or each other's negative. -/
theorem eq_or_add_eq_of_sq_cast {x t : Nat} (hx : x < fieldP) (ht : t < fieldP)
    (h : (x : ZMod fieldP) ^ 2 = (t : ZMod fieldP) ^ 2) : x = t ∨ x + t = fieldP := by
  have : Fact fieldP.Prime := ⟨fieldP_prime⟩
  rcases sq_eq_sq_iff_eq_or_eq_neg.mp h with h | h
  · exact .inl (eq_of_fieldP_cast hx ht h)
  · have hsum : ((x + t : Nat) : ZMod fieldP) = 0 := by
      rw [Nat.cast_add, h, neg_add_cancel]
    obtain ⟨k, hk⟩ := (ZMod.natCast_eq_zero_iff _ _).mp hsum
    have hk2 : k < 2 := by
      by_contra hge
      have := Nat.mul_le_mul_left fieldP (Nat.le_of_not_lt hge)
      omega
    interval_cases k <;> omega

/-- For the y of a point of the curve DEC finds a root, which is the point's x or its negative. -/
theorem exists_root_of_onCurve {q : CurvePoint} (hx : q.x < fieldP) (hq : onCurve q = true) :
    ∃ x, sqrtRatio (fieldSub (q.y ^ 2) 1) (fieldAdd (curveD * q.y ^ 2) 1) = some x
      ∧ (x = q.x ∨ x + q.x = fieldP) := by
  have : Fact fieldP.Prime := ⟨fieldP_prime⟩
  have hratio := (onCurve_iff_ratio q).mp hq
  have hv : ((fieldAdd (curveD * q.y ^ 2) 1 : Nat) : ZMod fieldP) ≠ 0 := by
    rw [fieldAdd_cast]
    push_cast
    exact curveD_mul_sq_add_one_ne_zero _
  obtain ⟨x, hroot⟩ := exists_sqrtRatio_eq_some (fieldSub_lt _ _) hratio
  obtain ⟨hxlt, hsq⟩ := sqrtRatio_eq_some hroot
  exact ⟨x, hroot, eq_or_add_eq_of_sq_cast hxlt hx (mul_left_cancel₀ hv (hsq.trans hratio.symm))⟩

/-! ### ENC and DEC (R206, R207) -/

/-- DEC gives the one point of the curve with canonical coordinates whose y and sign the 256-bit
number holds. -/
theorem decodePoint_eq_some_iff {e : List Byte} (he : leNat e < 2 ^ 256) (q : CurvePoint) :
    decodePoint e = some q ↔ (q.x < fieldP ∧ q.y < fieldP ∧ onCurve q = true)
      ∧ q.y = leNat e % 2 ^ 255 ∧ q.x % 2 = leNat e / 2 ^ 255 := by
  have hodd : fieldP % 2 = 1 := by decide
  have hsign : leNat e / 2 ^ 255 < 2 := by omega
  simp only [decodePoint]
  constructor
  · intro h
    split_ifs at h with hy
    split at h
    · cases h
    rename_i x hroot
    obtain ⟨hx, hsq⟩ := sqrtRatio_eq_some hroot
    split_ifs at h with hzero hpar
    · obtain rfl := Option.some.inj h
      exact ⟨⟨hx, Nat.lt_of_not_le hy, (onCurve_iff_ratio _).mpr hsq⟩, rfl, hpar⟩
    · obtain rfl := Option.some.inj h
      have hlt : fieldP - x < fieldP := by omega
      have hpar' : (fieldP - x) % 2 = leNat e / 2 ^ 255 := by omega
      refine ⟨⟨hlt, Nat.lt_of_not_le hy, (onCurve_iff_ratio _).mpr ?_⟩, rfl, hpar'⟩
      rw [fieldP_sub_cast hx, neg_sq, hsq]
  · rintro ⟨⟨hx, hy, hcurve⟩, hqy, hqx⟩
    obtain ⟨x, hroot, hcases⟩ := exists_root_of_onCurve hx hcurve
    rw [← hqy, ← hqx, if_neg (by omega), hroot]
    dsimp only
    rw [if_neg (by omega)]
    split_ifs
    · obtain rfl : x = q.x := by omega
      rfl
    · have hneg : fieldP - x = q.x := by omega
      rw [hneg]

theorem leNat_encodePoint {q : CurvePoint} (hy : q.y < 2 ^ 255) :
    leNat (encodePoint q) = q.y + 2 ^ 255 * (q.x % 2) := by
  rw [encodePoint, leNat_leBytes]
  exact Nat.mod_eq_of_lt (by omega)

/-- Settles O40: ENC's number is the one from which DEC reads the point's y and sign. -/
theorem decodedPointReencodes : Obligations.DecodedPointReencodes := by
  rw [Obligations.DecodedPointReencodes, ← fieldP_eq]
  refine ⟨fun e q hlen h => ?_, fun q hx hy hq => ?_⟩
  · have hlt : leNat e < 2 ^ 256 := by simpa [hlen] using leNat_lt e
    obtain ⟨⟨hx, hy, hcurve⟩, hqy, hqx⟩ := (decodePoint_eq_some_iff hlt q).mp h
    refine ⟨?_, hx, hy, hcurve⟩
    rw [encodePoint, hqy, hqx, Nat.mod_add_div, ← hlen, leBytes_leNat]
  · have hle : fieldP < 2 ^ 255 := by decide
    have henc := leNat_encodePoint (q := q) (by omega)
    exact (decodePoint_eq_some_iff (by omega) q).mpr ⟨⟨hx, hy, hq⟩, by omega, by omega⟩

/-! ### The commands of the point engine: the common frame (R210 to R213) -/

/-- A command that R67 names no overlap for, with no race, operands that can be read and an output
region in range, comes to the output or E_POINT its rule ends with after the reads. -/
theorem runCommand_readsThen_point {i : Instr} {s : State} {rest : State → State}
    {v : Option (List Byte)} {ins : List (Word × Nat)} {n : Nat}
    (hi : i ∉ [.sign, .signOpen, .streamXor]) (hs : SequenceOk i s)
    (hins : (regionsOf i s.lat).ins = ins.map fun r => ⟨r.1.toNat, r.2⟩)
    (hread : ∀ r ∈ ins, CanRead s r.1 r.2)
    (hout : (regionsOf i s.lat).d = some ⟨s.lat.dAddr.toNat, n⟩)
    (hrange : RegionInRange s.lat.dAddr n) (hrest : rest s = writePoint i v s) :
    runCommand i (readsThen i id rest) s = .next (writePoint i v s) := by
  obtain ⟨hcheck, hreads⟩ := checks_and_reads_pass hi hs hins hread fun r hr =>
    Option.some.inj (hout.symm.trans hr) ▸ hrange
  exact (runCommand_readsThen_ok (pre := id) hcheck hreads).trans (congrArg _ hrest)

/-- An operand that is a point: its output, with no race and no bus error. -/
theorem writePoint_some_calm {i : Instr} {v : List Byte} {s : State} {n : Nat} (hd : DutyKept s)
    (hout : (regionsOf i s.lat).d = some ⟨s.lat.dAddr.toNat, n⟩)
    (hbus : BusAnswersOk s .write s.lat.dAddr n) :
    writePoint i (some v) s = s.succeededWith v :=
  writeOut_calm i v s (failingWrites_nil hout hbus) hd

/-- An operand that is not a point: E_POINT, with no race (R302). -/
theorem writePoint_none_calm (i : Instr) {s : State} (hd : DutyKept s) :
    writePoint i none s = s.failedWith .point := raiseError_calm .point s hd

section
variable {s : State} (hd : DutyKept s)
include hd

/-- PT_DECODE of a B that can be read (R210). -/
theorem exec_ptDecode_calm (hb : CanRead s s.lat.bAddr 32) (hr : RegionInRange s.lat.dAddr 64) :
    exec .ptDecode s
      = .next (writePoint .ptDecode ((decodePoint (inputBytes s s.lat.bAddr 32)).map affineBytes) s) := by
  refine runCommand_readsThen_point (ins := [(s.lat.bAddr, 32)]) (by decide) (by simp) rfl
    (by simpa using hb) rfl hr ?_
  simp only [memRead_unread (s := s) _ _ hd.1, writePoint_withUnread, withRegs_keepReg]

/-- PT_ENCODE of a B that can be read (R211). -/
theorem exec_ptEncode_calm (hb : CanRead s s.lat.bAddr 64) (hr : RegionInRange s.lat.dAddr 32) :
    exec .ptEncode s
      = .next (writePoint .ptEncode ((affinePoint (inputBytes s s.lat.bAddr 64)).map encodePoint) s) := by
  refine runCommand_readsThen_point (ins := [(s.lat.bAddr, 64)]) (by decide) (by simp) rfl
    (by simpa using hb) rfl hr ?_
  simp only [memRead_unread (s := s) _ _ hd.1, writePoint_withUnread, withRegs_keepReg]

/-- PT_ADD of operands that can be read (R212). -/
theorem exec_ptAdd_calm (hb : CanRead s s.lat.bAddr 32) (hc : CanRead s s.lat.cAddr 32)
    (hr : RegionInRange s.lat.dAddr 32) :
    exec .ptAdd s = .next (writePoint .ptAdd
      (addEncoded (inputBytes s s.lat.bAddr 32) (inputBytes s s.lat.cAddr 32)) s) := by
  refine runCommand_readsThen_point (ins := [(s.lat.bAddr, 32), (s.lat.cAddr, 32)]) (by decide)
    (by simp) rfl (by simpa using And.intro hb hc) rfl hr ?_
  simp only [memRead_unread (s := s) _ _ hd.1, memRead_withUnread_bytes, memRead_withUnread_state,
    writePoint_withUnread, withRegs_keepReg]

/-- PT_SCALARMULT of operands that can be read (R213). -/
theorem exec_ptScalarmult_calm (hb : CanRead s s.lat.bAddr 32) (hc : CanRead s s.lat.cAddr 32)
    (hr : RegionInRange s.lat.dAddr 32) :
    exec .ptScalarmult s = .next (writePoint .ptScalarmult
      ((decodePoint (inputBytes s s.lat.cAddr 32)).map fun q =>
        encodePoint (scalarMult (leNat (inputBytes s s.lat.bAddr 32)) q)) s) := by
  refine runCommand_readsThen_point (ins := [(s.lat.bAddr, 32), (s.lat.cAddr, 32)]) (by decide)
    (by simp) rfl (by simpa using And.intro hb hc) rfl hr ?_
  simp only [memRead_unread (s := s) _ _ hd.1, memRead_withUnread_bytes, memRead_withUnread_state,
    writePoint_withUnread, withRegs_keepReg]

end

/-! ### The point x || y of PT_ENCODE (R211) -/

/-- PT_ENCODE accepts a 64-byte string exactly when its halves are canonical coordinates of a point of
the curve. -/
theorem affinePoint_eq {b : List Byte} (hb : b.length = 64) {x y : Nat} (hx : leNat (b.take 32) = x)
    (hy : leNat (b.drop 32) = y) :
    affinePoint b = if x < fieldP ∧ y < fieldP
      ∧ (-(x : Int) ^ 2 + (y : Int) ^ 2 - 1 - (curveD : Int) * (x : Int) ^ 2 * (y : Int) ^ 2)
        % (fieldP : Int) = 0 then some ⟨x, y⟩ else none := by
  have hlow : slice b 0 32 = b.take 32 := rfl
  have hhigh : slice b 32 64 = b.drop 32 := List.take_of_length_le (by simp [hb])
  simp only [affinePoint, hlow, hhigh, hx, hy, onCurve_iff_int]

/-! ### The commands -/

/-- Settles O35: the point that B decodes to is written as its coordinates. -/
theorem pointDecodeResult : Obligations.PointDecodeResult := by
  intro s q hd hb ⟨hrange, hbus⟩ hq
  rw [exec_ptDecode_calm hd hb hrange, hq]
  exact congrArg _ (writePoint_some_calm hd rfl hbus)

/-- Settles O36: canonical coordinates of a point of the curve are the point that is encoded. -/
theorem pointEncodeResult : Obligations.PointEncodeResult := by
  intro s hd hb ⟨hrange, hbus⟩ x y hx hy hcurve
  rw [exec_ptEncode_calm hd hb hrange,
    affinePoint_eq (x := x) (y := y) (Memory.readBytes_length ..) rfl rfl, if_pos ⟨hx, hy, hcurve⟩]
  exact congrArg _ (writePoint_some_calm hd rfl hbus)

/-- Settles O37: both operands decode, so the sum's encoding is written. -/
theorem pointAddResult : Obligations.PointAddResult := by
  intro s p1 p2 hd hb hc ⟨hrange, hbus⟩ h1 h2
  rw [exec_ptAdd_calm hd hb hc hrange, addEncoded, h1, h2]
  exact congrArg _ (writePoint_some_calm hd rfl hbus)

/-- Settles O38: both commands take the multiple of the whole number at B, of the point at C or of the
base point, which needs no decoding. -/
theorem scalarMultResults : Obligations.ScalarMultResults := by
  intro s hd hb hw
  constructor
  · intro q hc hq
    obtain ⟨hrange, hbus⟩ := hw
    rw [exec_ptScalarmult_calm hd hb hc hrange, hq]
    exact congrArg _ (writePoint_some_calm hd rfl hbus)
  · refine runCommand_readsThen_writes (i := .ptScalarmultBase) (ins := [(s.lat.bAddr, 32)])
      (by decide) (by simp) hd rfl (by simpa using hb) rfl hw ?_
    simp only [memRead_unread (s := s) _ _ hd.1, writeOut_withUnread, withRegs_keepReg]

/-- Settles O39: each command's output is none, for which the point engine raises E_POINT. -/
theorem invalidPointsEndWithError : Obligations.InvalidPointsEndWithError := by
  intro s hd
  refine ⟨fun hb hr hq => ?_, fun hb hr hq => ?_, fun hb hc hr hq => ?_, fun hb hc hr hq => ?_⟩
  · rw [exec_ptDecode_calm hd hb hr, hq]
    exact congrArg _ (writePoint_none_calm _ hd)
  · have hnone : affinePoint (inputBytes s s.lat.bAddr 64) = none := by
      rw [affinePoint_eq (Memory.readBytes_length ..) rfl rfl]
      refine if_neg fun ⟨hx, hy, hcurve⟩ => ?_
      rcases hq with hge | hge | hoff
      · exact hge.not_gt hx
      · exact hge.not_gt hy
      · exact hoff hcurve
    rw [exec_ptEncode_calm hd hb hr, hnone]
    exact congrArg _ (writePoint_none_calm _ hd)
  · have hnone : addEncoded (inputBytes s s.lat.bAddr 32) (inputBytes s s.lat.cAddr 32) = none := by
      rw [← Option.not_isSome_iff_eq_none, addEncoded_isSome]
      rcases hq with h | h <;> simp [h]
    rw [exec_ptAdd_calm hd hb hc hr, hnone]
    exact congrArg _ (writePoint_none_calm _ hd)
  · rw [exec_ptScalarmult_calm hd hb hc hr, hq]
    exact congrArg _ (writePoint_none_calm _ hd)

end Sys2Proof.Machine
end

section
/-! PROOFS. The family 45_signature.md: Clamp (O41), SIGN_PUBLICKEY (O43), SIGN (O44) and SIGN_OPEN
(O45). -/

namespace Sys2Proof.Machine

/-! ### Clamp (R230) -/

theorem toNat_clampLow (b : Byte) : (b &&& 0xF8#8).toNat = 8 * (b.toNat / 8) := by
  revert b
  decide

theorem toNat_clampHigh (b : Byte) : ((b &&& 0x7F#8) ||| 0x40#8).toNat = 64 + b.toNat % 64 := by
  revert b
  decide

/-- A 32-byte string as its first byte, its 30 middle bytes and its last byte. -/
theorem exists_ends_of_length_eq {h : List Byte} (hlen : h.length = 32) :
    ∃ first mid last, h = first :: (mid ++ [last]) ∧ mid.length = 30 := by
  obtain ⟨first, tail, rfl⟩ := List.exists_cons_of_length_eq_add_one hlen
  rcases List.eq_nil_or_concat tail with rfl | ⟨mid, last, rfl⟩
  · cases hlen
  · exact ⟨first, mid, last, by simp, by simpa using hlen⟩

theorem leNat_ends (first last : Byte) {mid : List Byte} (hmid : mid.length = 30) :
    leNat (first :: (mid ++ [last])) = first.toNat + 256 * leNat mid + 2 ^ 248 * last.toNat := by
  rw [leNat, leNat_append, hmid, leNat, leNat]
  omega

/-- Clamp as arithmetic: bits 3 to 253 of LE(h), with bit 254 set and the others clear (R230). -/
theorem clampScalar_eq {h : List Byte} (hlen : h.length = 32) :
    clampScalar h = 2 ^ 254 + 2 ^ 3 * (leNat h / 2 ^ 3 % 2 ^ 251) := by
  obtain ⟨first, mid, last, rfl, hmid⟩ := exists_ends_of_length_eq hlen
  have hslice : slice (first :: (mid ++ [last])) 1 31 = mid := by simp [slice, hmid]
  have hlast : (first :: (mid ++ [last])).getD 31 0#8 = last := by simp [hmid]
  have hmidlt := leNat_lt mid
  have hfirst := first.isLt
  have hlastlt := last.isLt
  rw [hmid] at hmidlt
  rw [clampScalar, hslice, hlast, List.getD_cons_zero, leNat_ends _ _ hmid, leNat_ends _ _ hmid,
    toNat_clampLow, toNat_clampHigh]
  omega

/-- Settles O41: the arithmetic form of Clamp gives its range, its factor 8 and its bits. -/
theorem clampedScalarBits : Obligations.ClampedScalarBits := by
  intro h hlen
  rw [clampScalar_eq hlen]
  have hlt := Nat.mod_lt (leNat h / 2 ^ 3) (Nat.two_pow_pos 251)
  refine ⟨Nat.le_add_right _ _, by omega, by omega, fun j hlow hhigh => ?_⟩
  have hbit : j - 3 < 251 := by omega
  rw [Nat.testBit_two_pow_add_gt hhigh, Nat.testBit_two_pow_mul, Nat.testBit_mod_two_pow,
    Nat.testBit_div_two_pow, Nat.sub_add_cancel hlow]
  simp [hlow, hbit]

/-! ### The checks and the input reads of a command with an overlap rule (R64, R67, R94, R116) -/

/-- A command passes its checks and its input reads when each of its input regions `ins` can be read,
its output region, if it has one, is in range, and no rule on length or overlap refuses it: the form of
`checks_and_reads_pass` for the commands R67 names. -/
theorem checks_and_reads_pass_apart {i : Instr} {s : State} {ins : List (Word × Nat)}
    (hs : SequenceOk i s) (hl : LengthOk i s.lat) (ho : ¬ OverlapRefused i s.lat)
    (hins : (regionsOf i s.lat).ins = ins.map fun r => ⟨r.1.toNat, r.2⟩)
    (hread : ∀ r ∈ ins, CanRead s r.1 r.2)
    (hout : ∀ r, (regionsOf i s.lat).d = some r → r.len = 0 ∨ r.addr + r.len ≤ 4294967296) :
    checkError i s = none ∧ failingReads i s = [] := by
  have hregion : ∀ r ∈ (regionsOf i s.lat).ins, ∃ a : Word, r.addr = a.toNat ∧ CanRead s a r.len := by
    rw [hins, List.forall_mem_map]
    exact fun r hr => ⟨r.1, rfl, hread r hr⟩
  have hranges : RangesOk i s.lat := by
    refine List.forall_mem_append.mpr ⟨fun r hr => ?_, fun r hr => hout r (Option.mem_toList.mp hr)⟩
    obtain ⟨a, haddr, hrange, -⟩ := hregion r hr
    exact haddr ▸ hrange
  refine ⟨(checkError_none_iff i s).mpr ⟨hs, hl, hranges, ho⟩, failingReads_nil fun r hr => ?_⟩
  obtain ⟨a, haddr, -, hbus⟩ := hregion r hr
  exact ⟨a, haddr, hbus⟩

/-- Out(v) of a command of the hash pipeline, which has destroyed the context, with no race and no bus
error (R139). -/
theorem writeOut_invalidateCtx_calm {i : Instr} {v : List Byte} {s : State} {n : Nat} (hd : DutyKept s)
    (hout : (regionsOf i s.lat).d = some ⟨s.lat.dAddr.toNat, n⟩)
    (hbus : BusAnswersOk s .write s.lat.dAddr n) :
    writeOut i v (invalidateCtx s) = s.withoutContext.succeededWith v :=
  writeOut_calm i v (invalidateCtx s) (failingWrites_nil hout hbus) hd

/-! ### SIGN_PUBLICKEY and SIGN (R236, R237) -/

/-- Settles O43: the checks and the read pass, and the bytes written are those of KeyDerive (R232). -/
theorem signPublickeyResult : Obligations.SignPublickeyResult := by
  intro s hd hb ⟨hdrange, hdbus⟩ seed vk
  obtain ⟨hcheck, hreads⟩ := checks_and_reads_pass (i := .signPublickey) (s := s)
    (ins := [(s.lat.bAddr, 32)]) (by decide) (by simp) rfl (by simpa using hb)
    (fun _ hr => Option.some.inj hr ▸ hdrange)
  refine (runCommand_readsThen_ok (pre := invalidateCtx) hcheck hreads).trans ?_
  simp only [memRead_unread (s := invalidateCtx s) _ _ hd.1, writeOut_withUnread, withRegs_keepReg]
  exact congrArg _ (writeOut_invalidateCtx_calm (n := 96) hd rfl hdbus)

/-- Settles O44: with no race the three reads of A give one message, which is signed and copied. -/
theorem signWritesSignedMessage : Obligations.SignWritesSignedMessage := by
  intro s hd hlen ha hb ⟨hdrange, hdbus⟩ hapart
  obtain ⟨hcheck, hreads⟩ := checks_and_reads_pass_apart (i := .sign) (s := s)
    (ins := [(s.lat.aAddr, s.lat.aLen.toNat), (s.lat.bAddr, 64)]) (by simp) (fun _ => hlen) hapart
    rfl (by simpa using And.intro ha hb) (fun _ hr => Option.some.inj hr ▸ hdrange)
  refine (runCommand_readsThen_ok (pre := invalidateCtx) hcheck hreads).trans ?_
  simp only [memRead_unread (s := invalidateCtx s) _ _ hd.1, memRead_withUnread_bytes,
    memRead_withUnread_state, writeOut_withUnread, withRegs_keepReg]
  exact congrArg _ (writeOut_invalidateCtx_calm hd rfl hdbus)

/-! ### SIGN_OPEN (R238) -/

theorem Memory.drop_readBytes (m : Memory) (a : Nat) {k n : Nat} (h : k ≤ n) :
    (m.readBytes a n).drop k = m.readBytes (a + k) (n - k) := by
  obtain ⟨l, rfl⟩ := Nat.exists_eq_add_of_le h
  rw [Memory.readBytes_add, List.drop_left' (Memory.readBytes_length ..), Nat.add_sub_cancel_left]

theorem verifySigned_eq_some_iff {sm vk m : List Byte} :
    verifySigned sm vk = some m ↔ signatureValid sm vk = true ∧ sm.drop 64 = m := by
  simp [verifySigned]

theorem verifySigned_eq_none_iff {sm vk : List Byte} :
    verifySigned sm vk = none ↔ signatureValid sm vk = false := by
  simp [verifySigned]

/-- A SIGN_OPEN of 64 bytes or more has an output region for the message (R94). -/
theorem regionsOf_signOpen_d {l : Latches} (h : 64 ≤ l.aLen.toNat) :
    (regionsOf .signOpen l).d = some ⟨l.dAddr.toNat, l.aLen.toNat - 64⟩ :=
  if_pos h

/-- SIGN_OPEN of a signed message and a key that can be read, with no race: with one value for every
read, the message copied is the one that was checked. -/
theorem exec_signOpen_calm {s : State} (hd : DutyKept s) (hlen : 64 ≤ s.lat.aLen.toNat)
    (ha : CanRead s s.lat.aAddr s.lat.aLen.toNat) (hc : CanRead s s.lat.cAddr 32)
    (hrange : RegionInRange s.lat.dAddr (s.lat.aLen.toNat - 64))
    (hapart : ¬ OverlapRefused .signOpen s.lat) :
    let sm := inputBytes s s.lat.aAddr s.lat.aLen.toNat
    exec .signOpen s = .next
      (if signatureValid sm (inputBytes s s.lat.cAddr 32) then
        writeOut .signOpen (sm.drop 64) (invalidateCtx s)
      else s.withoutContext.failedVerification) := by
  intro sm
  obtain ⟨hcheck, hreads⟩ := checks_and_reads_pass_apart (i := .signOpen) (s := s)
    (ins := [(s.lat.aAddr, s.lat.aLen.toNat), (s.lat.cAddr, 32)]) (by simp) (by simp) hapart
    rfl (by simpa using And.intro ha hc)
    (fun _ hr => Option.some.inj ((regionsOf_signOpen_d hlen).symm.trans hr) ▸ hrange)
  have hmessage : sm.drop 64 = s.mem.readBytes (s.lat.aAddr.toNat + 64) (s.lat.aLen.toNat - 64) :=
    Memory.drop_readBytes s.mem _ hlen
  refine (runCommand_readsThen_ok (pre := invalidateCtx) hcheck hreads).trans ?_
  simp only [memRead_unread (s := invalidateCtx s) _ _ hd.1, memRead_withUnread_bytes,
    memRead_withUnread_state, writeOut_withUnread, verifyFail_withUnread, withRegs_keepReg,
    verifyFail_calm (invalidateCtx s) hd, hmessage]
  rfl

/-- Settles O45, by the two outcomes of the signature test. -/
theorem signOpenRecoversMessage : Obligations.SignOpenRecoversMessage := by
  intro s hd hlen ha hc hrange hapart sm vk
  rw [exec_signOpen_calm hd hlen ha hc hrange hapart]
  refine ⟨fun m hm hbus => ?_, fun hfail => ?_⟩
  · obtain ⟨hvalid, rfl⟩ := verifySigned_eq_some_iff.mp hm
    rw [if_pos hvalid]
    exact congrArg _ (writeOut_invalidateCtx_calm hd (regionsOf_signOpen_d hlen) hbus)
  · rw [if_neg (Bool.eq_false_iff.mp (verifySigned_eq_none_iff.mp hfail))]

end Sys2Proof.Machine
end

section
/-! PROOFS. The family 46_stream.md: HSALSA20 and SALSA20_BLOCK (O46), STREAM (O47), STREAM_XOR (O48) and
the properties of the keystream (O49). -/

namespace Sys2Proof.Machine

/-! ### Xor of byte strings (R270) -/

theorem xorBytes_zeros (k : List Byte) : xorBytes (List.replicate k.length 0#8) k = k :=
  List.ext_getElem (by simp) (by simp [xorBytes])

theorem xorBytes_xorBytes_cancel {data k : List Byte} (h : data.length = k.length) :
    xorBytes (xorBytes data k) k = data :=
  List.ext_getElem (by simp [h]) (by simp [xorBytes])

/-! ### The keystream (R265, R271) -/

/-- The first `n` keystream bytes are those of any number of blocks that holds them. -/
theorem take_xsalsaBlocks (k2 nonce : List Byte) {n a b : Nat} (hn : n ≤ 64 * a) (hab : a ≤ b) :
    ((List.range b).flatMap (xsalsaBlock k2 nonce)).take n
      = ((List.range a).flatMap (xsalsaBlock k2 nonce)).take n := by
  obtain ⟨c, rfl⟩ := Nat.exists_eq_add_of_le hab
  rw [List.range_add, List.flatMap_append,
    List.take_append_of_le_length (by rwa [xsalsaBlocks_length])]

theorem take_xsalsa20 (nonce key : List Byte) {n m : Nat} (h : n ≤ m) :
    (xsalsa20 m nonce key).take n = xsalsa20 n nonce key := by
  simp only [xsalsa20, List.take_take, Nat.min_eq_left h]
  exact take_xsalsaBlocks _ _ (by omega) (by omega)

/-- Settles O49: the keystream is cut from one sequence of blocks, and xor with it cancels. -/
theorem keystreamProperties : Obligations.KeystreamProperties := by
  intro nonce key n
  refine ⟨xsalsa20_length n nonce key, fun m h => take_xsalsa20 nonce key h, ?_, fun data hlen => ?_⟩
  · simpa only [xsalsa20_length] using xorBytes_zeros (xsalsa20 n nonce key)
  · exact xorBytes_xorBytes_cancel (hlen.trans (xsalsa20_length n nonce key).symm)

/-! ### The commands (R267 to R270) -/

/-- A command with no overlap rule that reads a 32-byte key at B and then `m` bytes at C, and writes `f`
of the two, succeeds with it when there is no race and its regions can be read and written. -/
theorem runCommand_keyed_writes {i : Instr} {s : State} {rest : State → State} {m n : Nat}
    (f : List Byte → List Byte → List Byte)
    (hi : i ∉ [.sign, .signOpen, .streamXor]) (hs : SequenceOk i s) (hd : DutyKept s)
    (hins : (regionsOf i s.lat).ins = [⟨s.lat.bAddr.toNat, 32⟩, ⟨s.lat.cAddr.toNat, m⟩])
    (hb : CanRead s s.lat.bAddr 32) (hc : CanRead s s.lat.cAddr m)
    (hout : (regionsOf i s.lat).d = some ⟨s.lat.dAddr.toNat, n⟩) (hw : CanWrite s s.lat.dAddr n)
    (hrest : rest s =
      let key := memRead s.lat.bAddr.toNat 32 s
      let input := memRead s.lat.cAddr.toNat m key.2
      writeOut i (f key.1 input.1) input.2) :
    runCommand i (readsThen i id rest) s = .next
      (s.succeededWith (f (inputBytes s s.lat.bAddr 32) (inputBytes s s.lat.cAddr m))) := by
  refine runCommand_readsThen_writes (ins := [(s.lat.bAddr, 32), (s.lat.cAddr, m)]) hi hs hd hins
    (by simpa using And.intro hb hc) hout hw (hrest.trans ?_)
  simp only [memRead_unread (s := s) _ _ hd.1, memRead_withUnread_bytes, memRead_withUnread_state,
    writeOut_withUnread, withRegs_keepReg]

/-- Settles O46: both core functions are of the key at B and 16 bytes at C. -/
theorem salsaCoreResults : Obligations.SalsaCoreResults := by
  intro s hd hb hc
  constructor
  · intro hw
    exact runCommand_keyed_writes (i := .hsalsa20) hsalsa20 (by decide) (by simp) hd rfl hb hc
      rfl hw rfl
  · intro hw
    exact runCommand_keyed_writes (i := .salsa20Block) salsa20 (by decide) (by simp) hd rfl hb hc
      rfl hw rfl

/-- Settles O47: STREAM has no region at A, and its length is latched. -/
theorem streamWritesKeystream : Obligations.StreamWritesKeystream := by
  intro s hd hb hc hw
  exact runCommand_keyed_writes (i := .stream) (fun key nonce => xsalsa20 s.lat.aLen.toNat nonce key)
    (by decide) (by simp) hd rfl hb hc rfl hw rfl

/-- Settles O48: the overlap check passes, and A is read in full before D is written, so D may be A. -/
theorem streamXorWritesCiphertext : Obligations.StreamXorWritesCiphertext := by
  intro s hd ha hb hc ⟨hdrange, hdbus⟩ hapart
  obtain ⟨hcheck, hreads⟩ := checks_and_reads_pass_apart (i := .streamXor) (s := s)
    (ins := [(s.lat.aAddr, s.lat.aLen.toNat), (s.lat.bAddr, 32), (s.lat.cAddr, 24)]) (by simp) (by simp)
    hapart rfl (by simpa using And.intro ha (And.intro hb hc))
    (fun _ hr => Option.some.inj hr ▸ hdrange)
  refine (runCommand_readsThen_ok (pre := id) hcheck hreads).trans ?_
  simp only [id, memRead_unread (s := s) _ _ hd.1, memRead_withUnread_bytes,
    memRead_withUnread_state, writeOut_withUnread, withRegs_keepReg]
  exact congrArg _ (writeOut_calm .streamXor _ s (failingWrites_nil rfl hdbus) hd)

end Sys2Proof.Machine
end

section
/-! PROOFS. The family 60_exceptions.md: what a command refused by a check leaves (O15). -/

namespace Sys2Proof.Machine

/-- Settles O15: no rule raises one of the four errors, so a check failed and its error was all the
command did. -/
theorem checkErrorsChangeNothing : Obligations.CheckErrorsChangeNothing := by
  intro i s t hd ht herr
  have hcheck : checkError i s = some t.err := checkError_of_err ht (by
    rcases herr with h | h | h | h
    all_goals simp [h])
  have hexec : exec i s = .next (s.failedWith t.err) := by
    rw [exec_of_checkError hcheck, raiseError_calm _ s hd]
  exact Host.Outcome.next.inj (ht.symm.trans hexec)

end Sys2Proof.Machine
end
